-- ==== Sys2Proof/Word.lean ====
section
/-!
DEFINITION. The command word (R80) and the command the host's port carries (R80, R270).
-/

namespace Sys2Proof

/-- A 32-bit command word (R80). -/
abbrev Word := BitVec 32

/-- A command is the pair `(word, OPND)` (R80). `OPND` has `W` bits, and `W` is a parameter of CORE, so it is a
natural number here; the port takes its low `W` bits (`State.accepted`). -/
structure Command where
  word : Word
  opnd : Nat
  deriving DecidableEq, Repr

end Sys2Proof
end

