-- ==== Sys2Proof/Config.lean ====
section
/-!
DEFINITION. What an implementation fixes (R7, R8, R10) and the free value of the limbs that R35 leaves unspecified.
-/

namespace Sys2Proof

/-- The implementation parameters: `LIMB_W` (R7), `CAP` (R8) and `NREG` (R10). -/
structure Params where
  limbW : Nat
  cap   : Nat
  nreg  : Nat
  deriving DecidableEq, Repr

/-- The reference configuration `LIMB_W = 32`, `CAP = 4`, `NREG = 16` (R7, R8, R10; decision D3). -/
def Params.reference : Params := { limbW := 32, cap := 4, nreg := 16 }

/-- `W = 2 * LIMB_W`, the width of `OPND` and of `RES` (R7). -/
def Params.w (p : Params) : Nat := 2 * p.limbW

/-- FREE VALUE (log entry 2). `Config.freeLimb k j` is what limb `j` of a register holds after register write
number `k` where R35 says that a write may leave any value. It has no body: nothing can be proved of it. -/
opaque Config.freeLimb : Nat → Nat → Nat

end Sys2Proof
end

