-- ==== Sys2Proof/Syntax.lean ====
section
/-!
DEFINITION. The instructions of CORE: one constructor per row of spec/opcode_table.json (R86, R87).
-/

namespace Sys2Proof

/-- A 4-bit register field, `RD` or `RS` (R81, R82). -/
abbrev RegIdx := BitVec 4

/-- The named constants that SETC selects with `K` (R114, R117): 0 ZERO, 1 INF, 2 NAN, 3 MAX. -/
inductive NamedConst where
  | zero | inf | nan | max
  deriving DecidableEq, Repr

/-- One constructor per row of the opcode table. `rd` is the receiver, `rs` the right-operand register.
In a native form (`N` at the end of the name) `signed` is the `S` bit and `opnd` the scalar operand (R83, R84).
`SHL` and `SHR` take the distance and `RDLIMB` the limb index from `OPND`, always unsigned (R85). -/
inductive Instr where
  | nop
  | add (rd rs : RegIdx)
  | addN (rd : RegIdx) (signed : Bool) (opnd : Nat)
  | sub (rd rs : RegIdx)
  | subN (rd : RegIdx) (signed : Bool) (opnd : Nat)
  | mul (rd rs : RegIdx)
  | mulN (rd : RegIdx) (signed : Bool) (opnd : Nat)
  | div (rd rs : RegIdx)
  | divN (rd : RegIdx) (signed : Bool) (opnd : Nat)
  | mod (rd rs : RegIdx)
  | modN (rd : RegIdx) (signed : Bool) (opnd : Nat)
  | and (rd rs : RegIdx)
  | andN (rd : RegIdx) (signed : Bool) (opnd : Nat)
  | or (rd rs : RegIdx)
  | orN (rd : RegIdx) (signed : Bool) (opnd : Nat)
  | xor (rd rs : RegIdx)
  | xorN (rd : RegIdx) (signed : Bool) (opnd : Nat)
  | not (rd : RegIdx)
  | shl (rd : RegIdx) (dist : Nat)
  | shr (rd : RegIdx) (dist : Nat)
  | cmp (rd rs : RegIdx)
  | cmpN (rd : RegIdx) (signed : Bool) (opnd : Nat)
  | cls (rd : RegIdx)
  | mov (rd rs : RegIdx)
  | movN (rd : RegIdx) (signed : Bool) (opnd : Nat)
  | setc (rd : RegIdx) (k : NamedConst)
  | rdlimb (rd : RegIdx) (index : Nat)
  | rdlen (rd : RegIdx)
  | clrst
  deriving DecidableEq, Repr

/-- The register fields an instruction uses, receiver first (R86). -/
def Instr.regFields : Instr → List RegIdx
  | .nop | .clrst => []
  | .add rd rs | .sub rd rs | .mul rd rs | .div rd rs | .mod rd rs => [rd, rs]
  | .and rd rs | .or rd rs | .xor rd rs | .cmp rd rs | .mov rd rs => [rd, rs]
  | .addN rd _ _ | .subN rd _ _ | .mulN rd _ _ | .divN rd _ _ | .modN rd _ _ => [rd]
  | .andN rd _ _ | .orN rd _ _ | .xorN rd _ _ | .cmpN rd _ _ | .movN rd _ _ => [rd]
  | .not rd | .shl rd _ | .shr rd _ | .cls rd | .rdlimb rd _ | .rdlen rd | .setc rd _ => [rd]

/-- The `OPND` an instruction carries; 0 for an instruction that ignores it (R84). -/
def Instr.opnd : Instr → Nat
  | .addN _ _ v | .subN _ _ v | .mulN _ _ v | .divN _ _ v | .modN _ _ v => v
  | .andN _ _ v | .orN _ _ v | .xorN _ _ v | .cmpN _ _ v | .movN _ _ v => v
  | .shl _ v | .shr _ v | .rdlimb _ v => v
  | .nop | .clrst | .not _ | .cls _ | .rdlen _ | .setc _ _ => 0
  | .add _ _ | .sub _ _ | .mul _ _ | .div _ _ | .mod _ _ => 0
  | .and _ _ | .or _ _ | .xor _ _ | .cmp _ _ | .mov _ _ => 0

end Sys2Proof
end

