-- ==== Sys2Proof/WellFormed.lean ====
section
/-!
DEFINITION. Which instructions are well formed under given parameters: every register field they use names a
register (R82), and their operand fits the `W`-bit port (R84).
-/

namespace Sys2Proof

/-- Every register field that the instruction uses is `< NREG` (R82). -/
def Instr.regsExist (p : Params) (i : Instr) : Bool := i.regFields.all fun r => decide (r.toNat < p.nreg)

/-- `OPND` is a `W`-bit value (R84). -/
def Instr.opndFits (p : Params) (i : Instr) : Bool := decide (i.opnd < 2 ^ p.w)

/-- Well-formedness: both checks. -/
def Instr.wellFormed (p : Params) (i : Instr) : Bool := i.regsExist p && i.opndFits p

end Sys2Proof
end

