-- ==== Sys2Proof/Decode.lean ====
section
/-!
DEFINITION. The decoder of R88 (total, rejecting by name), the encoder of R81, the rows of spec/opcode_table.json
and the host's `decodeTableWord`.
-/

namespace Sys2Proof

/-! ### Fields of format C (R81) -/

/-- `OP = word[31:26]`. -/
def opField (w : Word) : BitVec 6 := w.extractLsb' 26 6

/-- `RD = word[25:22]`. -/
def rdField (w : Word) : RegIdx := w.extractLsb' 22 4

/-- `RS = word[21:18]`. -/
def rsField (w : Word) : RegIdx := w.extractLsb' 18 4

/-- `N = word[17]`. -/
def nBit (w : Word) : Bool := w.getLsbD 17

/-- `S = word[16]`. -/
def sBit (w : Word) : Bool := w.getLsbD 16

/-- `Z = word[15:0]`. -/
def zField (w : Word) : BitVec 16 := w.extractLsb' 0 16

/-- SETC's selector `K = word[19:18]`. -/
def kField (w : Word) : BitVec 2 := w.extractLsb' 18 2

/-- `word[21:20]`, which SETC requires to be 0. -/
def kHighField (w : Word) : BitVec 2 := w.extractLsb' 20 2

/-- The constant that `K` selects (R117). -/
def namedConst (k : BitVec 2) : NamedConst :=
  if k = 0 then .zero else if k = 1 then .inf else if k = 2 then .nan else .max

/-! ### Decoding (R88) -/

/-- Why a word is illegal: the eight cases of R89, in its order. -/
inductive IllegalReason where
  /-- Case 1: `OP` in `0x13` to `0x3F`. -/
  | reservedOpcode
  /-- Case 2: `Z` is not 0. -/
  | reservedField
  /-- Case 3: a used register field is `>= NREG`. -/
  | absentRegister
  /-- Case 4: class B with `N = 0` and `S = 1`. -/
  | signedRegisterForm
  /-- Case 5: class B with `N = 1` and `RS != 0`. -/
  | nativeFormWithRs
  /-- Case 6: class U with a bit of `word[21:16]` set. -/
  | classUField
  /-- Case 7: SETC with `word[21:20]`, `N` or `S` set. -/
  | setcField
  /-- Case 8: NOP or CLRST with a bit of `word[25:16]` set. -/
  | classZField
  deriving DecidableEq, Repr

/-- Class Z (no operand): `word[25:16]` must be 0. -/
def decodeZ (w : Word) (i : Instr) : Except IllegalReason Instr :=
  if w.extractLsb' 16 10 = 0 then .ok i else .error .classZField

/-- Class B (binary): the register form with `N = 0`, the native form with `N = 1`. -/
def decodeB (nreg : Nat) (c : Command) (reg : RegIdx → RegIdx → Instr) (native : RegIdx → Bool → Nat → Instr) :
    Except IllegalReason Instr :=
  let w := c.word
  if nreg ≤ (rdField w).toNat then .error .absentRegister
  else if nBit w then
    if rsField w = 0 then .ok (native (rdField w) (sBit w) c.opnd) else .error .nativeFormWithRs
  else if sBit w then .error .signedRegisterForm
  else if nreg ≤ (rsField w).toNat then .error .absentRegister
  else .ok (reg (rdField w) (rsField w))

/-- Class U (one register): `word[21:16]` must be 0. -/
def decodeU (nreg : Nat) (w : Word) (mk : RegIdx → Instr) : Except IllegalReason Instr :=
  if nreg ≤ (rdField w).toNat then .error .absentRegister
  else if w.extractLsb' 16 6 = 0 then .ok (mk (rdField w)) else .error .classUField

/-- Class K (SETC): `word[21:20]`, `N` and `S` must be 0. -/
def decodeK (nreg : Nat) (w : Word) : Except IllegalReason Instr :=
  if nreg ≤ (rdField w).toNat then .error .absentRegister
  else if kHighField w = 0 ∧ nBit w = false ∧ sBit w = false then .ok (.setc (rdField w) (namedConst (kField w)))
  else .error .setcField

/-- The case of R88 that the opcode `op` selects (R87). `OPND` is handed to the instruction that reads it. -/
def decodeRow (nreg : Nat) (c : Command) (op : Nat) : Except IllegalReason Instr :=
  let w := c.word
  match op with
  | 0x00 => decodeZ w .nop
  | 0x01 => decodeB nreg c .add .addN
  | 0x02 => decodeB nreg c .sub .subN
  | 0x03 => decodeB nreg c .mul .mulN
  | 0x04 => decodeB nreg c .div .divN
  | 0x05 => decodeB nreg c .mod .modN
  | 0x06 => decodeB nreg c .and .andN
  | 0x07 => decodeB nreg c .or .orN
  | 0x08 => decodeB nreg c .xor .xorN
  | 0x09 => decodeU nreg w .not
  | 0x0A => decodeU nreg w fun rd => .shl rd c.opnd
  | 0x0B => decodeU nreg w fun rd => .shr rd c.opnd
  | 0x0C => decodeB nreg c .cmp .cmpN
  | 0x0D => decodeU nreg w .cls
  | 0x0E => decodeB nreg c .mov .movN
  | 0x0F => decodeK nreg w
  | 0x10 => decodeU nreg w fun rd => .rdlimb rd c.opnd
  | 0x11 => decodeU nreg w .rdlen
  | 0x12 => decodeZ w .clrst
  | _ => .error .reservedOpcode

/-- `decode` of R88. Which case applies depends on `word` only. -/
def decode (nreg : Nat) (c : Command) : Except IllegalReason Instr :=
  if zField c.word ≠ 0 then .error .reservedField else decodeRow nreg c (opField c.word).toNat

/-! ### Encoding (R81, R87) -/

/-- `word = OP<<26 | RD<<22 | RS<<18 | N<<17 | S<<16` (R81); `Z` is 0. -/
def packWord (op : BitVec 6) (rd rs : RegIdx) (n s : Bool) : Word :=
  op.setWidth 32 <<< 26 ||| rd.setWidth 32 <<< 22 ||| rs.setWidth 32 <<< 18 |||
    (BitVec.ofBool n).setWidth 32 <<< 17 ||| (BitVec.ofBool s).setWidth 32 <<< 16

/-- `K` of a named constant (R117). -/
def NamedConst.code : NamedConst → BitVec 4
  | .zero => 0 | .inf => 1 | .nan => 2 | .max => 3

/-- A register form of class B. -/
def encodeReg (op : BitVec 6) (rd rs : RegIdx) : Command := { word := packWord op rd rs false false, opnd := 0 }

/-- A native form of class B. -/
def encodeNative (op : BitVec 6) (rd : RegIdx) (signed : Bool) (v : Nat) : Command :=
  { word := packWord op rd 0 true signed, opnd := v }

/-- A class U command, with the `OPND` it reads (0 where it reads none). -/
def encodeUnary (op : BitVec 6) (rd : RegIdx) (v : Nat) : Command := { word := packWord op rd 0 false false, opnd := v }

/-- The command of an instruction, from R81, R86 and R87. `OPND` is 0 where the command ignores it: R92
says so of the register form of class B, and the programs of 95_test_vectors.md show it for the other commands (DEDUCED,
log entry 8). -/
def encode : Instr → Command
  | .nop => encodeReg 0x00 0 0
  | .add rd rs => encodeReg 0x01 rd rs
  | .addN rd s v => encodeNative 0x01 rd s v
  | .sub rd rs => encodeReg 0x02 rd rs
  | .subN rd s v => encodeNative 0x02 rd s v
  | .mul rd rs => encodeReg 0x03 rd rs
  | .mulN rd s v => encodeNative 0x03 rd s v
  | .div rd rs => encodeReg 0x04 rd rs
  | .divN rd s v => encodeNative 0x04 rd s v
  | .mod rd rs => encodeReg 0x05 rd rs
  | .modN rd s v => encodeNative 0x05 rd s v
  | .and rd rs => encodeReg 0x06 rd rs
  | .andN rd s v => encodeNative 0x06 rd s v
  | .or rd rs => encodeReg 0x07 rd rs
  | .orN rd s v => encodeNative 0x07 rd s v
  | .xor rd rs => encodeReg 0x08 rd rs
  | .xorN rd s v => encodeNative 0x08 rd s v
  | .not rd => encodeUnary 0x09 rd 0
  | .shl rd v => encodeUnary 0x0A rd v
  | .shr rd v => encodeUnary 0x0B rd v
  | .cmp rd rs => encodeReg 0x0C rd rs
  | .cmpN rd s v => encodeNative 0x0C rd s v
  | .cls rd => encodeUnary 0x0D rd 0
  | .mov rd rs => encodeReg 0x0E rd rs
  | .movN rd s v => encodeNative 0x0E rd s v
  | .setc rd k => encodeReg 0x0F rd k.code
  | .rdlimb rd v => encodeUnary 0x10 rd v
  | .rdlen rd => encodeUnary 0x11 rd 0
  | .clrst => encodeReg 0x12 0 0

/-! ### The opcode table -/

/-- One row of spec/opcode_table.json: a word names the row when `word AND mask = pattern`. -/
structure TableRow where
  mnemonic : String
  pattern : Word
  mask : Word
  deriving DecidableEq, Repr

/-- `word` is one of the row's words. -/
def TableRow.covers (r : TableRow) (w : Word) : Bool := w &&& r.mask == r.pattern

/-- The register-form and native-form rows of a class B opcode. -/
def rowsB (name : String) (pattern : Word) : List TableRow :=
  [⟨name, pattern, 0xFC03FFFF⟩, ⟨name ++ ".N", pattern ||| 0x00020000, 0xFC3EFFFF⟩]

/-- The 29 rows of spec/opcode_table.json. -/
def opcodeTable : List TableRow :=
  [⟨"NOP", 0x00000000, 0xFFFFFFFF⟩] ++
  rowsB "ADD" 0x04000000 ++ rowsB "SUB" 0x08000000 ++ rowsB "MUL" 0x0C000000 ++ rowsB "DIV" 0x10000000 ++
  rowsB "MOD" 0x14000000 ++ rowsB "AND" 0x18000000 ++ rowsB "OR" 0x1C000000 ++ rowsB "XOR" 0x20000000 ++
  [⟨"NOT", 0x24000000, 0xFC3FFFFF⟩, ⟨"SHL", 0x28000000, 0xFC3FFFFF⟩, ⟨"SHR", 0x2C000000, 0xFC3FFFFF⟩] ++
  rowsB "CMP" 0x30000000 ++ [⟨"CLS", 0x34000000, 0xFC3FFFFF⟩] ++ rowsB "MOV" 0x38000000 ++
  [⟨"SETC", 0x3C000000, 0xFC33FFFF⟩, ⟨"RDLIMB", 0x40000000, 0xFC3FFFFF⟩, ⟨"RDLEN", 0x44000000, 0xFC3FFFFF⟩,
   ⟨"CLRST", 0x48000000, 0xFFFFFFFF⟩]

/-- The mnemonic of an instruction's row. -/
def Instr.mnemonic : Instr → String
  | .nop => "NOP"
  | .add _ _ => "ADD"
  | .addN _ _ _ => "ADD.N"
  | .sub _ _ => "SUB"
  | .subN _ _ _ => "SUB.N"
  | .mul _ _ => "MUL"
  | .mulN _ _ _ => "MUL.N"
  | .div _ _ => "DIV"
  | .divN _ _ _ => "DIV.N"
  | .mod _ _ => "MOD"
  | .modN _ _ _ => "MOD.N"
  | .and _ _ => "AND"
  | .andN _ _ _ => "AND.N"
  | .or _ _ => "OR"
  | .orN _ _ _ => "OR.N"
  | .xor _ _ => "XOR"
  | .xorN _ _ _ => "XOR.N"
  | .not _ => "NOT"
  | .shl _ _ => "SHL"
  | .shr _ _ => "SHR"
  | .cmp _ _ => "CMP"
  | .cmpN _ _ _ => "CMP.N"
  | .cls _ => "CLS"
  | .mov _ _ => "MOV"
  | .movN _ _ _ => "MOV.N"
  | .setc _ _ => "SETC"
  | .rdlimb _ _ => "RDLIMB"
  | .rdlen _ => "RDLEN"
  | .clrst => "CLRST"

/-! ### The host's reading of a table word -/

/-- The command whose bits, counted from bit 0 of the word and on into `OPND`, are the low `nbits` bits of `w`:
`word` is bits 31..0 and `OPND` the `W` bits above them. -/
def tableCommand (p : Params) (nbits w : Nat) : Command :=
  let v := w % 2 ^ nbits
  { word := BitVec.ofNat 32 v, opnd := v / 2 ^ 32 % 2 ^ p.w }

/-- What the decoder reads from the table word `w` in the reference configuration; none where it refuses. -/
def decodeTableWord (nbits w : Nat) : Option Instr :=
  match decode Params.reference.nreg (tableCommand Params.reference nbits w) with
  | .ok i => some i
  | .error _ => none

end Sys2Proof
end

