-- ==== Sys2Proof/Machine/State.lean ====
section
/-!
DEFINITION. The state of CORE (10_state.md), the values a register holds, the outcomes a step can have, and the
state after reset (R52).
-/

namespace Sys2Proof.Machine

/-- A natural-number register (R30): the length counter and the `CAP` limbs, limb 0 first (R61). -/
structure NReg where
  len  : Nat
  limb : List Nat
  deriving DecidableEq, Repr

/-- The abstract value of a register (R36). -/
inductive Val where
  | nan
  | inf
  | fin (m : Nat)
  deriving DecidableEq, Repr

/-- The four categories (R32). -/
inductive Category where
  | nan | zero | finite | infinity
  deriving DecidableEq, Repr

/-- The live fields of `STATUS` (R44); bits 31:5 are hardwired 0 and need no storage (`Status.word`). -/
structure Status where
  lt  : Bool
  eq  : Bool
  gt  : Bool
  un  : Bool
  ill : Bool
  deriving DecidableEq, Repr

/-- What the host does at CORE's inputs (R271). -/
inductive HostInput where
  /-- It issues a command over the command port (R270). -/
  | issue (c : Command)
  /-- It asserts and releases reset (R280), with the command, if any, that CORE has accepted and not completed then. -/
  | reset (inProgress : Option Command)
  deriving DecidableEq, Repr

/-- The state of CORE. -/
structure State where
  /-- `LIMB_W` (R7); no step changes it. -/
  limbW  : Nat
  /-- `CAP` (R8); no step changes it. -/
  cap    : Nat
  /-- The register file (R30); its length is `NREG` (R10). -/
  regs   : List NReg
  /-- `RES`, a `W`-bit register (R42). -/
  res    : Nat
  /-- `STATUS` (R43, R44). -/
  status : Status
  /-- The command index (R48), which no output shows. -/
  ci     : Nat
  /-- THE MODEL'S OWN: how many register writes have drawn free limbs (log entry 2). -/
  draws  : Nat
  /-- What the host still does, oldest first (R47, R271; log entry 5). -/
  host   : List HostInput
  deriving DecidableEq, Repr

/-- CORE never faults: "CORE never stops, stalls or traps on an operand value" (R260), and no trap exists (R265).
The type has no constructor, so no definition raises a fault. -/
inductive Fault where
  deriving DecidableEq, Repr

/-- Why the model gives no next state. -/
inductive Refusal where
  /-- Raised by an arm of `exec` whose instruction has no meaning yet. Safe: the model stops where CORE goes on. -/
  | notModelled (mnemonic : String)
  /-- Raised by every step from a state with a register whose fields are a combination that R40 calls unreachable and
  tells a model to treat as refused, and by an instruction that reads such a register. Safe: no reset and no command produces such a register. -/
  | unreachableRegister
  deriving DecidableEq, Repr

/-- The outcome of a command or of a step. -/
abbrev Out := Host.Outcome State Fault Refusal

/-- The parameters of this CORE; `NREG` is the number of registers it holds (R10). -/
def State.params (s : State) : Params := { limbW := s.limbW, cap := s.cap, nreg := s.regs.length }

/-- `STATUS` with every bit 0 (R52). -/
def Status.clear : Status := { lt := false, eq := false, gt := false, un := false, ill := false }

/-- The state after reset of a CORE with parameters `p` (R52): every register NaN, `RES`, `STATUS` and `ci` zero.
The limbs, which R52 leaves unspecified, are 0 (log entry 3). -/
def State.resetWith (p : Params) : State :=
  { limbW := p.limbW, cap := p.cap
    regs := List.replicate p.nreg { len := 0, limb := List.replicate p.cap 0 }
    res := 0, status := Status.clear, ci := 0, draws := 0, host := [] }

/-- The state after reset in the reference configuration (R52, decision D3). -/
def State.reset : State := State.resetWith Params.reference

end Sys2Proof.Machine
end

