-- ==== Sys2Proof/Machine/Values.lean ====
section
/-!
DEFINITION. Values and their encoding in a register: the derived parameters (R9, R11), category (R32), magnitude
(R33), the limb accessor (R34), abstract value (R36), legal encodings (R37, R40), canonical encoding (R38) and
saturation (R39).
-/

namespace Sys2Proof

/-- `base = 2^LIMB_W` (R9). -/
def Params.base (p : Params) : Nat := 2 ^ p.limbW

/-- `MAX = base^CAP - 1` (R9). -/
def Params.maxMag (p : Params) : Nat := p.base ^ p.cap - 1

/-- The number of bits the limbs of a register hold, `CAP * LIMB_W` (R210). -/
def Params.bits (p : Params) : Nat := p.cap * p.limbW

/-- `LEN_W = ceil(log2(CAP + 2))`, the width of a length field (R11), as `floor(log2(CAP + 1)) + 1`. -/
def Params.lenW (p : Params) : Nat := Nat.log2 (p.cap + 1) + 1

/-- The constraints on the parameters: R7, R8 and R10. -/
abbrev Params.Ok (p : Params) : Prop :=
  1 ≤ p.limbW ∧ 1 ≤ p.cap ∧ p.cap ≤ 2 ^ p.w - 2 ∧ 1 ≤ p.nreg ∧ p.nreg ≤ 16

namespace Machine

/-- `bitlen(a)`: the number of bits of `a > 0`, and 0 for 0 (R13). -/
def bitlen (a : Nat) : Nat := if a = 0 then 0 else Nat.log2 a + 1

/-- `category(len, limb)` (R32). -/
def NReg.category (p : Params) (r : NReg) : Category :=
  if r.len = 0 then .nan
  else if r.len = p.cap + 1 then .infinity
  else if r.len = 1 ∧ r.limb.getD 0 0 = 0 then .zero
  else .finite

/-- `limb_at(r, i)`, which reads 0 at every index `>= len` (R34). -/
def NReg.limbAt (r : NReg) (i : Nat) : Nat := if i < r.len then r.limb.getD i 0 else 0

/-- The number whose digits in base `b` are the list's, least significant first: the sum of `limb[i] * b^i` (R33). -/
def ofLimbs (b : Nat) : List Nat → Nat
  | [] => 0
  | l :: ls => l + b * ofLimbs b ls

/-- The magnitude of a register of category Zero or Finite (R33): its limbs below `len`. -/
def NReg.magnitude (p : Params) (r : NReg) : Nat := ofLimbs p.base (r.limb.take r.len)

/-- The abstract value of a register (R36). -/
def NReg.value (p : Params) (r : NReg) : Val :=
  match r.category p with
  | .nan => .nan
  | .infinity => .inf
  | .zero | .finite => .fin (r.magnitude p)

/-- The register's fields are a combination CORE can hold: `CAP` limbs, and a length that R37 allows with used
limbs of `LIMB_W` bits. The others are those of R40. Limbs that R35 leaves unspecified are not looked at. -/
def NReg.legal (p : Params) (r : NReg) : Bool :=
  r.limb.length == p.cap &&
    (r.len == 0 || r.len == p.cap + 1 ||
      (decide (1 ≤ r.len) && decide (r.len ≤ p.cap) && (r.limb.take r.len).all (fun l => decide (l < p.base)) &&
        (r.len == 1 || r.limb.getD (r.len - 1) 0 != 0)))

/-- The value a command reads from a register; none when the register's fields are unreachable (R36, R40). -/
def NReg.value? (p : Params) (r : NReg) : Option Val := if r.legal p then some (r.value p) else none

/-- The `CAP` limbs of a register that uses the lowest `used` of them for the digits of `m`; a write may leave any
value in the others (R35, R38), so they are `junk`, cut to `LIMB_W` bits. -/
def encLimbs (p : Params) (junk : Nat → Nat) (used m : Nat) : List Nat :=
  (List.range p.cap).map fun i => if i < used then m / p.base ^ i % p.base else junk i % p.base

/-- `enc(v)` (R38). -/
def NReg.enc (p : Params) (junk : Nat → Nat) : Val → NReg
  | .nan => { len := 0, limb := encLimbs p junk 0 0 }
  | .inf => { len := p.cap + 1, limb := encLimbs p junk 0 0 }
  | .fin 0 => { len := 1, limb := encLimbs p junk 1 0 }
  | .fin (m + 1) =>
    let len := (bitlen (m + 1) + (p.limbW - 1)) / p.limbW
    { len := len, limb := encLimbs p junk len (m + 1) }

/-- `fin(x)`: saturation to Infinity past `MAX` (R39). -/
def saturate (p : Params) (x : Nat) : Val := if x ≤ p.maxMag then .fin x else .inf

/-- `cls(v)` (R41). -/
def Val.cls : Val → Category
  | .nan => .nan
  | .inf => .infinity
  | .fin 0 => .zero
  | .fin (_ + 1) => .finite

/-- The code CLS delivers (R125): NaN 0, Zero 1, Finite 2, Infinity 3. -/
def Category.code : Category → Nat
  | .nan => 0 | .zero => 1 | .finite => 2 | .infinity => 3

/-- The length counter of a value's encoding (R38, R122). -/
def Val.encLen (p : Params) : Val → Nat
  | .nan => 0
  | .inf => p.cap + 1
  | .fin 0 => 1
  | .fin (m + 1) => (bitlen (m + 1) + (p.limbW - 1)) / p.limbW

/-- Limb `i` of a value as RDLIMB delivers it (R121): 0 at every index for a sentinel, and 0 at `i >= CAP`. -/
def Val.limb (p : Params) (i : Nat) : Val → Nat
  | .nan | .inf => 0
  | .fin m => if i < p.cap then m / p.base ^ i % p.base else 0

/-- The value of a named constant (R114). -/
def constVal (p : Params) : NamedConst → Val
  | .zero => .fin 0
  | .inf => .inf
  | .nan => .nan
  | .max => .fin p.maxMag

end Machine
end Sys2Proof
end

