-- ==== Sys2Proof/Machine/Ops.lean ====
section
/-!
DEFINITION. The named operations on the state: the refusal of unreachable states (R40), register reads and writes, RES,
completion of a command, the illegal-command event (R261), the reset event (R280) and the command port (R270).
-/

namespace Sys2Proof.Machine

/-- `NREG` (R10). -/
def State.nreg (s : State) : Nat := s.regs.length

/-- No register is in an unreachable encoding (R40). -/
def State.reachableRegs (s : State) : Bool := s.regs.all fun r => r.legal s.params

/-- Go on with `k`, unless a register is in an unreachable encoding: R40 has a model treat such a state as refused. -/
def State.ifReachable (s : State) (k : Out) : Out := if s.reachableRegs then k else .refused .unreachableRegister

/-- The value of register `i` as a command reads it (R36); none when there is no such register, or when its fields
are unreachable (R40). -/
def State.regVal? (s : State) (i : RegIdx) : Option Val :=
  match s.regs[i.toNat]? with
  | none => none
  | some r => r.value? s.params

/-- `N[i] <- v` (R38): the canonical encoding of `v`, with fresh free values in the limbs R35 leaves unspecified. -/
def State.writeReg (s : State) (i : RegIdx) (v : Val) : State :=
  { s with regs := s.regs.set i.toNat (NReg.enc s.params (Config.freeLimb s.draws) v), draws := s.draws + 1 }

/-- `RES <- v`: `RES` has `W` bits (R42). -/
def State.writeRes (s : State) (v : Nat) : State := { s with res := v % 2 ^ s.params.w }

/-- A command completes: `ci <- ci + 1` (R48). -/
def State.retire (s : State) : State := { s with ci := s.ci + 1 }

/-- `raise IllegalCommand()` (R261): `STATUS.ILL` becomes 1, nothing else changes but `ci`. CORE saves no other
state and has no return (R265, R266); CLRST clears the bit. -/
def State.raiseIllegal (s : State) : State := { s with status := { s.status with ill := true } }.retire

/-- The reset event (R280): every piece of state takes its value of R52. The command in progress, if any, is
abandoned: it writes nothing and `ci` does not count it. The limbs, which R52 leaves unspecified, are free values. -/
def State.applyReset (s : State) : State :=
  { s with
    regs := s.regs.mapIdx fun i _ => NReg.enc s.params (Config.freeLimb (s.draws + i)) .nan
    res := 0, status := Status.clear, ci := 0, draws := s.draws + s.regs.length }

/-- The command as CORE takes it from the port, which carries `W` bits of `OPND` (R84, R270). -/
def State.accepted (s : State) (c : Command) : Command := { word := c.word, opnd := c.opnd % 2 ^ s.params.w }

end Sys2Proof.Machine
end

