-- ==== Sys2Proof/Machine/Operands.lean ====
section
/-!
DEFINITION. The operand forms: native conversion (R112) and the reading of the registers a command names. A
register field that names no register makes the command illegal (R82), and that is found before any operand is read
(R264). Reading comes before any write, since each form hands the old values to its continuation (R49).
-/

namespace Sys2Proof.Machine

/-- `nat(v, s)` (R112): a negative native operand is Infinity. -/
def nat (p : Params) (v : Nat) (signed : Bool) : Val :=
  if signed && v.testBit (p.w - 1) then .inf else saturate p v

/-- Run `k` if `rd` names a register, else raise IllegalCommand (R82). -/
def State.withDest (s : State) (rd : RegIdx) (k : Out) : Out :=
  if rd.toNat < s.nreg then k else .next s.raiseIllegal

/-- Read register `r` and hand its value to `k` (R113); a register in an unreachable encoding is refused (R40). -/
def State.withReg (s : State) (r : RegIdx) (k : Val → Out) : Out :=
  s.withDest r <|
    match s.regVal? r with
    | some v => k v
    | none => .refused .unreachableRegister

/-- Read the receiver and the right-operand register (R83 with `N = 0`). -/
def State.withRegs (s : State) (rd rs : RegIdx) (k : Val → Val → Out) : Out :=
  s.withDest rd <| s.withDest rs <| s.withReg rd fun x => s.withReg rs fun y => k x y

/-- A command that writes `v` to `rd` and completes. -/
def State.finishReg (s : State) (rd : RegIdx) (v : Val) : Out := .next (s.writeReg rd v).retire

/-- A command that writes `v` to `RES` and completes. -/
def State.finishRes (s : State) (v : Nat) : Out := .next (s.writeRes v).retire

/-- `N[RD] <- f(N[RD], N[RS])`. -/
def State.binaryReg (s : State) (f : Params → Val → Val → Val) (rd rs : RegIdx) : Out :=
  s.withRegs rd rs fun x y => s.finishReg rd (f s.params x y)

/-- `N[RD] <- f(N[RD], nat(OPND, S))` (R83 with `N = 1`). -/
def State.binaryNative (s : State) (f : Params → Val → Val → Val) (rd : RegIdx) (signed : Bool) (v : Nat) : Out :=
  s.withReg rd fun x => s.finishReg rd (f s.params x (nat s.params v signed))

/-- `N[RD] <- f(N[RD])`. -/
def State.unary (s : State) (f : Params → Val → Val) (rd : RegIdx) : Out :=
  s.withReg rd fun x => s.finishReg rd (f s.params x)

/-- `RES <- f(N[RD])`. -/
def State.readout (s : State) (f : Params → Val → Nat) (rd : RegIdx) : Out :=
  s.withReg rd fun x => s.finishRes (f s.params x)

end Sys2Proof.Machine
end

