-- ==== Sys2Proof/Machine/Flags.lean ====
section
/-!
DEFINITION. `STATUS` (R43, R44): the word the host reads, the comparison outcome (R231) and how it is written
(R232), the relational predicates the host reads from it (R234), and CORE's outputs (R42, R43, R270).
-/

namespace Sys2Proof.Machine

/-- `STATUS` as the host reads it: `LT` bit 0, `EQ` bit 1, `GT` bit 2, `UN` bit 3, `ILL` bit 4, bits 31:5
hardwired 0 (R44). -/
def Status.word (st : Status) : BitVec 32 :=
  (0 : BitVec 27) ++ BitVec.ofBool st.ill ++ BitVec.ofBool st.un ++ BitVec.ofBool st.gt ++ BitVec.ofBool st.eq ++
    BitVec.ofBool st.lt

/-- The outcome of a comparison (R231); `un` is unordered. -/
inductive CmpOutcome where
  | lt | eq | gt | un
  deriving DecidableEq, Repr

/-- `STATUS.CMP <- onehot(o)`: all four bits are written, `ILL` is kept (R232). -/
def Status.setCmp (st : Status) (o : CmpOutcome) : Status :=
  { st with lt := o == .lt, eq := o == .eq, gt := o == .gt, un := o == .un }

/-- The legal values of `STATUS.CMP`: `0000` or one of the four one-hot codes (R44). -/
def Status.cmpLegal (st : Status) : Bool := st.lt.toNat + st.eq.toNat + st.gt.toNat + st.un.toNat ≤ 1

/-- The six relational predicates (R234). -/
inductive Relation where
  | eq | ne | lt | le | gt | ge
  deriving DecidableEq, Repr

/-- A predicate as the host reads it from `STATUS.CMP` (R234). -/
def Status.holds (st : Status) : Relation → Bool
  | .eq => st.eq
  | .ne => st.lt || st.gt || st.un
  | .lt => st.lt
  | .le => st.lt || st.eq
  | .gt => st.gt
  | .ge => st.gt || st.eq

/-- A comparing command: `STATUS.CMP` takes the outcome and the command completes. -/
def State.finishCmp (s : State) (o : CmpOutcome) : Out := .next { s with status := s.status.setCmp o }.retire

/-- CORE's outputs. -/
structure Outputs where
  res    : Nat
  status : BitVec 32
  ready  : Bool
  deriving DecidableEq, Repr

/-- What the host reads at a command boundary (R42, R43). No command is in progress there, so `ready` is up (R270). -/
def State.outputs (s : State) : Outputs := { res := s.res, status := s.status.word, ready := true }

end Sys2Proof.Machine
end

