-- ==== Sys2Proof/Machine/AddSub.lean ====
section
/-!
DEFINITION. The multi-limb adder and subtractor (41_add_sub.md): ADD, ADD.N, SUB, SUB.N.
-/

namespace Sys2Proof.Machine

/-- `add(x, y)` (R141). -/
def addVal (p : Params) : Val → Val → Val
  | .nan, _ | _, .nan => .nan
  | .inf, _ | _, .inf => .inf
  | .fin a, .fin b => saturate p (a + b)

/-- `sub(x, y)` (R144): a negative result saturates to Infinity, and Infinity minus Infinity is NaN. -/
def subVal : Val → Val → Val
  | .nan, _ | _, .nan => .nan
  | .inf, .inf => .nan
  | .inf, _ | _, .inf => .inf
  | .fin a, .fin b => if a < b then .inf else .fin (a - b)

/-- ADD (R141). -/
def execAdd (rd rs : RegIdx) (s : State) : Out := s.binaryReg addVal rd rs

/-- ADD.N (R142). -/
def execAddN (rd : RegIdx) (signed : Bool) (v : Nat) (s : State) : Out := s.binaryNative addVal rd signed v

/-- SUB (R144). -/
def execSub (rd rs : RegIdx) (s : State) : Out := s.binaryReg (fun _ => subVal) rd rs

/-- SUB.N (R145). -/
def execSubN (rd : RegIdx) (signed : Bool) (v : Nat) (s : State) : Out := s.binaryNative (fun _ => subVal) rd signed v

end Sys2Proof.Machine
end

