-- ==== Sys2Proof/Machine/Bitwise.lean ====
section
/-!
DEFINITION. The bitwise unit (43_bitwise.md): AND, AND.N, OR, OR.N, XOR, XOR.N, NOT.
-/

namespace Sys2Proof.Machine

/-- `bitw(op, x, y)` (R191): Infinity absorbs in all three operations (conflicts C3 and C6). -/
def bitwVal (op : Nat → Nat → Nat) : Val → Val → Val
  | .nan, _ | _, .nan => .nan
  | .inf, _ | _, .inf => .inf
  | .fin a, .fin b => .fin (op a b)

/-- NOT's complement within capacity (R198). -/
def notVal (p : Params) : Val → Val
  | .nan => .nan
  | .inf => .inf
  | .fin a => .fin (p.maxMag - a)

/-- AND (R192). -/
def execAnd (rd rs : RegIdx) (s : State) : Out := s.binaryReg (fun _ => bitwVal Nat.land) rd rs

/-- AND.N (R193). -/
def execAndN (rd : RegIdx) (signed : Bool) (v : Nat) (s : State) : Out := s.binaryNative (fun _ => bitwVal Nat.land) rd signed v

/-- OR (R194). -/
def execOr (rd rs : RegIdx) (s : State) : Out := s.binaryReg (fun _ => bitwVal Nat.lor) rd rs

/-- OR.N (R195). -/
def execOrN (rd : RegIdx) (signed : Bool) (v : Nat) (s : State) : Out := s.binaryNative (fun _ => bitwVal Nat.lor) rd signed v

/-- XOR (R196). -/
def execXor (rd rs : RegIdx) (s : State) : Out := s.binaryReg (fun _ => bitwVal Nat.xor) rd rs

/-- XOR.N (R197). -/
def execXorN (rd : RegIdx) (signed : Bool) (v : Nat) (s : State) : Out := s.binaryNative (fun _ => bitwVal Nat.xor) rd signed v

/-- NOT (R198). -/
def execNot (rd : RegIdx) (s : State) : Out := s.unary notVal rd

end Sys2Proof.Machine
end

