-- ==== Sys2Proof/Machine/Compare.lean ====
section
/-!
DEFINITION. The comparator (45_compare.md): CMP, CMP.N.
-/

namespace Sys2Proof.Machine

/-- `cmp(x, y)` (R231): unordered with NaN, and with Infinity against a finite value; Infinity equals Infinity. -/
def cmpVal : Val → Val → CmpOutcome
  | .nan, _ | _, .nan => .un
  | .inf, .inf => .eq
  | .inf, _ | _, .inf => .un
  | .fin a, .fin b => if a < b then .lt else if a = b then .eq else .gt

/-- CMP (R232). -/
def execCmp (rd rs : RegIdx) (s : State) : Out := s.withRegs rd rs fun x y => s.finishCmp (cmpVal x y)

/-- CMP.N (R233). -/
def execCmpN (rd : RegIdx) (signed : Bool) (v : Nat) (s : State) : Out :=
  s.withReg rd fun x => s.finishCmp (cmpVal x (nat s.params v signed))

end Sys2Proof.Machine
end

