-- ==== Sys2Proof/Machine/Control.lean ====
section
/-!
DEFINITION. The control commands (46_control.md): NOP, CLRST.
-/

namespace Sys2Proof.Machine

/-- NOP (R250): only `ci` advances. -/
def execNop (s : State) : Out := .next s.retire

/-- CLRST (R252): `STATUS <- 0x0000_0000`. -/
def execClrst (s : State) : Out := .next { s with status := Status.clear }.retire

end Sys2Proof.Machine
end

