-- ==== Sys2Proof/Machine/MulDiv.lean ====
section
/-!
DEFINITION. The schoolbook multiplier and the long-division engine (42_mul_div.md): MUL, MUL.N, DIV, DIV.N, MOD, MOD.N.
-/

namespace Sys2Proof.Machine

/-- `mul(x, y)` (R161): Zero times Infinity is NaN in either order. -/
def mulVal (p : Params) : Val → Val → Val
  | .nan, _ | _, .nan => .nan
  | .fin 0, .inf | .inf, .fin 0 => .nan
  | .inf, _ | _, .inf => .inf
  | .fin a, .fin b => saturate p (a * b)

/-- `div(x, y)` (R163, R165): the floor quotient; a divisor Zero gives NaN before any other finite rule. -/
def divVal : Val → Val → Val
  | .nan, _ | _, .nan => .nan
  | _, .fin 0 => .nan
  | .inf, .inf => .nan
  | _, .inf => .fin 0
  | .inf, _ => .inf
  | .fin a, .fin b => .fin (a / b)

/-- `mod(x, y)` (R163, R168): the remainder; a finite dividend is unchanged by a divisor Infinity (decision D13). -/
def modVal : Val → Val → Val
  | .nan, _ | _, .nan => .nan
  | _, .fin 0 => .nan
  | .inf, _ => .nan
  | x, .inf => x
  | .fin a, .fin b => .fin (a % b)

/-- MUL (R161). -/
def execMul (rd rs : RegIdx) (s : State) : Out := s.binaryReg mulVal rd rs

/-- MUL.N (R162). -/
def execMulN (rd : RegIdx) (signed : Bool) (v : Nat) (s : State) : Out := s.binaryNative mulVal rd signed v

/-- DIV (R165). -/
def execDiv (rd rs : RegIdx) (s : State) : Out := s.binaryReg (fun _ => divVal) rd rs

/-- DIV.N (R166). -/
def execDivN (rd : RegIdx) (signed : Bool) (v : Nat) (s : State) : Out := s.binaryNative (fun _ => divVal) rd signed v

/-- MOD (R168). -/
def execMod (rd rs : RegIdx) (s : State) : Out := s.binaryReg (fun _ => modVal) rd rs

/-- MOD.N (R169). -/
def execModN (rd : RegIdx) (signed : Bool) (v : Nat) (s : State) : Out := s.binaryNative (fun _ => modVal) rd signed v

end Sys2Proof.Machine
end

