-- ==== Sys2Proof/Machine/Shift.lean ====
section
/-!
DEFINITION. The barrel shifter (44_shift.md): SHL, SHR. The distance goes up to `2^W - 1` and is never reduced, so the case
of a distance of at least `CAP * LIMB_W`, where the rules give a fixed result, is decided before any power is formed.
-/

namespace Sys2Proof.Machine

/-- SHL's value (R210): `fin(a * 2^d)`, and Infinity for a non-zero `a` shifted by the whole capacity or more. -/
def shlVal (d : Nat) (p : Params) : Val → Val
  | .nan => .nan
  | .inf => .inf
  | .fin 0 => .fin 0
  | .fin (a + 1) => if p.bits ≤ d then .inf else saturate p ((a + 1) * 2 ^ d)

/-- SHR's value (R211): `Fin(a div 2^d)`, which is Zero when the distance is the whole capacity or more. -/
def shrVal (d : Nat) (p : Params) : Val → Val
  | .nan => .nan
  | .inf => .inf
  | .fin a => .fin (if p.bits ≤ d then 0 else a / 2 ^ d)

/-- SHL (R210). -/
def execShl (rd : RegIdx) (dist : Nat) (s : State) : Out := s.unary (shlVal dist) rd

/-- SHR (R211). -/
def execShr (rd : RegIdx) (dist : Nat) (s : State) : Out := s.unary (shrVal dist) rd

end Sys2Proof.Machine
end

