-- ==== Sys2Proof/Machine/Storage.lean ====
section
/-!
DEFINITION. The limb store and state classifier (40_storage_classifier.md): MOV, MOV.N, SETC, RDLIMB, RDLEN, CLS.
-/

namespace Sys2Proof.Machine

/-- MOV (R115): copy the abstract value of `N[RS]`. -/
def execMov (rd rs : RegIdx) (s : State) : Out := s.withDest rd (s.withReg rs fun y => s.finishReg rd y)

/-- MOV.N (R116): construct from the native operand. -/
def execMovN (rd : RegIdx) (signed : Bool) (v : Nat) (s : State) : Out :=
  s.withDest rd (s.finishReg rd (nat s.params v signed))

/-- SETC (R117): set a named constant. -/
def execSetc (rd : RegIdx) (k : NamedConst) (s : State) : Out :=
  s.withDest rd (s.finishReg rd (constVal s.params k))

/-- RDLIMB (R121): one limb through the accessor, zero-extended into `RES`. -/
def execRdlimb (rd : RegIdx) (index : Nat) (s : State) : Out := s.readout (fun p v => v.limb p index) rd

/-- RDLEN (R122): the length counter into `RES`. -/
def execRdlen (rd : RegIdx) (s : State) : Out := s.readout (fun p v => v.encLen p) rd

/-- CLS (R125): the category's code into `RES`. -/
def execCls (rd : RegIdx) (s : State) : Out := s.readout (fun _ v => v.cls.code) rd

end Sys2Proof.Machine
end

