-- ==== Sys2Proof/Machine/Dispatch.lean ====
section
/-!
DEFINITION. The one dispatch of CORE: each instruction of the opcode table calls its meaning.
-/

namespace Sys2Proof.Machine

/-- The outcome of executing a decoded command (R290). -/
def exec (i : Instr) (s : State) : Host.Outcome State Fault Refusal :=
  match i with
  | .nop => Sys2Proof.Machine.execNop s
  | .add rd rs => Sys2Proof.Machine.execAdd rd rs s
  | .addN rd sg v => Sys2Proof.Machine.execAddN rd sg v s
  | .sub rd rs => Sys2Proof.Machine.execSub rd rs s
  | .subN rd sg v => Sys2Proof.Machine.execSubN rd sg v s
  | .mul rd rs => Sys2Proof.Machine.execMul rd rs s
  | .mulN rd sg v => Sys2Proof.Machine.execMulN rd sg v s
  | .div rd rs => Sys2Proof.Machine.execDiv rd rs s
  | .divN rd sg v => Sys2Proof.Machine.execDivN rd sg v s
  | .mod rd rs => Sys2Proof.Machine.execMod rd rs s
  | .modN rd sg v => Sys2Proof.Machine.execModN rd sg v s
  | .and rd rs => Sys2Proof.Machine.execAnd rd rs s
  | .andN rd sg v => Sys2Proof.Machine.execAndN rd sg v s
  | .or rd rs => Sys2Proof.Machine.execOr rd rs s
  | .orN rd sg v => Sys2Proof.Machine.execOrN rd sg v s
  | .xor rd rs => Sys2Proof.Machine.execXor rd rs s
  | .xorN rd sg v => Sys2Proof.Machine.execXorN rd sg v s
  | .not rd => Sys2Proof.Machine.execNot rd s
  | .shl rd d => Sys2Proof.Machine.execShl rd d s
  | .shr rd d => Sys2Proof.Machine.execShr rd d s
  | .cmp rd rs => Sys2Proof.Machine.execCmp rd rs s
  | .cmpN rd sg v => Sys2Proof.Machine.execCmpN rd sg v s
  | .cls rd => Sys2Proof.Machine.execCls rd s
  | .mov rd rs => Sys2Proof.Machine.execMov rd rs s
  | .movN rd sg v => Sys2Proof.Machine.execMovN rd sg v s
  | .setc rd k => Sys2Proof.Machine.execSetc rd k s
  | .rdlimb rd n => Sys2Proof.Machine.execRdlimb rd n s
  | .rdlen rd => Sys2Proof.Machine.execRdlen rd s
  | .clrst => Sys2Proof.Machine.execClrst s

end Sys2Proof.Machine
end

