-- ==== Sys2Proof/Machine/Step.lean ====
section
/-!
DEFINITION. The step of CORE (R290): one host input is taken and processed whole (R64).
-/

namespace Sys2Proof.Machine

/-- One step. A state with a register in an unreachable encoding is refused, whatever the host does (R40). With
nothing from the host, CORE idles and keeps all state (R268, R272). A command is decoded, and then either executed or
recorded as illegal (R290). A reset makes every piece of state its reset value (R280). -/
def step (s : State) : Host.Outcome State Fault Refusal :=
  s.ifReachable <|
  match s.host with
  | [] => .next s
  | .reset _ :: rest => .next (State.applyReset { s with host := rest })
  | .issue c :: rest =>
    match decode s.nreg (s.accepted c) with
    | .ok i => exec i { s with host := rest }
    | .error _ => .next (State.raiseIllegal { s with host := rest })

/-- `s` with the table word `w` as the next command the host issues (log entry 5). -/
def State.withFetchWord (s : State) (nbits w : Nat) : State :=
  { s with host := .issue (tableCommand s.params nbits w) :: s.host }

end Sys2Proof.Machine
end

