-- ==== Sys2Proof/Laws/State.lean ====
section
/-!
SUPPORT. One lemma per field per update of the state, true by unfolding, so that no proof unfolds a record update.
-/

namespace Sys2Proof.Machine

/-! ### writeReg -/

@[simp] theorem State.writeReg_limbW (s : State) (i : RegIdx) (v : Val) : (s.writeReg i v).limbW = s.limbW := rfl
@[simp] theorem State.writeReg_cap (s : State) (i : RegIdx) (v : Val) : (s.writeReg i v).cap = s.cap := rfl
@[simp] theorem State.writeReg_regs (s : State) (i : RegIdx) (v : Val) : (s.writeReg i v).regs = s.regs.set i.toNat (NReg.enc s.params (Config.freeLimb s.draws) v) := rfl
@[simp] theorem State.writeReg_res (s : State) (i : RegIdx) (v : Val) : (s.writeReg i v).res = s.res := rfl
@[simp] theorem State.writeReg_status (s : State) (i : RegIdx) (v : Val) : (s.writeReg i v).status = s.status := rfl
@[simp] theorem State.writeReg_ci (s : State) (i : RegIdx) (v : Val) : (s.writeReg i v).ci = s.ci := rfl
@[simp] theorem State.writeReg_draws (s : State) (i : RegIdx) (v : Val) : (s.writeReg i v).draws = s.draws + 1 := rfl
@[simp] theorem State.writeReg_host (s : State) (i : RegIdx) (v : Val) : (s.writeReg i v).host = s.host := rfl
@[simp] theorem State.writeReg_params (s : State) (i : RegIdx) (v : Val) : (s.writeReg i v).params = s.params := by
  simp [State.params, State.writeReg]

/-! ### writeRes -/

@[simp] theorem State.writeRes_limbW (s : State) (v : Nat) : (s.writeRes v).limbW = s.limbW := rfl
@[simp] theorem State.writeRes_cap (s : State) (v : Nat) : (s.writeRes v).cap = s.cap := rfl
@[simp] theorem State.writeRes_regs (s : State) (v : Nat) : (s.writeRes v).regs = s.regs := rfl
@[simp] theorem State.writeRes_res (s : State) (v : Nat) : (s.writeRes v).res = v % 2 ^ s.params.w := rfl
@[simp] theorem State.writeRes_status (s : State) (v : Nat) : (s.writeRes v).status = s.status := rfl
@[simp] theorem State.writeRes_ci (s : State) (v : Nat) : (s.writeRes v).ci = s.ci := rfl
@[simp] theorem State.writeRes_draws (s : State) (v : Nat) : (s.writeRes v).draws = s.draws := rfl
@[simp] theorem State.writeRes_host (s : State) (v : Nat) : (s.writeRes v).host = s.host := rfl
@[simp] theorem State.writeRes_params (s : State) (v : Nat) : (s.writeRes v).params = s.params := rfl

/-! ### retire -/

@[simp] theorem State.retire_limbW (s : State) : (s.retire).limbW = s.limbW := rfl
@[simp] theorem State.retire_cap (s : State) : (s.retire).cap = s.cap := rfl
@[simp] theorem State.retire_regs (s : State) : (s.retire).regs = s.regs := rfl
@[simp] theorem State.retire_res (s : State) : (s.retire).res = s.res := rfl
@[simp] theorem State.retire_status (s : State) : (s.retire).status = s.status := rfl
@[simp] theorem State.retire_ci (s : State) : (s.retire).ci = s.ci + 1 := rfl
@[simp] theorem State.retire_draws (s : State) : (s.retire).draws = s.draws := rfl
@[simp] theorem State.retire_host (s : State) : (s.retire).host = s.host := rfl
@[simp] theorem State.retire_params (s : State) : (s.retire).params = s.params := rfl

/-! ### raiseIllegal -/

@[simp] theorem State.raiseIllegal_limbW (s : State) : (s.raiseIllegal).limbW = s.limbW := rfl
@[simp] theorem State.raiseIllegal_cap (s : State) : (s.raiseIllegal).cap = s.cap := rfl
@[simp] theorem State.raiseIllegal_regs (s : State) : (s.raiseIllegal).regs = s.regs := rfl
@[simp] theorem State.raiseIllegal_res (s : State) : (s.raiseIllegal).res = s.res := rfl
@[simp] theorem State.raiseIllegal_status (s : State) : (s.raiseIllegal).status = { s.status with ill := true } := rfl
@[simp] theorem State.raiseIllegal_ci (s : State) : (s.raiseIllegal).ci = s.ci + 1 := rfl
@[simp] theorem State.raiseIllegal_draws (s : State) : (s.raiseIllegal).draws = s.draws := rfl
@[simp] theorem State.raiseIllegal_host (s : State) : (s.raiseIllegal).host = s.host := rfl
@[simp] theorem State.raiseIllegal_params (s : State) : (s.raiseIllegal).params = s.params := rfl

/-! ### applyReset -/

@[simp] theorem State.applyReset_limbW (s : State) : (s.applyReset).limbW = s.limbW := rfl
@[simp] theorem State.applyReset_cap (s : State) : (s.applyReset).cap = s.cap := rfl
@[simp] theorem State.applyReset_regs (s : State) : (s.applyReset).regs = s.regs.mapIdx fun i _ => NReg.enc s.params (Config.freeLimb (s.draws + i)) .nan := rfl
@[simp] theorem State.applyReset_res (s : State) : (s.applyReset).res = 0 := rfl
@[simp] theorem State.applyReset_status (s : State) : (s.applyReset).status = Status.clear := rfl
@[simp] theorem State.applyReset_ci (s : State) : (s.applyReset).ci = 0 := rfl
@[simp] theorem State.applyReset_draws (s : State) : (s.applyReset).draws = s.draws + s.regs.length := rfl
@[simp] theorem State.applyReset_host (s : State) : (s.applyReset).host = s.host := rfl
@[simp] theorem State.applyReset_params (s : State) : (s.applyReset).params = s.params := by
  simp [State.params, State.applyReset]

/-! ### Status -/

@[simp] theorem Status.setCmp_lt (st : Status) (o : CmpOutcome) : (st.setCmp o).lt = (o == .lt) := rfl
@[simp] theorem Status.setCmp_eq (st : Status) (o : CmpOutcome) : (st.setCmp o).eq = (o == .eq) := rfl
@[simp] theorem Status.setCmp_gt (st : Status) (o : CmpOutcome) : (st.setCmp o).gt = (o == .gt) := rfl
@[simp] theorem Status.setCmp_un (st : Status) (o : CmpOutcome) : (st.setCmp o).un = (o == .un) := rfl
@[simp] theorem Status.setCmp_ill (st : Status) (o : CmpOutcome) : (st.setCmp o).ill = st.ill := rfl

/-! ### Taking an input from the host leaves the registers and the parameters -/

@[simp] theorem State.withHost_params (s : State) (h : List HostInput) : State.params { s with host := h } = s.params := rfl
@[simp] theorem State.withHost_regVal? (s : State) (h : List HostInput) (i : RegIdx) :
    State.regVal? { s with host := h } i = s.regVal? i := rfl
@[simp] theorem State.withStatus_params (s : State) (st : Status) : State.params { s with status := st } = s.params := rfl
@[simp] theorem State.params_limbW (s : State) : s.params.limbW = s.limbW := rfl
@[simp] theorem State.params_cap (s : State) : s.params.cap = s.cap := rfl
@[simp] theorem State.params_nreg (s : State) : s.params.nreg = s.regs.length := rfl
@[simp] theorem State.nreg_eq (s : State) : s.nreg = s.regs.length := rfl

end Sys2Proof.Machine
end

