-- ==== Sys2Proof/Machine/Asm.lean ====
section
/-!
DEFINITION. The assembler and disassembler of R92 and the pseudo-instructions of R93. They are tools of the host, not
part of CORE: no step uses them. The details of the text that R92 leaves open are the model's choice (log entry 8).
-/

namespace Sys2Proof.Machine

/-- The class B operations (R86). -/
inductive BinOp where
  | add | sub | mul | div | mod | and | or | xor | cmp | mov
  deriving DecidableEq, Repr

/-- The class U operations that read `OPND` (R84). -/
inductive UnaryOpndOp where
  | shl | shr | rdlimb
  deriving DecidableEq, Repr

/-- The class U operations that do not. -/
inductive UnaryOp where
  | not | cls | rdlen
  deriving DecidableEq, Repr

/-- One line of assembly: the forms of R92 and the pseudo-instructions of R93. Register numbers and values are as
written, before any range check. -/
inductive AsmLine where
  | reg (op : BinOp) (d s : Nat)
  | native (op : BinOp) (d : Nat) (v : Int)
  | nativeSigned (op : BinOp) (d : Nat) (v : Int)
  | unaryOpnd (op : UnaryOpndOp) (d : Nat) (v : Int)
  | unary (op : UnaryOp) (d : Nat)
  | setc (d : Nat) (k : NamedConst)
  | nop
  | clrst
  | li (d : Nat) (v : Int)
  | clr (d : Nat)
  | inc (d : Nat)
  | dec (d : Nat)
  | tst (d : Nat)
  deriving DecidableEq, Repr

/-- The register form of an operation. -/
def BinOp.regInstr : BinOp → RegIdx → RegIdx → Instr
  | .add => .add | .sub => .sub | .mul => .mul | .div => .div | .mod => .mod
  | .and => .and | .or => .or | .xor => .xor | .cmp => .cmp | .mov => .mov

/-- The native form of an operation. -/
def BinOp.nativeInstr : BinOp → RegIdx → Bool → Nat → Instr
  | .add => .addN | .sub => .subN | .mul => .mulN | .div => .divN | .mod => .modN
  | .and => .andN | .or => .orN | .xor => .xorN | .cmp => .cmpN | .mov => .movN

/-- The command of an operation that reads `OPND`. -/
def UnaryOpndOp.instr : UnaryOpndOp → RegIdx → Nat → Instr
  | .shl => .shl | .shr => .shr | .rdlimb => .rdlimb

/-- The command of an operation that does not. -/
def UnaryOp.instr : UnaryOp → RegIdx → Instr
  | .not => .not | .cls => .cls | .rdlen => .rdlen

/-- The register number `d` as a field, if there is such a register: the assembler "never emits an illegal word"
(R92), so it rejects `d >= NREG` (DEDUCED, log entry 8). -/
def asmReg (p : Params) (d : Nat) : Option RegIdx :=
  if d < p.nreg ∧ d < 16 then some (BitVec.ofNat 4 d) else none

/-- `v` as an unsigned `OPND`: `0 <= v <= 2^W - 1`. -/
def asmUnsigned (p : Params) (v : Int) : Option Nat := if 0 ≤ v ∧ v < 2 ^ p.w then some v.toNat else none

/-- `v` as a signed `OPND`: `-2^(W-1) <= v <= 2^(W-1) - 1`, and `OPND = v mod 2^W`. -/
def asmSigned (p : Params) (v : Int) : Option Nat :=
  if -(2 ^ (p.w - 1)) ≤ v ∧ v < 2 ^ (p.w - 1) then some (v % 2 ^ p.w).toNat else none

/-- The expansion of a pseudo-instruction to one command line (R93); other lines stay. -/
def AsmLine.expand : AsmLine → AsmLine
  | .li d v => if v < 0 then .nativeSigned .mov d v else .native .mov d v
  | .clr d => .setc d .zero
  | .inc d => .native .add d 1
  | .dec d => .native .sub d 1
  | .tst d => .native .cmp d 0
  | l => l

/-- The instruction of a line (R92); none where the assembler rejects it. -/
def AsmLine.instr? (p : Params) (l : AsmLine) : Option Instr :=
  match l.expand with
  | .reg op d s => (asmReg p d).bind fun rd => (asmReg p s).map (op.regInstr rd)
  | .native op d v => (asmReg p d).bind fun rd => (asmUnsigned p v).map (op.nativeInstr rd false)
  | .nativeSigned op d v => (asmReg p d).bind fun rd => (asmSigned p v).map (op.nativeInstr rd true)
  | .unaryOpnd op d v => (asmReg p d).bind fun rd => (asmUnsigned p v).map (op.instr rd)
  | .unary op d => (asmReg p d).map op.instr
  | .setc d k => (asmReg p d).map fun rd => .setc rd k
  | .nop => some .nop
  | .clrst => some .clrst
  | .li _ _ | .clr _ | .inc _ | .dec _ | .tst _ => none

/-- The command the assembler emits for a line. -/
def assemble (p : Params) (l : AsmLine) : Option Command := (l.instr? p).map encode

/-! ### Text -/

/-- The mnemonic of a class B operation. -/
def BinOp.name : BinOp → String
  | .add => "ADD" | .sub => "SUB" | .mul => "MUL" | .div => "DIV" | .mod => "MOD"
  | .and => "AND" | .or => "OR" | .xor => "XOR" | .cmp => "CMP" | .mov => "MOV"

/-- All class B operations. -/
def BinOp.all : List BinOp := [.add, .sub, .mul, .div, .mod, .and, .or, .xor, .cmp, .mov]

/-- The tokens of a line: a comma is a token of its own, blanks separate. DESIGN CHOICE (log entry 8): any number of
blanks, none needed beside a comma; letter case matters in the tokens. -/
def asmTokens : List Char → List Char → List String
  | [], [] => []
  | [], acc => [String.ofList acc.reverse]
  | c :: cs, acc =>
    let flushed := if acc.isEmpty then [] else [String.ofList acc.reverse]
    if c = ' ' then flushed ++ asmTokens cs []
    else if c = ',' then flushed ++ "," :: asmTokens cs []
    else asmTokens cs (c :: acc)

/-- The value of a digit below `b`. -/
def digitValue (b : Nat) (c : Char) : Option Nat :=
  let v := if '0' ≤ c ∧ c ≤ '9' then c.toNat - '0'.toNat
    else if 'a' ≤ c ∧ c ≤ 'f' then c.toNat - 'a'.toNat + 10
    else if 'A' ≤ c ∧ c ≤ 'F' then c.toNat - 'A'.toNat + 10
    else b
  if v < b then some v else none

/-- The number that digits in base `b` write; an underscore carries no meaning (R12). DESIGN CHOICE (log entry 8):
underscores stand in hexadecimal numbers only and anywhere after `0x`, and leading zeros are accepted. -/
def digitsValue (b : Nat) : List Char → Nat → Option Nat
  | [], acc => some acc
  | c :: cs, acc =>
    if c = '_' ∧ b = 16 then digitsValue b cs acc
    else (digitValue b c).bind fun v => digitsValue b cs (acc * b + v)

/-- A decimal or `0x` hexadecimal natural number (R92). DESIGN CHOICE (log entry 8): hexadecimal digits in either case,
and no `0X`. -/
def asmNat : List Char → Option Nat
  | '0' :: 'x' :: c :: cs => digitsValue 16 (c :: cs) 0
  | c :: cs => digitsValue 10 (c :: cs) 0
  | [] => none

/-- A native operand `#v` (R92). DESIGN CHOICE (log entry 8): a negative `v` has its `-` after the `#`, in either base. -/
def asmValue (t : String) : Option Int :=
  match t.toList with
  | '#' :: '-' :: cs => (asmNat cs).map fun n => -(n : Int)
  | '#' :: cs => (asmNat cs).map fun n => (n : Int)
  | _ => none

/-- A register `N0` to `N15` (R92). DESIGN CHOICE (log entry 8): leading zeros are accepted, so `N01` is `N1`. -/
def asmRegName (t : String) : Option Nat :=
  match t.toList with
  | 'N' :: c :: cs => (digitsValue 10 (c :: cs) 0).bind fun d => if d < 16 then some d else none
  | _ => none

/-- The name of a constant (R92). -/
def asmConst (t : String) : Option NamedConst :=
  if t = "ZERO" then some .zero else if t = "INF" then some .inf
  else if t = "NAN" then some .nan else if t = "MAX" then some .max else none

/-- A line of source text, by its tokens (R92, R93). -/
def parseTokens : List String → Option AsmLine
  | ["NOP"] => some .nop
  | ["CLRST"] => some .clrst
  | [m, a] =>
    (asmRegName a).bind fun d =>
      if m = "NOT" then some (.unary .not d) else if m = "CLS" then some (.unary .cls d)
      else if m = "RDLEN" then some (.unary .rdlen d) else if m = "CLR" then some (.clr d)
      else if m = "INC" then some (.inc d) else if m = "DEC" then some (.dec d)
      else if m = "TST" then some (.tst d) else none
  | [m, a, ",", b] =>
    (asmRegName a).bind fun d =>
      if m = "SETC" then (asmConst b).map (.setc d)
      else if m = "SHL" then (asmValue b).map (.unaryOpnd .shl d)
      else if m = "SHR" then (asmValue b).map (.unaryOpnd .shr d)
      else if m = "RDLIMB" then (asmValue b).map (.unaryOpnd .rdlimb d)
      else if m = "LI" then (asmValue b).map (.li d)
      else
        match BinOp.all.find? fun op => m == op.name || m == op.name ++ ".N" || m == op.name ++ ".NS" with
        | none => none
        | some op =>
          if m = op.name then (asmRegName b).map (.reg op d)
          else if m = op.name ++ ".N" then (asmValue b).map (.native op d)
          else (asmValue b).map (.nativeSigned op d)
  | _ => none

/-- A line of source text (R92, R93). -/
def parseLine (t : String) : Option AsmLine := parseTokens (asmTokens t.toList [])

/-- A register as written (R92). -/
def regText (r : RegIdx) : String := "N" ++ toString r.toNat

/-- The eight hexadecimal digits of a word. DESIGN CHOICE (log entry 8): in capitals. -/
def wordText (w : Word) : String :=
  let ds := Nat.toDigits 16 w.toNat
  "0x" ++ (String.ofList (List.replicate (8 - ds.length) '0' ++ ds)).toUpper

/-- The operands of a native form; a signed operand is read as two's complement (R85). DESIGN CHOICE (log entry 8): it
is printed in decimal. -/
def nativeText (p : Params) (rd : RegIdx) (signed : Bool) (v : Nat) : String :=
  let n : Int := if signed ∧ 2 ^ (p.w - 1) ≤ v then (v : Int) - 2 ^ p.w else v
  (if signed then "S " else " ") ++ regText rd ++ ", #" ++ toString n

/-- An instruction as the disassembler prints it: the assembler's own syntax (R92). DESIGN CHOICE (log entry 8): values
in decimal, one blank after the mnemonic and after a comma. -/
def instrText (p : Params) (i : Instr) : String :=
  match i with
  | .nop | .clrst => i.mnemonic
  | .add rd rs | .sub rd rs | .mul rd rs | .div rd rs | .mod rd rs | .and rd rs | .or rd rs | .xor rd rs
  | .cmp rd rs | .mov rd rs => i.mnemonic ++ " " ++ regText rd ++ ", " ++ regText rs
  | .addN rd s v | .subN rd s v | .mulN rd s v | .divN rd s v | .modN rd s v | .andN rd s v | .orN rd s v
  | .xorN rd s v | .cmpN rd s v | .movN rd s v => i.mnemonic ++ nativeText p rd s v
  | .not rd | .cls rd | .rdlen rd => i.mnemonic ++ " " ++ regText rd
  | .shl rd v | .shr rd v | .rdlimb rd v => i.mnemonic ++ " " ++ regText rd ++ ", #" ++ toString v
  | .setc rd k =>
    i.mnemonic ++ " " ++ regText rd ++ ", " ++
      (match k with | .zero => "ZERO" | .inf => "INF" | .nan => "NAN" | .max => "MAX")

/-- An illegal word as the disassembler prints it, followed by the `OPND` value if one is known (R92). DESIGN CHOICE (log
entry 8): R92 gives neither the base nor the layout of that value, and it is printed in decimal after one blank. -/
def illegalText (w : Word) (opnd : Option Nat) : String :=
  ".word " ++ wordText w ++ (match opnd with | none => "" | some v => " " ++ toString v)

/-- A command as the disassembler prints it (R92). -/
def disassemble (p : Params) (c : Command) : String :=
  match decode p.nreg c with
  | .ok i => instrText p i
  | .error _ => illegalText c.word (some c.opnd)

end Sys2Proof.Machine
end

