-- ==== Sys2Proof/Machine/Kernels.lean ====
section
/-!
DEFINITION. The limb-level units the spec describes: normalization (R111), ripple adder (R140) and subtractor (R143),
schoolbook multiplier (R160), long-division engine (R163), single-limb divider (R164), bitwise unit (R190), complement
(R198), barrel shifter (R212) and comparator (R230). "Only the value is architectural" (R140), so the meanings use the
abstract pseudocode of files 40 to 45; these definitions are the units themselves, and the obligations say that they
give the same values. The outlines of R163 and R164 are the spec's general knowledge (G2, G3; log entry 7).
-/

namespace Sys2Proof.Machine

/-- The limb vector `t[0..n-1]` of a function of the position. -/
def limbVector (n : Nat) (t : Nat → Nat) : List Nat := (List.range n).map t

/-! ### Normalization (R111) -/

/-- The `while` loop of `normalize`: from length `n`, drop zero top limbs until the top limb is not 0 or the
length is 1. -/
def normalizedLen (t : List Nat) : Nat → Nat
  | 0 => 0
  | 1 => 1
  | n + 2 => if t.getD (n + 1) 0 = 0 then normalizedLen t (n + 1) else n + 2

/-- `normalize(k, t)`. -/
def normalize (k : Nat) (t : List Nat) : NReg := { len := normalizedLen t k, limb := t }

/-- A unit's result: Infinity, or a raw limb vector to normalize over `k` limbs. -/
inductive UnitResult where
  | inf
  | raw (k : Nat) (t : List Nat)
  deriving DecidableEq, Repr

/-- The value that a unit's result stores (R111): the raw vector is normalized, and holds limbs of the register. -/
def UnitResult.value (p : Params) : UnitResult → Val
  | .inf => .inf
  | .raw k t => (normalize k t).value p

/-! ### Adder and subtractor (R140, R143) -/

/-- Limb `i` of the sum and the carry out of it, given the carry `c` into it. -/
def addLimb (p : Params) (x y : NReg) (i c : Nat) : Nat × Nat :=
  ((x.limbAt i + y.limbAt i + c) % p.base, (x.limbAt i + y.limbAt i + c) / p.base)

/-- The ripple from limb `i` over the next `n` limbs, with carry `c` in: the limbs and the carry out. -/
def addRipple (p : Params) (x y : NReg) : Nat → Nat → Nat → List Nat × Nat
  | 0, _, c => ([], c)
  | n + 1, i, c =>
    let (t, c') := addLimb p x y i c
    let (ts, c'') := addRipple p x y n (i + 1) c'
    (t :: ts, c'')

/-- The adder (R140). -/
def adder (p : Params) (x y : NReg) : UnitResult :=
  let (t, c) := addRipple p x y p.cap 0 0
  if c = 1 then .inf else .raw p.cap t

/-- Limb `i` of the difference and the borrow out of it, given the borrow `bw` into it. -/
def subLimb (p : Params) (x y : NReg) (i bw : Nat) : Nat × Nat :=
  if x.limbAt i < y.limbAt i + bw then (x.limbAt i + p.base - (y.limbAt i + bw), 1)
  else (x.limbAt i - (y.limbAt i + bw), 0)

/-- The ripple from limb `i` over the next `n` limbs, with borrow `bw` in. -/
def subRipple (p : Params) (x y : NReg) : Nat → Nat → Nat → List Nat × Nat
  | 0, _, bw => ([], bw)
  | n + 1, i, bw =>
    let (t, bw') := subLimb p x y i bw
    let (ts, bw'') := subRipple p x y n (i + 1) bw'
    (t :: ts, bw'')

/-- The subtractor (R143). -/
def subtractor (p : Params) (x y : NReg) : UnitResult :=
  let (t, bw) := subRipple p x y p.cap 0 0
  if bw = 1 then .inf else .raw p.cap t

/-! ### Multiplier (R160) -/

/-- The inner loop for limb `i` of `x`, from position `j` over the next `n` limbs of `y`, with carry `c` in. At its
end the carry goes to `t[i + ly]`. -/
def mulRow (p : Params) (xi : Nat) (y : NReg) (i : Nat) : Nat → Nat → Nat → List Nat → List Nat
  | 0, j, c, t => t.set (i + j) c
  | n + 1, j, c, t =>
    let acc := xi * y.limbAt j + t.getD (i + j) 0 + c
    mulRow p xi y i n (j + 1) (acc / p.base) (t.set (i + j) (acc % p.base))

/-- The outer loop, from limb `i` of `x` over the next `n`. -/
def mulRows (p : Params) (x y : NReg) : Nat → Nat → List Nat → List Nat
  | 0, _, t => t
  | n + 1, i, t => mulRows p x y n (i + 1) (mulRow p (x.limbAt i) y i y.len 0 0 t)

/-- The multiplier (R160): Infinity when a limb at a position `>= CAP` is not 0. -/
def multiplier (p : Params) (x y : NReg) : UnitResult :=
  let t := mulRows p x y x.len 0 (List.replicate (x.len + y.len) 0)
  if (t.drop p.cap).any (fun l => l != 0) then .inf else .raw p.cap (limbVector p.cap fun k => t.getD k 0)

/-! ### Single-limb divider (R164) -/

/-- The loop over limbs `n - 1` down to 0 with remainder `rem` so far: the quotient limbs and the last remainder. -/
def divLimbs (p : Params) (x : NReg) (d : Nat) : Nat → Nat → List Nat × Nat
  | 0, rem => ([], rem)
  | i + 1, rem =>
    let cur := rem * p.base + x.limbAt i
    let (q, r) := divLimbs p x d i (cur % d)
    (q ++ [cur / d], r)

/-- The quotient of the single-limb divider. -/
def limbQuotient (p : Params) (x : NReg) (d : Nat) : UnitResult := .raw x.len (divLimbs p x d x.len 0).1

/-- The remainder of the single-limb divider. -/
def limbRemainder (p : Params) (x : NReg) (d : Nat) : Nat := (divLimbs p x d x.len 0).2

/-! ### Long-division engine (R163); it scales its operands with the left shifter's limbs -/

/-- Limb `i` of the left shift by `q` whole limbs and `r` bits; a negative index reads 0. -/
def shlLimb (p : Params) (x : NReg) (q r i : Nat) : Nat :=
  let high := if q ≤ i then x.limbAt (i - q) <<< r else 0
  let low := if r = 0 then 0 else if q + 1 ≤ i then x.limbAt (i - q - 1) >>> (p.limbW - r) else 0
  (high ||| low) % p.base

/-- Correct the estimate `q` of a quotient limb down by at most `k` trial subtractions, for the running remainder
`rem` and the scaled divisor `v`. -/
def correctDown (v rem : Nat) : Nat → Nat → Nat
  | 0, q => q
  | k + 1, q => if rem < q * v then correctDown v rem k (q - 1) else q

/-- One quotient limb, for a scaled divisor `v` of `n` limbs: the top two limbs of the running remainder divided by
the top limb of the divisor, at most `base - 1`, then corrected at most twice. -/
def quotientLimb (p : Params) (n v rem : Nat) : Nat :=
  correctDown v rem 2 (min (p.base - 1) (rem / p.base ^ (n - 1) / (v / p.base ^ (n - 1))))

/-- The loop over the limbs `m - 1` down to 0 of the scaled dividend `u`, with running remainder `rem` so far: the
quotient limbs and the last remainder. -/
def longDivLimbs (p : Params) (n v : Nat) (u : Nat → Nat) : Nat → Nat → List Nat × Nat
  | 0, rem => ([], rem)
  | i + 1, rem =>
    let cur := rem * p.base + u i
    let q := quotientLimb p n v cur
    let (qs, r) := longDivLimbs p n v u i (cur - q * v)
    (qs ++ [q], r)

/-- The long-division engine (R163): quotient and remainder, for a divisor that is not Zero. -/
def longDivider (p : Params) (x y : NReg) : UnitResult × UnitResult :=
  let s := p.limbW - bitlen (y.limbAt (y.len - 1))
  let v := ofLimbs p.base (limbVector y.len (shlLimb p y 0 s))
  let (q, r) := longDivLimbs p y.len v (shlLimb p x 0 s) (x.len + 1) 0
  (.raw x.len (q.take x.len), .raw y.len (limbVector y.len fun i => r / 2 ^ s / p.base ^ i % p.base))

/-! ### Bitwise unit and complement (R190, R198) -/

/-- The bitwise unit (R190). -/
def bitwiseUnit (p : Params) (op : Nat → Nat → Nat) (x y : NReg) : UnitResult :=
  .raw p.cap (limbVector p.cap fun i => op (x.limbAt i) (y.limbAt i))

/-- The complement (R198): every bit of all `CAP` limbs inverted. -/
def complementUnit (p : Params) (x : NReg) : UnitResult :=
  .raw p.cap (limbVector p.cap fun i => (p.base - 1) - x.limbAt i)

/-! ### Barrel shifter (R212) -/

/-- The left shifter (R212), for an operand of magnitude `a`. -/
def shiftLeftUnit (p : Params) (x : NReg) (a d : Nat) : UnitResult :=
  if a ≠ 0 ∧ (p.bits ≤ d ∨ 2 ^ (p.bits - d) ≤ a) then .inf
  else .raw p.cap (limbVector p.cap fun i => shlLimb p x (d / p.limbW) (d % p.limbW) i)

/-- Limb `i` of the right shift by `q` whole limbs and `r` bits. -/
def shrLimb (p : Params) (x : NReg) (q r i : Nat) : Nat :=
  let low := x.limbAt (i + q) >>> r
  let high := if r = 0 then 0 else x.limbAt (i + q + 1) <<< (p.limbW - r)
  (low ||| high) % p.base

/-- The right shifter (R212). -/
def shiftRightUnit (p : Params) (x : NReg) (d : Nat) : UnitResult :=
  .raw p.cap (limbVector p.cap fun i => shrLimb p x (d / p.limbW) (d % p.limbW) i)

/-! ### Comparator (R230) -/

/-- Limbs `n - 1` down to 0: the first difference decides. -/
def cmpLimbs (x y : NReg) : Nat → CmpOutcome
  | 0 => .eq
  | i + 1 => if x.limbAt i = y.limbAt i then cmpLimbs x y i else if y.limbAt i < x.limbAt i then .gt else .lt

/-- The comparator on two finite registers: the longer length wins (R230). -/
def comparator (x y : NReg) : CmpOutcome :=
  if x.len ≠ y.len then (if y.len < x.len then .gt else .lt) else cmpLimbs x y x.len

end Sys2Proof.Machine
end

