-- ==== Sys2Proof/Safety.lean ====
section
/-!
DEFINITION. The terms the claims are stated in: the invariant of CORE's states, what a command leaves unchanged, when
two states differ only in unobservable limbs, and the result tables of files 40 to 45, cell by cell as they stand there.
-/

namespace Sys2Proof.Machine

/-! ### The invariant -/

/-- A magnitude that a register can hold: `0 <= m <= MAX` (R36). -/
abbrev Val.InRange (p : Params) (v : Val) : Prop :=
  match v with
  | .nan | .inf => True
  | .fin m => m ≤ p.maxMag

/-- The normalized form of R37, of a register with `CAP` limbs of `LIMB_W` bits (R30). -/
abbrev NReg.Normalized (p : Params) (r : NReg) : Prop :=
  r.limb.length = p.cap ∧ (∀ l ∈ r.limb, l < p.base) ∧
    (r.len = 0 ∨ r.len = p.cap + 1 ∨ r.len = 1 ∨ (2 ≤ r.len ∧ r.len ≤ p.cap ∧ r.limb.getD (r.len - 1) 0 ≠ 0))

/-- The states CORE can be in: legal parameters (R7, R8, R10), every register normalized (R37), `RES` of `W` bits
(R42) and a legal `STATUS.CMP` (R44). -/
abbrev State.Inv (s : State) : Prop :=
  s.params.Ok ∧ (∀ r ∈ s.regs, r.Normalized s.params) ∧ s.res < 2 ^ s.params.w ∧ s.status.cmpLegal = true

/-! ### Frames -/

/-- `t` is `s` after a command that completed and wrote at most natural register `rd`: the parameters, every other
register with all its fields, `RES`, `STATUS` and the host's list are as before, and `ci` is one more. -/
def OnlyReg (rd : RegIdx) (s t : State) : Prop :=
  t.params = s.params ∧ (∀ i : Nat, i ≠ rd.toNat → t.regs[i]? = s.regs[i]?) ∧ t.res = s.res ∧ t.status = s.status ∧
    t.ci = s.ci + 1 ∧ t.host = s.host

/-- `t` is `s` after a command that completed and wrote at most `RES`. -/
def OnlyRes (s t : State) : Prop :=
  t.params = s.params ∧ t.regs = s.regs ∧ t.status = s.status ∧ t.ci = s.ci + 1 ∧ t.host = s.host

/-- `t` is `s` after a command that completed and wrote at most `STATUS`. -/
def OnlyStatus (s t : State) : Prop :=
  t.params = s.params ∧ t.regs = s.regs ∧ t.res = s.res ∧ t.ci = s.ci + 1 ∧ t.host = s.host

/-- Two states that differ at most in limbs R35 leaves unspecified, and in the model's own counter of free values. -/
def Agree (s t : State) : Prop :=
  s.params = t.params ∧ (∀ i, s.regVal? i = t.regVal? i) ∧ s.res = t.res ∧ s.status = t.status ∧ s.ci = t.ci ∧
    s.host = t.host

/-- The registers whose values an instruction reads: MOV reads only its source, MOV.N and SETC read none. -/
def readRegs : Instr → List RegIdx
  | .nop | .clrst | .movN _ _ _ | .setc _ _ => []
  | .mov _ rs => [rs]
  | .add rd rs | .sub rd rs | .mul rd rs | .div rd rs | .mod rd rs => [rd, rs]
  | .and rd rs | .or rd rs | .xor rd rs | .cmp rd rs => [rd, rs]
  | .addN rd _ _ | .subN rd _ _ | .mulN rd _ _ | .divN rd _ _ | .modN rd _ _ => [rd]
  | .andN rd _ _ | .orN rd _ _ | .xorN rd _ _ | .cmpN rd _ _ => [rd]
  | .not rd | .shl rd _ | .shr rd _ | .cls rd | .rdlimb rd _ | .rdlen rd => [rd]

/-- The instructions that write `RES` (R42). -/
def writesRes : Instr → Bool
  | .cls _ | .rdlen _ | .rdlimb _ _ => true
  | _ => false

/-- The instructions that write `STATUS` (R44): CMP and CMP.N write `STATUS.CMP`, CLRST clears all of it. -/
def writesStatus : Instr → Bool
  | .cmp _ _ | .cmpN _ _ _ | .clrst => true
  | _ => false

/-! ### Illegal words -/

/-- Opcodes of class B (R86). -/
def classB (op : Nat) : Bool := (1 ≤ op && op ≤ 8) || op == 0x0C || op == 0x0E

/-- Opcodes of class U (R86). -/
def classU (op : Nat) : Bool := op == 0x09 || op == 0x0A || op == 0x0B || op == 0x0D || op == 0x10 || op == 0x11

/-- The eight cases of R89, in its order, on the word as a number: the field of bits `hi` down to `lo` is
`word / 2^lo mod 2^(hi-lo+1)` (R12). -/
def IllegalCase (nreg word : Nat) : Prop :=
  let op := word / 2 ^ 26
  let rd := word / 2 ^ 22 % 2 ^ 4
  let rs := word / 2 ^ 18 % 2 ^ 4
  let n := word / 2 ^ 17 % 2
  let s := word / 2 ^ 16 % 2
  0x13 ≤ op ∨
  word % 2 ^ 16 ≠ 0 ∨
  ((classB op = true ∨ classU op = true ∨ op = 0x0F) ∧ nreg ≤ rd) ∨ (classB op = true ∧ n = 0 ∧ nreg ≤ rs) ∨
  (classB op = true ∧ n = 0 ∧ s = 1) ∨
  (classB op = true ∧ n = 1 ∧ rs ≠ 0) ∨
  (classU op = true ∧ word / 2 ^ 16 % 2 ^ 6 ≠ 0) ∨
  (op = 0x0F ∧ (word / 2 ^ 20 % 2 ^ 2 ≠ 0 ∨ n = 1 ∨ s = 1)) ∨
  ((op = 0x00 ∨ op = 0x12) ∧ word / 2 ^ 16 % 2 ^ 10 ≠ 0)

/-! ### The result tables -/

/-- `fin(x)` (R39): finite up to `MAX = base^CAP - 1`, Infinity above. -/
def finCell (p : Params) (x : Nat) : Val := if x < p.base ^ p.cap then .fin x else .inf

/-- `nat(OPND, S)` (R112) of a `W`-bit operand. -/
def natCell (p : Params) (v : Nat) (signed : Bool) : Val :=
  if signed = true ∧ 2 ^ (p.w - 1) ≤ v then .inf else finCell p v

/-- The table of ADD (R141). -/
def addCell (p : Params) (x y : Val) : Val :=
  match x, y with
  | .nan, .nan => .nan | .nan, .fin _ => .nan | .nan, .inf => .nan
  | .fin _, .nan => .nan | .fin a, .fin b => finCell p (a + b) | .fin _, .inf => .inf
  | .inf, .nan => .nan | .inf, .fin _ => .inf | .inf, .inf => .inf

/-- The table of SUB (R144). -/
def subCell (x y : Val) : Val :=
  match x, y with
  | .nan, .nan => .nan | .nan, .fin _ => .nan | .nan, .inf => .nan
  | .fin _, .nan => .nan | .fin a, .fin b => (if b ≤ a then .fin (a - b) else .inf) | .fin _, .inf => .inf
  | .inf, .nan => .nan | .inf, .fin _ => .inf | .inf, .inf => .nan

/-- The table of MUL (R161). -/
def mulCell (p : Params) (x y : Val) : Val :=
  match x, y with
  | .nan, .nan => .nan | .nan, .fin _ => .nan | .nan, .inf => .nan
  | .fin _, .nan => .nan | .fin a, .fin b => finCell p (a * b) | .fin a, .inf => (if a = 0 then .nan else .inf)
  | .inf, .nan => .nan | .inf, .fin b => (if b = 0 then .nan else .inf) | .inf, .inf => .inf

/-- The table of DIV (R165). -/
def divCell (x y : Val) : Val :=
  match x, y with
  | .nan, .nan => .nan | .nan, .fin _ => .nan | .nan, .inf => .nan
  | .fin _, .nan => .nan | .fin a, .fin b => (if b = 0 then .nan else .fin (a / b)) | .fin _, .inf => .fin 0
  | .inf, .nan => .nan | .inf, .fin b => (if b = 0 then .nan else .inf) | .inf, .inf => .nan

/-- The table of MOD (R168). -/
def modCell (x y : Val) : Val :=
  match x, y with
  | .nan, .nan => .nan | .nan, .fin _ => .nan | .nan, .inf => .nan
  | .fin _, .nan => .nan | .fin a, .fin b => (if b = 0 then .nan else .fin (a % b)) | .fin a, .inf => .fin a
  | .inf, .nan => .nan | .inf, .fin _ => .nan | .inf, .inf => .nan

/-- The table of AND, OR and XOR (R191), for the operation `op` on finite values. -/
def bitwCell (op : Nat → Nat → Nat) (x y : Val) : Val :=
  match x, y with
  | .nan, .nan => .nan | .nan, .fin _ => .nan | .nan, .inf => .nan
  | .fin _, .nan => .nan | .fin a, .fin b => .fin (op a b) | .fin _, .inf => .inf
  | .inf, .nan => .nan | .inf, .fin _ => .inf | .inf, .inf => .inf

/-- The table of the comparison outcome (R231). -/
def cmpCell (x y : Val) : CmpOutcome :=
  match x, y with
  | .nan, .nan => .un | .nan, .fin _ => .un | .nan, .inf => .un
  | .fin _, .nan => .un | .fin a, .fin b => (if a < b then .lt else if b < a then .gt else .eq) | .fin _, .inf => .un
  | .inf, .nan => .un | .inf, .fin _ => .un | .inf, .inf => .eq

/-- The outcome of R231 is in `STATUS.CMP` of `t`, exactly one bit of it set, and `ILL` is as in `s` (R232). -/
def ShowsOutcome (o : CmpOutcome) (s t : State) : Prop :=
  t.status = { lt := decide (o = .lt), eq := decide (o = .eq), gt := decide (o = .gt), un := decide (o = .un),
               ill := s.status.ill }

end Sys2Proof.Machine
end

