-- ==== Sys2Proof/Laws/Values.lean ====
section
/-!
SUPPORT. What the encoding of values says: the digits of a magnitude, the length of an encoding, and that a register
written with a value in range is legal, normalized and reads back as that value (R37, R38).
-/

namespace Sys2Proof

theorem Params.base_pos (p : Params) : 0 < p.base := Nat.two_pow_pos _

theorem Params.one_lt_base {p : Params} (h : p.Ok) : 1 < p.base := Nat.one_lt_two_pow (by have := h.1; omega)

theorem Params.base_pow_pos (p : Params) (n : Nat) : 0 < p.base ^ n := Nat.pow_pos p.base_pos

theorem Params.base_pow (p : Params) (n : Nat) : p.base ^ n = 2 ^ (p.limbW * n) := (pow_mul 2 p.limbW n).symm

/-- `m <= MAX` exactly when `m < base^CAP` (R9). -/
theorem Params.le_maxMag_iff (p : Params) (m : Nat) : m ≤ p.maxMag ↔ m < p.base ^ p.cap := by
  have := p.base_pow_pos p.cap
  unfold Params.maxMag; omega

namespace Machine

/-! ### Digits -/

theorem ofLimbs_digits (b m n : Nat) : ofLimbs b ((List.range n).map fun i => m / b ^ i % b) = m % b ^ n := by
  induction n generalizing m with
  | zero => simp [ofLimbs, Nat.mod_one]
  | succ n ih =>
    have hshift : (List.range n).map ((fun i => m / b ^ i % b) ∘ Nat.succ) =
        (List.range n).map fun i => m / b / b ^ i % b := by
      refine List.map_congr_left fun i _ => ?_
      simp [Function.comp, Nat.pow_succ, Nat.div_div_eq_div_mul, Nat.mul_comm]
    rw [List.range_succ_eq_map, List.map_cons, List.map_map, hshift, ofLimbs, ih, Nat.pow_succ, Nat.mul_comm (b ^ n) b,
      Nat.mod_mul]
    simp

theorem ofLimbs_lt (b : Nat) (ls : List Nat) (h : ∀ l ∈ ls, l < b) : ofLimbs b ls < b ^ ls.length := by
  induction ls with
  | nil => simp [ofLimbs]
  | cons l ls ih =>
    have hl : l < b := h l (by simp)
    have ht := ih fun x hx => h x (by simp [hx])
    have : b * (ofLimbs b ls + 1) ≤ b * b ^ ls.length := Nat.mul_le_mul_left b ht
    simp only [ofLimbs, List.length_cons, Nat.pow_succ]
    rw [Nat.mul_comm (b ^ ls.length) b]
    linarith [Nat.mul_add b (ofLimbs b ls) 1]

/-! ### Lengths -/

/-- The length of a non-zero magnitude's encoding: `base^(len-1) <= m < base^len` (R38). -/
theorem encLen_bounds {p : Params} (h : p.Ok) (m : Nat) :
    1 ≤ (Val.fin (m + 1)).encLen p ∧ p.base ^ ((Val.fin (m + 1)).encLen p - 1) ≤ m + 1 ∧
      m + 1 < p.base ^ (Val.fin (m + 1)).encLen p := by
  obtain ⟨hw, -⟩ := h
  have hlog := Nat.log2_self_le (n := m + 1) (by omega)
  have hlt : m + 1 < 2 ^ (Nat.log2 (m + 1) + 1) := Nat.lt_log2_self
  generalize hL : (Val.fin (m + 1)).encLen p = L
  simp only [Val.encLen, bitlen, Nat.add_eq_zero_iff, one_ne_zero, and_false, if_false] at hL
  have hdiv := Nat.div_add_mod (Nat.log2 (m + 1) + 1 + (p.limbW - 1)) p.limbW
  have hmod := Nat.mod_lt (Nat.log2 (m + 1) + 1 + (p.limbW - 1)) (show 0 < p.limbW by omega)
  rw [hL] at hdiv
  have hL1 : 1 ≤ L := by
    rcases Nat.eq_zero_or_pos L with h0 | h0
    · subst h0; simp at hdiv; omega
    · exact h0
  have hpred : p.limbW * (L - 1) + p.limbW = p.limbW * L := by
    obtain ⟨k, rfl⟩ : ∃ k, L = k + 1 := ⟨L - 1, by omega⟩
    simp [Nat.mul_add]
  refine ⟨hL1, ?_, ?_⟩
  · rw [Params.base_pow]
    exact le_trans (Nat.pow_le_pow_right (by omega) (by omega)) hlog
  · rw [Params.base_pow]
    exact lt_of_lt_of_le hlt (Nat.pow_le_pow_right (by omega) (by omega))

theorem encLen_le_cap {p : Params} (h : p.Ok) {m : Nat} (hm : m + 1 ≤ p.maxMag) :
    (Val.fin (m + 1)).encLen p ≤ p.cap := by
  obtain ⟨h1, hlo, -⟩ := encLen_bounds h m
  have hlt := lt_of_le_of_lt hlo ((p.le_maxMag_iff _).1 hm)
  have := (Nat.pow_lt_pow_iff_right (Params.one_lt_base h)).1 hlt
  omega

/-! ### Encoded limbs -/

@[simp] theorem encLimbs_length (p : Params) (j : Nat → Nat) (u m : Nat) : (encLimbs p j u m).length = p.cap := by
  simp [encLimbs]

theorem encLimbs_lt (p : Params) (j : Nat → Nat) (u m : Nat) : ∀ l ∈ encLimbs p j u m, l < p.base := by
  intro l hl
  obtain ⟨i, -, rfl⟩ := List.mem_map.1 hl
  split <;> exact Nat.mod_lt _ p.base_pos

theorem encLimbs_take (p : Params) (j : Nat → Nat) {u : Nat} (m : Nat) (hu : u ≤ p.cap) :
    (encLimbs p j u m).take u = (List.range u).map fun i => m / p.base ^ i % p.base := by
  rw [encLimbs, ← List.map_take, List.take_range, Nat.min_eq_left hu]
  exact List.map_congr_left fun i hi => by simp [List.mem_range.1 hi]

theorem encLimbs_getD (p : Params) (j : Nat → Nat) {u i : Nat} (m : Nat) (hu : u ≤ p.cap) (hi : i < u) :
    (encLimbs p j u m).getD i 0 = m / p.base ^ i % p.base := by
  simp [encLimbs, hi, List.getD, show i < p.cap by omega]

/-- The top used limb of a non-zero magnitude's encoding is not 0 (R37, R38). -/
theorem top_digit_ne_zero {p : Params} (h : p.Ok) (m : Nat) :
    (m + 1) / p.base ^ ((Val.fin (m + 1)).encLen p - 1) % p.base ≠ 0 := by
  obtain ⟨h1, hlo, hhi⟩ := encLen_bounds h m
  generalize (Val.fin (m + 1)).encLen p = L at *
  obtain ⟨k, rfl⟩ : ∃ k, L = k + 1 := ⟨L - 1, by omega⟩
  simp only [Nat.add_sub_cancel] at *
  have hpos := p.base_pow_pos k
  have hlt : (m + 1) / p.base ^ k < p.base := by
    rw [Nat.div_lt_iff_lt_mul hpos, Nat.mul_comm, ← Nat.pow_succ]; exact hhi
  rw [Nat.mod_eq_of_lt hlt]
  have := Nat.div_pos hlo hpos
  omega

/-! ### What `enc` stores -/

theorem enc_fin_succ (p : Params) (j : Nat → Nat) (m : Nat) :
    NReg.enc p j (.fin (m + 1)) =
      { len := (Val.fin (m + 1)).encLen p, limb := encLimbs p j ((Val.fin (m + 1)).encLen p) (m + 1) } := rfl

@[simp] theorem enc_len (p : Params) (j : Nat → Nat) (v : Val) : (NReg.enc p j v).len = v.encLen p := by
  rcases v with _ | _ | (_ | m) <;> rfl

@[simp] theorem enc_limb_length (p : Params) (j : Nat → Nat) (v : Val) : (NReg.enc p j v).limb.length = p.cap := by
  rcases v with _ | _ | (_ | m) <;> simp [NReg.enc]

/-- A value in range is stored in normalized form (R37, R38). -/
theorem enc_normalized {p : Params} (h : p.Ok) (j : Nat → Nat) {v : Val} (hv : v.InRange p) :
    (NReg.enc p j v).Normalized p := by
  refine ⟨by simp, ?_, ?_⟩
  · rcases v with _ | _ | (_ | m) <;> exact encLimbs_lt _ _ _ _
  · rcases v with _ | _ | (_ | m)
    · exact .inl rfl
    · exact .inr (.inl rfl)
    · exact .inr (.inr (.inl rfl))
    · have hle := encLen_le_cap h hv
      have h1 := (encLen_bounds h m).1
      have htop := top_digit_ne_zero h m
      rw [enc_fin_succ]
      dsimp only
      rw [encLimbs_getD p j (m + 1) hle (by omega)]
      omega

/-- A normalized register is one that a command can read. -/
theorem legal_of_normalized {p : Params} (h : p.Ok) {r : NReg} (hr : r.Normalized p) : r.legal p = true := by
  obtain ⟨hl, hb, hlen⟩ := hr
  have hcap := h.2.1
  have hall : (r.limb.take r.len).all (fun l => decide (l < p.base)) = true := by
    simp only [List.all_eq_true, decide_eq_true_eq]
    exact fun l hm => hb l (List.mem_of_mem_take hm)
  rcases hlen with h0 | h0 | h0 | ⟨h2, hc, ht⟩
  · simp [NReg.legal, hl, h0]
  · simp [NReg.legal, hl, h0]
  · simp only [NReg.legal, hl, hall]; simp [h0]; omega
  · simp only [NReg.legal, hl, hall]; simp [hc, show 1 ≤ r.len by omega]; tauto

/-- `value(enc(v)) == v` for a value in range (R38). -/
theorem enc_value {p : Params} (h : p.Ok) (j : Nat → Nat) {v : Val} (hv : v.InRange p) :
    (NReg.enc p j v).value p = v := by
  have hcap := h.2.1
  rcases v with _ | _ | (_ | m)
  · simp [NReg.value, NReg.category, NReg.enc]
  · simp [NReg.value, NReg.category, NReg.enc]
  · have : (encLimbs p j 1 0).getD 0 0 = 0 := by rw [encLimbs_getD p j 0 hcap (by omega)]; simp
    have hcat : NReg.category p (NReg.enc p j (.fin 0)) = .zero := by
      rw [NReg.category, if_neg (by simp [NReg.enc]), if_neg (by simp [NReg.enc]; omega), if_pos ⟨rfl, this⟩]
    have hmag : NReg.magnitude p (NReg.enc p j (.fin 0)) = 0 := by
      simp [NReg.magnitude, NReg.enc, encLimbs_take p j 0 hcap, ofLimbs]
    simp only [NReg.value, hcat, hmag]
  · obtain ⟨h1, hlo, hhi⟩ := encLen_bounds h m
    have hle := encLen_le_cap h hv
    have htop := top_digit_ne_zero h m
    rw [enc_fin_succ]
    have hmag : NReg.magnitude p ⟨(Val.fin (m + 1)).encLen p, encLimbs p j ((Val.fin (m + 1)).encLen p) (m + 1)⟩ = m + 1 := by
      rw [NReg.magnitude]
      dsimp only
      rw [encLimbs_take p j (m + 1) hle, ofLimbs_digits, Nat.mod_eq_of_lt hhi]
    have hcat : NReg.category p ⟨(Val.fin (m + 1)).encLen p, encLimbs p j ((Val.fin (m + 1)).encLen p) (m + 1)⟩ = .finite := by
      have hz : ¬ ((Val.fin (m + 1)).encLen p = 1 ∧ (encLimbs p j ((Val.fin (m + 1)).encLen p) (m + 1)).getD 0 0 = 0) := by
        rintro ⟨e, hd⟩
        rw [encLimbs_getD p j (m + 1) hle (by omega)] at hd
        rw [e] at htop
        exact htop (by simpa using hd)
      rw [NReg.category]
      dsimp only
      rw [if_neg (by omega), if_neg (by omega), if_neg hz]
    simp only [NReg.value, hcat, hmag]

/-- A register written with a value in range reads back as that value. -/
theorem enc_value? {p : Params} (h : p.Ok) (j : Nat → Nat) {v : Val} (hv : v.InRange p) :
    (NReg.enc p j v).value? p = some v := by
  simp [NReg.value?, legal_of_normalized h (enc_normalized h j hv), enc_value h j hv]

/-- The value that a command reads is in range: a legal register's magnitude is at most `MAX` (R36). -/
theorem value?_inRange {p : Params} {r : NReg} {v : Val} (hv : r.value? p = some v) : v.InRange p := by
  rw [NReg.value?] at hv
  split at hv
  case isFalse => cases hv
  case isTrue hl =>
    cases hv
    rw [NReg.value]
    have key : r.category p = .zero ∨ r.category p = .finite → r.magnitude p ≤ p.maxMag := by
      intro hc
      rw [Params.le_maxMag_iff]
      have h0 : r.len ≠ 0 := by intro h; rw [NReg.category, if_pos h] at hc; simp at hc
      have h1 : r.len ≠ p.cap + 1 := by
        intro h; rw [NReg.category, if_neg h0, if_pos h] at hc; simp at hc
      simp only [NReg.legal, Bool.and_eq_true, Bool.or_eq_true, beq_iff_eq, decide_eq_true_eq, List.all_eq_true] at hl
      obtain ⟨hlen, (h | h) | ⟨⟨⟨-, hc'⟩, hall⟩, -⟩⟩ := hl
      · exact absurd h h0
      · exact absurd h h1
      · refine lt_of_lt_of_le (ofLimbs_lt _ _ hall) (Nat.pow_le_pow_right p.base_pos ?_)
        rw [List.length_take]; omega
    cases hcat : r.category p <;> simp_all [Val.InRange]

end Machine
end Sys2Proof
end

