-- ==== Sys2Proof/Laws/Ops.lean ====
section
/-!
SUPPORT. What each shared operation can do, said once: a register read after a write, the operand forms, and the
result of each arithmetic function staying in range, unreachable states; last, everything that `exec` and `step` can answer.
-/

namespace Sys2Proof.Machine

/-! ### Register read after write -/

theorem regIdx_ext {i j : RegIdx} (h : i.toNat = j.toNat) : i = j := BitVec.eq_of_toNat_eq h

theorem State.regVal?_isSome_lt {s : State} {i : RegIdx} {v : Val} (h : s.regVal? i = some v) :
    i.toNat < s.regs.length := by
  unfold State.regVal? at h
  split at h
  · cases h
  · rename_i hr; exact (List.getElem?_eq_some_iff.1 hr).1

theorem State.regVal?_inRange {s : State} {i : RegIdx} {v : Val} (h : s.regVal? i = some v) : v.InRange s.params := by
  unfold State.regVal? at h
  split at h
  · cases h
  · exact value?_inRange h

/-- A register reads back as the value written to it. -/
theorem State.writeReg_regVal?_self {s : State} (hp : s.params.Ok) {i : RegIdx} (hi : i.toNat < s.regs.length) {v : Val}
    (hv : v.InRange s.params) : (s.writeReg i v).regVal? i = some v := by
  unfold State.regVal?
  simp [hi, enc_value? hp _ hv]

/-- A write leaves every other register. -/
theorem State.writeReg_regVal?_other (s : State) {i j : RegIdx} (hij : i ≠ j) (v : Val) :
    (s.writeReg i v).regVal? j = s.regVal? j := by
  have : i.toNat ≠ j.toNat := fun h => hij (regIdx_ext h)
  unfold State.regVal?
  simp [this]

theorem State.writeReg_regs_other (s : State) {i : RegIdx} {j : Nat} (hij : j ≠ i.toNat) (v : Val) :
    (s.writeReg i v).regs[j]? = s.regs[j]? := by
  simp [Ne.symm hij]

@[simp] theorem State.retire_regVal? (s : State) (i : RegIdx) : s.retire.regVal? i = s.regVal? i := rfl
@[simp] theorem State.writeRes_regVal? (s : State) (v : Nat) (i : RegIdx) : (s.writeRes v).regVal? i = s.regVal? i := rfl
@[simp] theorem State.raiseIllegal_regVal? (s : State) (i : RegIdx) : s.raiseIllegal.regVal? i = s.regVal? i := rfl

/-- The frame of a command that writes one register. -/
theorem OnlyReg_writeReg (s : State) (rd : RegIdx) (v : Val) : OnlyReg rd s (s.writeReg rd v).retire :=
  ⟨by simp, fun i hi => by simpa using State.writeReg_regs_other s hi v, rfl, rfl, rfl, rfl⟩

/-! ### Operand forms -/

theorem State.withDest_of_lt {s : State} {rd : RegIdx} (h : rd.toNat < s.regs.length) (k : Out) : s.withDest rd k = k :=
  if_pos h

theorem State.withDest_of_le {s : State} {rd : RegIdx} (h : s.regs.length ≤ rd.toNat) (k : Out) :
    s.withDest rd k = .next s.raiseIllegal := if_neg (Nat.not_lt.2 h)

theorem State.withReg_of_some {s : State} {r : RegIdx} {v : Val} (h : s.regVal? r = some v) (k : Val → Out) :
    s.withReg r k = k v := by
  rw [State.withReg, State.withDest_of_lt (State.regVal?_isSome_lt h), h]

theorem State.withReg_of_none {s : State} {r : RegIdx} (hr : r.toNat < s.regs.length) (h : s.regVal? r = none)
    (k : Val → Out) : s.withReg r k = .refused .unreachableRegister := by
  rw [State.withReg, State.withDest_of_lt hr, h]

theorem State.withRegs_of_some {s : State} {rd rs : RegIdx} {x y : Val} (hx : s.regVal? rd = some x)
    (hy : s.regVal? rs = some y) (k : Val → Val → Out) : s.withRegs rd rs k = k x y := by
  rw [State.withRegs, State.withDest_of_lt (State.regVal?_isSome_lt hx),
    State.withDest_of_lt (State.regVal?_isSome_lt hy), State.withReg_of_some hx, State.withReg_of_some hy]

/-! ### Results stay in range -/

theorem saturate_inRange (p : Params) (x : Nat) : (saturate p x).InRange p := by
  unfold saturate; split
  · assumption
  · trivial

theorem nat_inRange (p : Params) (v : Nat) (sg : Bool) : (nat p v sg).InRange p := by
  unfold nat; split
  · trivial
  · exact saturate_inRange p v

theorem constVal_inRange (p : Params) (k : NamedConst) : (constVal p k).InRange p := by
  cases k <;> simp [constVal, Val.InRange]

theorem addVal_inRange (p : Params) (x y : Val) : (addVal p x y).InRange p := by
  rcases x with _ | _ | a <;> rcases y with _ | _ | b <;> first | trivial | exact saturate_inRange p _

theorem subVal_inRange {p : Params} {x : Val} (y : Val) (hx : x.InRange p) : (subVal x y).InRange p := by
  rcases x with _ | _ | a <;> rcases y with _ | _ | b <;> try trivial
  simp only [subVal]
  split
  · trivial
  · exact le_trans (Nat.sub_le _ _) hx

theorem mulVal_inRange (p : Params) (x y : Val) : (mulVal p x y).InRange p := by
  rcases x with _ | _ | (_ | a) <;> rcases y with _ | _ | (_ | b) <;> first | trivial | exact saturate_inRange p _

theorem divVal_inRange {p : Params} {x : Val} (y : Val) (hx : x.InRange p) : (divVal x y).InRange p := by
  rcases x with _ | _ | a <;> rcases y with _ | _ | (_ | b) <;> try trivial
  · exact Nat.zero_le _
  · exact le_trans (Nat.div_le_self _ _) hx

theorem modVal_inRange {p : Params} {x : Val} (y : Val) (hx : x.InRange p) : (modVal x y).InRange p := by
  rcases x with _ | _ | a <;> rcases y with _ | _ | (_ | b) <;> try trivial
  exact le_trans (Nat.mod_le _ _) hx

theorem bitwVal_inRange {p : Params} {op : Nat → Nat → Nat} (hop : ∀ a b n, a < 2 ^ n → b < 2 ^ n → op a b < 2 ^ n)
    {x y : Val} (hx : x.InRange p) (hy : y.InRange p) : (bitwVal op x y).InRange p := by
  rcases x with _ | _ | a <;> rcases y with _ | _ | b <;> try trivial
  simp only [bitwVal, Val.InRange, Params.le_maxMag_iff, Params.base_pow] at *
  exact hop _ _ _ hx hy

theorem notVal_inRange {p : Params} (x : Val) : (notVal p x).InRange p := by
  rcases x with _ | _ | a <;> first | trivial | exact Nat.sub_le _ _

theorem shlVal_inRange (d : Nat) (p : Params) (x : Val) : (shlVal d p x).InRange p := by
  rcases x with _ | _ | (_ | a)
  · trivial
  · trivial
  · exact Nat.zero_le _
  · simp only [shlVal]
    split
    · trivial
    · exact saturate_inRange p _

theorem shrVal_inRange (d : Nat) {p : Params} {x : Val} (hx : x.InRange p) : (shrVal d p x).InRange p := by
  rcases x with _ | _ | a <;> try trivial
  simp only [shrVal, Val.InRange] at *
  split
  · exact Nat.zero_le _
  · exact le_trans (Nat.div_le_self _ _) hx

/-! ### Unreachable registers -/

theorem State.ifReachable_of_true {s : State} (h : s.reachableRegs = true) (k : Out) : s.ifReachable k = k := if_pos h

theorem State.ifReachable_of_false {s : State} (h : s.reachableRegs = false) (k : Out) :
    s.ifReachable k = .refused .unreachableRegister := if_neg (by simp [h])

theorem State.reachableRegs_iff {s : State} : s.reachableRegs = true ↔ ∀ r ∈ s.regs, r.legal s.params = true := by
  simp [State.reachableRegs]

/-- A state with the invariant has no unreachable register. -/
theorem State.Inv.reachableRegs {s : State} (h : s.Inv) : s.reachableRegs = true :=
  State.reachableRegs_iff.2 fun _ hr => legal_of_normalized h.1 (h.2.1 _ hr)

/-! ### Everything `exec` can answer -/

/-- What a command does when it is not refused: it is illegal, or it writes one register with a value in range, or
`RES`, or `STATUS.CMP`, or it clears `STATUS`, or it writes nothing. -/
inductive Effect (s : State) (t : State) : Prop where
  | illegal (h : t = s.raiseIllegal)
  | reg (rd : RegIdx) (v : Val) (hrd : rd.toNat < s.regs.length) (hv : v.InRange s.params)
      (h : t = (s.writeReg rd v).retire)
  | res (v : Nat) (h : t = (s.writeRes v).retire)
  | cmp (o : CmpOutcome) (h : t = State.retire { s with status := s.status.setCmp o })
  | clear (h : t = State.retire { s with status := Status.clear })
  | none (h : t = s.retire)

theorem withDest_next {s t : State} {rd : RegIdx} {k : Out} (h : s.withDest rd k = .next t) :
    t = s.raiseIllegal ∨ (rd.toNat < s.regs.length ∧ k = .next t) := by
  rw [State.withDest] at h
  split at h
  · exact .inr ⟨‹_›, h⟩
  · cases h; exact .inl rfl

theorem withReg_next {s t : State} {r : RegIdx} {k : Val → Out} (h : s.withReg r k = .next t) :
    t = s.raiseIllegal ∨ ∃ v, s.regVal? r = some v ∧ k v = .next t := by
  rcases withDest_next h with h | ⟨-, h⟩
  · exact .inl h
  · split at h
    · exact .inr ⟨_, ‹_›, h⟩
    · cases h

theorem withRegs_next {s t : State} {rd rs : RegIdx} {k : Val → Val → Out} (h : s.withRegs rd rs k = .next t) :
    t = s.raiseIllegal ∨ ∃ x y, s.regVal? rd = some x ∧ s.regVal? rs = some y ∧ k x y = .next t := by
  rcases withDest_next h with h | ⟨-, h⟩
  · exact .inl h
  rcases withDest_next h with h | ⟨-, h⟩
  · exact .inl h
  rcases withReg_next h with h | ⟨x, hx, h⟩
  · exact .inl h
  rcases withReg_next h with h | ⟨y, hy, h⟩
  · exact .inl h
  exact .inr ⟨x, y, hx, hy, h⟩

theorem finishReg_next {s t : State} {rd : RegIdx} {v : Val} (h : s.finishReg rd v = .next t) :
    t = (s.writeReg rd v).retire := by cases h; rfl

theorem binaryReg_effect {s t : State} {f : Params → Val → Val → Val} {rd rs : RegIdx}
    (hf : ∀ x y, x.InRange s.params → y.InRange s.params → (f s.params x y).InRange s.params)
    (h : s.binaryReg f rd rs = .next t) : Effect s t := by
  rcases withRegs_next h with h | ⟨x, y, hx, hy, h⟩
  · exact .illegal h
  · exact .reg rd _ (State.regVal?_isSome_lt hx) (hf x y (State.regVal?_inRange hx) (State.regVal?_inRange hy))
      (finishReg_next h)

theorem binaryNative_effect {s t : State} {f : Params → Val → Val → Val} {rd : RegIdx} {sg : Bool} {v : Nat}
    (hf : ∀ x y, x.InRange s.params → y.InRange s.params → (f s.params x y).InRange s.params)
    (h : s.binaryNative f rd sg v = .next t) : Effect s t := by
  rcases withReg_next h with h | ⟨x, hx, h⟩
  · exact .illegal h
  · exact .reg rd _ (State.regVal?_isSome_lt hx) (hf x _ (State.regVal?_inRange hx) (nat_inRange _ _ _)) (finishReg_next h)

theorem unary_effect {s t : State} {f : Params → Val → Val} {rd : RegIdx}
    (hf : ∀ x, x.InRange s.params → (f s.params x).InRange s.params) (h : s.unary f rd = .next t) : Effect s t := by
  rcases withReg_next h with h | ⟨x, hx, h⟩
  · exact .illegal h
  · exact .reg rd _ (State.regVal?_isSome_lt hx) (hf x (State.regVal?_inRange hx)) (finishReg_next h)

theorem readout_effect {s t : State} {f : Params → Val → Nat} {rd : RegIdx} (h : s.readout f rd = .next t) :
    Effect s t := by
  rcases withReg_next h with h | ⟨x, -, h⟩
  · exact .illegal h
  · cases h; exact .res _ rfl

/-- Everything a command that is not refused can do. -/
theorem exec_effect {i : Instr} {s t : State} (h : exec i s = .next t) : Effect s t := by
  have hand : ∀ a b n, a < 2 ^ n → b < 2 ^ n → Nat.land a b < 2 ^ n := fun a b n _ hb => Nat.and_lt_two_pow a hb
  have hor : ∀ a b n, a < 2 ^ n → b < 2 ^ n → Nat.lor a b < 2 ^ n := fun _ _ _ ha hb => Nat.or_lt_two_pow ha hb
  have hxor : ∀ a b n, a < 2 ^ n → b < 2 ^ n → Nat.xor a b < 2 ^ n := fun _ _ _ ha hb => Nat.xor_lt_two_pow ha hb
  cases i with
  | nop => cases h; exact .none rfl
  | clrst => cases h; exact .clear rfl
  | add | mul =>
    first
      | exact binaryReg_effect (fun x y _ _ => addVal_inRange _ x y) h
      | exact binaryReg_effect (fun x y _ _ => mulVal_inRange _ x y) h
  | addN | mulN =>
    first
      | exact binaryNative_effect (fun x y _ _ => addVal_inRange _ x y) h
      | exact binaryNative_effect (fun x y _ _ => mulVal_inRange _ x y) h
  | sub => exact binaryReg_effect (f := fun _ => subVal) (fun x y hx _ => subVal_inRange y hx) h
  | subN => exact binaryNative_effect (f := fun _ => subVal) (fun x y hx _ => subVal_inRange y hx) h
  | div => exact binaryReg_effect (f := fun _ => divVal) (fun x y hx _ => divVal_inRange y hx) h
  | divN => exact binaryNative_effect (f := fun _ => divVal) (fun x y hx _ => divVal_inRange y hx) h
  | mod => exact binaryReg_effect (f := fun _ => modVal) (fun x y hx _ => modVal_inRange y hx) h
  | modN => exact binaryNative_effect (f := fun _ => modVal) (fun x y hx _ => modVal_inRange y hx) h
  | and => exact binaryReg_effect (f := fun _ => bitwVal Nat.land) (fun x y hx hy => bitwVal_inRange hand hx hy) h
  | andN => exact binaryNative_effect (f := fun _ => bitwVal Nat.land) (fun x y hx hy => bitwVal_inRange hand hx hy) h
  | or => exact binaryReg_effect (f := fun _ => bitwVal Nat.lor) (fun x y hx hy => bitwVal_inRange hor hx hy) h
  | orN => exact binaryNative_effect (f := fun _ => bitwVal Nat.lor) (fun x y hx hy => bitwVal_inRange hor hx hy) h
  | xor => exact binaryReg_effect (f := fun _ => bitwVal Nat.xor) (fun x y hx hy => bitwVal_inRange hxor hx hy) h
  | xorN => exact binaryNative_effect (f := fun _ => bitwVal Nat.xor) (fun x y hx hy => bitwVal_inRange hxor hx hy) h
  | not => exact unary_effect (fun x _ => notVal_inRange x) h
  | shl _ d => exact unary_effect (fun x _ => shlVal_inRange d _ x) h
  | shr _ d => exact unary_effect (fun x hx => shrVal_inRange d hx) h
  | cls => exact readout_effect (f := fun _ v => v.cls.code) h
  | rdlimb _ n => exact readout_effect (f := fun p v => v.limb p n) h
  | rdlen => exact readout_effect (f := fun p v => v.encLen p) h
  | cmp =>
    rcases withRegs_next h with h | ⟨x, y, -, -, h⟩
    · exact .illegal h
    · cases h; exact .cmp _ rfl
  | cmpN =>
    rcases withReg_next h with h | ⟨x, -, h⟩
    · exact .illegal h
    · cases h; exact .cmp _ rfl
  | mov =>
    rcases withDest_next h with h | ⟨hrd, h⟩
    · exact .illegal h
    rcases withReg_next h with h | ⟨y, hy, h⟩
    · exact .illegal h
    · exact .reg _ y hrd (State.regVal?_inRange hy) (finishReg_next h)
  | movN =>
    rcases withDest_next h with h | ⟨hrd, h⟩
    · exact .illegal h
    · exact .reg _ _ hrd (nat_inRange _ _ _) (finishReg_next h)
  | setc =>
    rcases withDest_next h with h | ⟨hrd, h⟩
    · exact .illegal h
    · exact .reg _ _ hrd (constVal_inRange _ _) (finishReg_next h)

/-- What a step does: it is refused for an unreachable register, or it idles, resets, records an illegal word, or
executes the decoded command. -/
theorem step_cases (s : State) :
    (s.reachableRegs = false ∧ step s = .refused .unreachableRegister) ∨
    (s.reachableRegs = true ∧
      ((s.host = [] ∧ step s = .next s) ∨
      (∃ c rest, s.host = .reset c :: rest ∧ step s = .next (State.applyReset { s with host := rest })) ∨
      (∃ c rest e, s.host = .issue c :: rest ∧ decode s.nreg (s.accepted c) = .error e ∧
        step s = .next (State.raiseIllegal { s with host := rest })) ∨
      (∃ c rest i, s.host = .issue c :: rest ∧ decode s.nreg (s.accepted c) = .ok i ∧
        step s = exec i { s with host := rest }))) := by
  rcases hr : s.reachableRegs with _ | _
  · exact .inl ⟨rfl, State.ifReachable_of_false hr _⟩
  refine .inr ⟨rfl, ?_⟩
  rw [step, State.ifReachable_of_true hr]
  rcases s.host with _ | ⟨c | c, rest⟩
  · exact .inl ⟨rfl, rfl⟩
  · rcases hd : decode s.nreg (s.accepted c) with e | i
    · exact .inr (.inr (.inl ⟨c, rest, e, rfl, hd, by simp only [hd]⟩))
    · exact .inr (.inr (.inr ⟨c, rest, i, rfl, hd, by simp only [hd]⟩))
  · exact .inr (.inl ⟨c, rest, rfl, rfl⟩)

end Sys2Proof.Machine
end

