-- ==== Sys2Proof/Laws/PerInstr.lean ====
section
/-!
SUPPORT. One family of facts about every instruction as syntax: the reserved field `Z` of its word is 0 (R81).
-/

namespace Sys2Proof

/-- The reserved field of a packed word is 0. -/
theorem zField_packWord (op : BitVec 6) (rd rs : RegIdx) (n s : Bool) : zField (packWord op rd rs n s) = 0 := by
  ext i hi
  simp [zField, packWord]
  omega

namespace Laws.ReservedField

/-- `Z` of the instruction's word is 0 (R81). -/
def Statement (i : Instr) : Prop := zField (encode i).word = 0

theorem nop : Statement (.nop) := zField_packWord _ _ _ _ _
theorem clrst : Statement (.clrst) := zField_packWord _ _ _ _ _
theorem add (rd rs : RegIdx) : Statement (.add rd rs) := zField_packWord _ _ _ _ _
theorem addN (rd : RegIdx) (signed : Bool) (opnd : Nat) : Statement (.addN rd signed opnd) := zField_packWord _ _ _ _ _
theorem sub (rd rs : RegIdx) : Statement (.sub rd rs) := zField_packWord _ _ _ _ _
theorem subN (rd : RegIdx) (signed : Bool) (opnd : Nat) : Statement (.subN rd signed opnd) := zField_packWord _ _ _ _ _
theorem mul (rd rs : RegIdx) : Statement (.mul rd rs) := zField_packWord _ _ _ _ _
theorem mulN (rd : RegIdx) (signed : Bool) (opnd : Nat) : Statement (.mulN rd signed opnd) := zField_packWord _ _ _ _ _
theorem div (rd rs : RegIdx) : Statement (.div rd rs) := zField_packWord _ _ _ _ _
theorem divN (rd : RegIdx) (signed : Bool) (opnd : Nat) : Statement (.divN rd signed opnd) := zField_packWord _ _ _ _ _
theorem mod (rd rs : RegIdx) : Statement (.mod rd rs) := zField_packWord _ _ _ _ _
theorem modN (rd : RegIdx) (signed : Bool) (opnd : Nat) : Statement (.modN rd signed opnd) := zField_packWord _ _ _ _ _
theorem and (rd rs : RegIdx) : Statement (.and rd rs) := zField_packWord _ _ _ _ _
theorem andN (rd : RegIdx) (signed : Bool) (opnd : Nat) : Statement (.andN rd signed opnd) := zField_packWord _ _ _ _ _
theorem or (rd rs : RegIdx) : Statement (.or rd rs) := zField_packWord _ _ _ _ _
theorem orN (rd : RegIdx) (signed : Bool) (opnd : Nat) : Statement (.orN rd signed opnd) := zField_packWord _ _ _ _ _
theorem xor (rd rs : RegIdx) : Statement (.xor rd rs) := zField_packWord _ _ _ _ _
theorem xorN (rd : RegIdx) (signed : Bool) (opnd : Nat) : Statement (.xorN rd signed opnd) := zField_packWord _ _ _ _ _
theorem cmp (rd rs : RegIdx) : Statement (.cmp rd rs) := zField_packWord _ _ _ _ _
theorem cmpN (rd : RegIdx) (signed : Bool) (opnd : Nat) : Statement (.cmpN rd signed opnd) := zField_packWord _ _ _ _ _
theorem mov (rd rs : RegIdx) : Statement (.mov rd rs) := zField_packWord _ _ _ _ _
theorem movN (rd : RegIdx) (signed : Bool) (opnd : Nat) : Statement (.movN rd signed opnd) := zField_packWord _ _ _ _ _
theorem not (rd : RegIdx) : Statement (.not rd) := zField_packWord _ _ _ _ _
theorem shl (rd : RegIdx) (dist : Nat) : Statement (.shl rd dist) := zField_packWord _ _ _ _ _
theorem shr (rd : RegIdx) (dist : Nat) : Statement (.shr rd dist) := zField_packWord _ _ _ _ _
theorem cls (rd : RegIdx) : Statement (.cls rd) := zField_packWord _ _ _ _ _
theorem setc (rd : RegIdx) (k : NamedConst) : Statement (.setc rd k) := zField_packWord _ _ _ _ _
theorem rdlimb (rd : RegIdx) (index : Nat) : Statement (.rdlimb rd index) := zField_packWord _ _ _ _ _
theorem rdlen (rd : RegIdx) : Statement (.rdlen rd) := zField_packWord _ _ _ _ _

end Laws.ReservedField

end Sys2Proof
end

