-- ==== Sys2Proof/Laws/Decode.lean ====
section
/-!
SUPPORT. The fields of a packed word (R81) and what the decoder reads from one: the small lemmas of the encoder.
-/

namespace Sys2Proof

theorem opField_packWord (op rd rs n s) : opField (packWord op rd rs n s) = op := by
  ext i hi
  simp [opField, packWord, BitVec.getLsbD_ofBool, hi]
  interval_cases i <;> simp [BitVec.getLsbD_of_ge]

theorem rdField_packWord (op rd rs n s) : rdField (packWord op rd rs n s) = rd := by
  ext i hi
  simp [rdField, packWord, BitVec.getLsbD_ofBool, hi]
  interval_cases i <;> simp [BitVec.getLsbD_of_ge]

theorem rsField_packWord (op rd rs n s) : rsField (packWord op rd rs n s) = rs := by
  ext i hi
  simp [rsField, packWord, BitVec.getLsbD_ofBool, hi]
  interval_cases i <;> simp

theorem nBit_packWord (op rd rs n s) : nBit (packWord op rd rs n s) = n := by
  simp [nBit, packWord]

theorem sBit_packWord (op rd rs n s) : sBit (packWord op rd rs n s) = s := by
  simp [sBit, packWord]

theorem kField_packWord (op rd rs n s) : kField (packWord op rd rs n s) = rs.extractLsb' 0 2 := by
  ext i hi
  simp [kField, packWord, BitVec.getLsbD_ofBool]
  interval_cases i <;> simp

theorem kHighField_packWord (op rd rs n s) : kHighField (packWord op rd rs n s) = rs.extractLsb' 2 2 := by
  ext i hi
  simp [kHighField, packWord, BitVec.getLsbD_ofBool]
  interval_cases i <;> simp

theorem packWord_classU_zero (op : BitVec 6) (rd : RegIdx) : (packWord op rd 0 false false).extractLsb' 16 6 = 0 := by
  revert op rd; decide +kernel

theorem packWord_classZ_zero (op : BitVec 6) : (packWord op 0 0 false false).extractLsb' 16 10 = 0 := by
  revert op; decide +kernel

theorem decodeB_packWord_reg {nreg op rd rs v reg nat} (h1 : rd.toNat < nreg) (h2 : rs.toNat < nreg) :
    decodeB nreg ⟨packWord op rd rs false false, v⟩ reg nat = .ok (reg rd rs) := by
  simp [decodeB, rdField_packWord, nBit_packWord, sBit_packWord, rsField_packWord, Nat.not_le.2 h1, Nat.not_le.2 h2]

theorem decodeB_packWord_native {nreg op rd s v reg nat} (h1 : rd.toNat < nreg) :
    decodeB nreg ⟨packWord op rd 0 true s, v⟩ reg nat = .ok (nat rd s v) := by
  simp [decodeB, rdField_packWord, nBit_packWord, sBit_packWord, rsField_packWord, Nat.not_le.2 h1]

theorem decodeU_packWord {nreg op rd mk} (h1 : rd.toNat < nreg) :
    decodeU nreg (packWord op rd 0 false false) mk = .ok (mk rd) := by
  simp only [decodeU, rdField_packWord, packWord_classU_zero]; simp [h1]

theorem decode_packWord (nreg op rd rs n s v) :
    decode nreg ⟨packWord op rd rs n s, v⟩ = decodeRow nreg ⟨packWord op rd rs n s, v⟩ op.toNat := by
  simp [decode, zField_packWord, opField_packWord]

theorem decodeK_packWord {nreg rd k} (h : rd.toNat < nreg) :
    decodeK nreg (packWord 0x0F rd (NamedConst.code k) false false) = .ok (.setc rd k) := by
  simp only [decodeK, rdField_packWord, kHighField_packWord, nBit_packWord, sBit_packWord, kField_packWord]
  cases k <;> simp [NamedConst.code, namedConst, h]

theorem decodeZ_packWord {op i} : decodeZ (packWord op 0 0 false false) i = .ok i := by
  rw [decodeZ, packWord_classZ_zero]; rfl

end Sys2Proof
end

