-- ==== Sys2Proof/Certificates/Slice0/Obligations.lean ====
section
/-!
DEFINITION. The statements for the provers, in the order of OBLIGATIONS.json.
-/

open Sys2Proof Sys2Proof.Machine

/-- For all parameters and every instruction that is well formed under them (register fields name registers, operand
fits the port), decode of encode of the instruction is that instruction: no bit of an operand is dropped. (Derived:
30_encoding.md section 1; 30_encoding.md section 2 (decode).) -/
def Obligations.EncodedWordDecodesBack : Prop :=
  ∀ (p : Params) (i : Instr), i.wellFormed p = true → decode p.nreg (encode i) = .ok i

/-- Nine legal words of the spec's programs and tables decode to the instructions they stand for, one of each family,
and two illegal ones are rejected with the case the table names. (Derived: 95_test_vectors.md L2.3 and L3.) -/
def Obligations.SpecWordsDecode : Prop :=
  decode 16 ⟨0x38420000, 100⟩ = .ok (.movN 1 false 100) ∧ decode 16 ⟨0x38C30000, 5⟩ = .ok (.movN 3 true 5) ∧
  decode 16 ⟨0x07FC0000, 0⟩ = .ok (.add 15 15) ∧ decode 16 ⟨0x10C80000, 0⟩ = .ok (.div 3 2) ∧
  decode 16 ⟨0x1C420000, 12345⟩ = .ok (.orN 1 false 12345) ∧ decode 16 ⟨0x28400000, 40⟩ = .ok (.shl 1 40) ∧
  decode 16 ⟨0x30C40000, 0⟩ = .ok (.cmp 3 1) ∧ decode 16 ⟨0x3C8C0000, 0⟩ = .ok (.setc 2 .max) ∧
  decode 16 ⟨0x48000000, 9⟩ = .ok .clrst ∧ decode 16 ⟨0x4C000000, 0⟩ = .error .reservedOpcode ∧
  decode 16 ⟨0x04010000, 0⟩ = .error .signedRegisterForm

/-- For every word and OPND with NREG = 16: if decode gives an instruction, the rows whose mask and pattern cover the
word are exactly one, and its mnemonic is the instruction's; if decode says Illegal, no row covers the word.
(Derived: 30_encoding.md section 2 (opcode map and decode); opcode_table.json.) -/
def Obligations.DecodeNamesOneTableRow : Prop :=
  ∀ (w : Word) (opnd : Nat),
    match decode 16 ⟨w, opnd⟩ with
    | .ok i => (opcodeTable.filter fun r => r.covers w).map TableRow.mnemonic = [i.mnemonic]
    | .error _ => opcodeTable.filter (fun r => r.covers w) = []

/-- With the fields read from the word by division (OP = word / 2^26 and so on), decode rejects the word exactly when
one of the eight listed cases holds; and, in a state with no unreachable register (R40), a step on a rejected
command sets STATUS.ILL, advances ci, takes the command from the host and changes nothing else. (R89) -/
def Obligations.IllegalExactlyInTheEightCases : Prop :=
  (∀ (n : Nat) (c : Command), (∃ e, decode n c = .error e) ↔ IllegalCase n c.word.toNat) ∧
  (∀ (s : State) (c : Command) (rest : List HostInput), s.reachableRegs = true → s.host = .issue c :: rest →
    IllegalCase s.regs.length c.word.toNat →
    step s = .next { s with host := rest, status := { s.status with ill := true }, ci := s.ci + 1 })

/-- If decode gives an instruction for a command whose OPND fits the port, every register field the instruction uses
names a register and its operand fits. For every NREG and word and any two operands, decode rejects both commands
for the same reason or gives instructions of the same row with the same register fields. (Derived: 30_encoding.md
section 1 (register fields, OPND); 30_encoding.md section 2 (decode and its last paragraph).) -/
def Obligations.DecodedInstructionsAreWellFormed : Prop :=
  (∀ (p : Params) (c : Command) (i : Instr), c.opnd < 2 ^ p.w → decode p.nreg c = .ok i → i.wellFormed p = true) ∧
  (∀ (n : Nat) (w : Word) (a b : Nat),
    match decode n ⟨w, a⟩, decode n ⟨w, b⟩ with
    | .ok i, .ok j => i.mnemonic = j.mnemonic ∧ i.regFields = j.regFields
    | .error e, .error f => e = f
    | _, _ => False)

/-- For all parameters: every length from 0 to CAP + 1 is below 2^LEN_W, any width with that property is at least
LEN_W, LEN_W is the ceiling of the base-2 logarithm of CAP + 2, and it is 3 in the reference configuration. (R11) -/
def Obligations.LengthFieldWidthIsLeast : Prop :=
  (∀ (p : Params), (∀ l, l ≤ p.cap + 1 → l < 2 ^ p.lenW) ∧ (∀ n, (∀ l, l ≤ p.cap + 1 → l < 2 ^ n) → p.lenW ≤ n) ∧
    p.lenW = Nat.clog 2 (p.cap + 2)) ∧ Params.reference.lenW = 3

/-- When the host's next input is a command, in a state with no unreachable register (R40), the step takes it from the
host's list and is exec of the instruction that decode reads from it (OPND cut to W bits by the port); when decode
rejects it, the step raises IllegalCommand. ci advances by 1 in each case where a next state is given, that state
is the only one (the step is a function), and a state that meets the invariant has one. (R290) -/
def Obligations.StepRunsTheDecodedCommand : Prop :=
  ∀ (s : State) (c : Command) (rest : List HostInput), s.host = .issue c :: rest →
    (∀ i, s.reachableRegs = true → decode s.regs.length ⟨c.word, c.opnd % 2 ^ s.params.w⟩ = .ok i →
      step s = exec i { s with host := rest }) ∧
    (∀ e, s.reachableRegs = true → decode s.regs.length ⟨c.word, c.opnd % 2 ^ s.params.w⟩ = .error e →
      step s = .next (State.raiseIllegal { s with host := rest })) ∧
    (∀ t, step s = .next t → t.ci = s.ci + 1 ∧ t.host = rest) ∧ (s.Inv → ∃ t, step s = .next t)

/-- When decode rejects the next command, in a state with no unreachable register (R40), the step answers the state
before it with STATUS.ILL = 1, ci one more and the command taken from the host: no register, no RES bit and no
STATUS.CMP bit changes, and a second illegal command leaves ILL 1. (R261) -/
def Obligations.IllegalCommandIsPrecise : Prop :=
  ∀ (s : State) (c : Command) (rest : List HostInput) (e : IllegalReason), s.reachableRegs = true → s.host = .issue c :: rest →
    decode s.nreg (s.accepted c) = .error e →
    step s = .next { s with host := rest, status := ⟨s.status.lt, s.status.eq, s.status.gt, s.status.un, true⟩, ci := s.ci + 1 }

/-- For every instruction and state: if a register field the instruction uses names no register, exec sets STATUS.ILL
and advances ci and changes nothing else; in the reference configuration every 4-bit value names a register. That
exec itself records the event is the model's choice (log entry 1, DEDUCED): the spec says it of the command word,
and decode never gives such an instruction. (Derived: 30_encoding.md section 1 (register fields of the command
word); 60_exceptions.md section 1 (IllegalCommand).) -/
def Obligations.AbsentRegisterIsIllegal : Prop :=
  (∀ (s : State) (i : Instr), (∃ r ∈ i.regFields, s.regs.length ≤ r.toNat) →
    exec i s = .next { s with status := { s.status with ill := true }, ci := s.ci + 1 }) ∧
  (∀ (r : RegIdx), r.toNat < State.reset.regs.length)

/-- From a state in which some register has len above CAP + 1, or a length from 2 to CAP with a zero top limb, every
step is refused by the name unreachableRegister, whatever the host does next. An instruction whose register fields
all name registers and that reads such a register is refused by exec too. reachableRegs rules such registers out,
and a state with the invariant has reachableRegs (it is kept by every step, a statement of its own). The name of
the refusal, that it covers an idle step and a reset as well, and the refusal by exec are the model's choice (log
entry 4, DESIGN CHOICE); that no command or reset produces such fields is an inference the spec marks as derived.
(Derived: 10_state.md section 1 (unreachable field combinations, which the spec marks as derived).) -/
def Obligations.UnreachableRegisterIsRefused : Prop :=
  (∀ (s : State) (n : NReg), n ∈ s.regs →
    (s.cap + 1 < n.len ∨ (2 ≤ n.len ∧ n.len ≤ s.cap ∧ n.limb.getD (n.len - 1) 0 = 0)) →
    step s = .refused .unreachableRegister) ∧
  (∀ (s : State) (i : Instr) (r : RegIdx) (n : NReg), i.regsExist s.params = true → r ∈ readRegs i →
    s.regs[r.toNat]? = some n → (s.cap + 1 < n.len ∨ (2 ≤ n.len ∧ n.len ≤ s.cap ∧ n.limb.getD (n.len - 1) 0 = 0)) →
    exec i s = .refused .unreachableRegister) ∧
  (∀ (s : State), s.Inv → s.reachableRegs = true) ∧
  (∀ (s : State), s.reachableRegs = true → ∀ n ∈ s.regs, ¬ (s.cap + 1 < n.len ∨ (2 ≤ n.len ∧ n.len ≤ s.cap ∧ n.limb.getD (n.len - 1) 0 = 0)))

/-- If every register field of an instruction names a register and every register it reads holds a value, exec answers
a next state with ci one more, and no illegal-command event: STATUS.ILL is as before (CLRST, which clears it,
apart). This is so for all values of the registers and of OPND. (R260) -/
def Obligations.CommandsCompleteOnAllValues : Prop :=
  ∀ (s : State) (i : Instr), i.regsExist s.params = true → (∀ r ∈ readRegs i, (s.regVal? r).isSome = true) →
    ∃ t, exec i s = .next t ∧ t.ci = s.ci + 1 ∧ (i ≠ .clrst → t.status.ill = s.status.ill)

/-- With no input from the host, and no unreachable register (R40), a step answers the same state. With a command next,
in a state that meets the invariant, the step answers a next state in which that command is no longer waiting: CORE
never hangs. (R272) -/
def Obligations.IdleCoreKeepsItsState : Prop :=
  (∀ (s : State), s.reachableRegs = true → s.host = [] → step s = .next s) ∧
  (∀ (s : State) (c : Command) (rest : List HostInput), s.Inv → s.host = .issue c :: rest →
    ∃ t, step s = .next t ∧ t.host = rest ∧ t.ci = s.ci + 1)

/-- In State.reset (reference configuration) each of the sixteen registers has len 0 and reads NaN, RES is 0, STATUS
reads 0x00000000, ci is 0 and no command is waiting. The limbs, which R52 leaves unspecified, are the model's
choice (log entry 3) and nothing is said of them. (Derived: 10_state.md section 4 (reset values);
70_reset_and_hazards.md section 1.) -/
def Obligations.ResetStateValues : Prop :=
  State.reset.params = Params.reference ∧ (∀ (r : RegIdx), State.reset.regVal? r = some .nan) ∧
  (∀ n ∈ State.reset.regs, n.len = 0) ∧ State.reset.res = 0 ∧ State.reset.status.word = 0 ∧ State.reset.ci = 0 ∧
  State.reset.host = []

/-- When the host resets CORE, in a state with no unreachable register (R40), the step answers one state whatever
command was in progress: every register has len 0 and reads NaN, RES is 0, STATUS reads 0, ci is 0, the parameters
stay, and the rest of the host's inputs follow. (R280) -/
def Obligations.ResetEventRestoresResetValues : Prop :=
  ∀ (s : State) (rest : List HostInput), s.reachableRegs = true → ∃ t,
    (∀ inProgress, step { s with host := .reset inProgress :: rest } = .next t) ∧
    t.params = s.params ∧ (∀ r : RegIdx, r.toNat < s.regs.length → t.regVal? r = some .nan) ∧ (∀ n ∈ t.regs, n.len = 0) ∧
    t.res = 0 ∧ t.status.word = 0 ∧ t.ci = 0 ∧ t.host = rest

/-- State.reset meets the invariant (legal parameters, every register normalized with limbs of LIMB_W bits, RES of W
bits, STATUS.CMP zero or one-hot), and so does the reset state of a CORE with any legal LIMB_W, CAP and NREG.
(Derived: 10_state.md section 1 (normalized form); 10_state.md section 4; 00_scope.md section 3.) -/
def Obligations.ResetStateMeetsInvariant : Prop :=
  State.reset.Inv ∧ ∀ (p : Params), p.Ok → (State.resetWith p).Inv

/-- From every state that meets the invariant, not only states a run reaches, a step that answers a next state answers
one that meets it: every register satisfies the normalized-form invariant with limbs of LIMB_W bits, RES fits W
bits and STATUS.CMP is 0000 or one-hot. (Derived: 10_state.md section 1 (normalized form, an inference the spec
marks as derived); 10_state.md section 2 (legal values of STATUS.CMP).) -/
def Obligations.EveryStepKeepsTheInvariant : Prop :=
  ∀ (s t : State), s.Inv → step s = .next t → t.Inv

/-- For every state that meets the invariant and whatever the host does next (any command word, any OPND, reset or
nothing), the step answers a next state: nothing faults and nothing is refused. (Derived: 70_reset_and_hazards.md
section 2 (execution model); 60_exceptions.md section 1.) -/
def Obligations.StepIsTotal : Prop :=
  ∀ (s : State), s.Inv → ∃ t, step s = .next t

/-- If two states of a CORE with legal parameters agree on the parameters, on the value of every register, on RES,
STATUS, ci and the host's inputs, then their outputs are equal, and their steps both answer next states that agree
in the same way or both refuse with the same name: no command stream can observe an unspecified limb. (R50) -/
def Obligations.UnspecifiedLimbsAreUnobservable : Prop :=
  ∀ (s u : State), s.params.Ok → Agree s u → s.outputs = u.outputs ∧
    match step s, step u with
    | .next s', .next u' => Agree s' u'
    | .refused a, .refused b => a = b
    | _, _ => False

/-- If a step takes a state with STATUS.ILL = 1 to one with STATUS.ILL = 0, the host's input was a reset or the command
word 0x48000000 (CLRST); and a second illegal command while ILL = 1 leaves it 1. (R266) -/
def Obligations.IllIsStickyUntilClrstOrReset : Prop :=
  (∀ (s t : State), step s = .next t → s.status.ill = true → t.status.ill = false →
    ∃ x rest, s.host = x :: rest ∧ ((∃ c, x = .reset c) ∨ (∃ v, x = .issue ⟨0x48000000, v⟩))) ∧
  (∀ (s t : State) (c : Command) (rest : List HostInput) (e : IllegalReason), s.host = .issue c :: rest →
    decode s.nreg (s.accepted c) = .error e → s.status.ill = true → step s = .next t → t.status.ill = true)

/-- An instruction other than CLS, RDLEN and RDLIMB that answers a next state leaves RES. What those three write fits W
bits. Changing RES alone before any instruction changes nothing else in what the instruction answers (no command
reads it). The host reads RES at every command boundary. (R42) -/
def Obligations.OnlyReadoutCommandsWriteRes : Prop :=
  (∀ (s t : State) (i : Instr), exec i s = .next t → writesRes i = false → t.res = s.res) ∧
  (∀ (s t : State) (i : Instr), exec i s = .next t → writesRes i = true → t.res = s.res ∨ t.res < 2 ^ s.params.w) ∧
  (∀ (s t : State) (i : Instr) (v : Nat), exec i s = .next t →
    ∃ t', exec i { s with res := v } = .next t' ∧ { t' with res := 0 } = { t with res := 0 }) ∧
  (∀ (s : State), s.outputs.res = s.res)

/-- An instruction other than CMP, CMP.N and CLRST, whose register fields all name registers, leaves all of STATUS
whenever it answers a next state, whatever its result: overflow, a negative difference and division by zero show in
the result value only. (R45) -/
def Obligations.OnlyCompareAndClearWriteStatus : Prop :=
  ∀ (s t : State) (i : Instr), i.regsExist s.params = true → exec i s = .next t → writesStatus i = false →
    t.status = s.status

/-- Whatever a step does, the limb width, the capacity and the number of registers are as before: capacity is fixed for
the lifetime of a value and no operation may grow it. (Derived: 00_scope.md section 3 (CAP, NREG).) -/
def Obligations.ParametersNeverChange : Prop :=
  ∀ (s t : State), step s = .next t → t.limbW = s.limbW ∧ t.cap = s.cap ∧ t.regs.length = s.regs.length

/-- ci is 0 in the reset state; a step that takes a command and answers a next state adds exactly 1, illegal commands
included; and ci is not visible: the outputs do not depend on it, and no bound wraps it. (R48) -/
def Obligations.CommandIndexCountsCompletedCommands : Prop :=
  State.reset.ci = 0 ∧
  (∀ (s t : State) (c : Command) (rest : List HostInput), s.host = .issue c :: rest → step s = .next t → t.ci = s.ci + 1) ∧
  (∀ (s : State) (n : Nat), State.outputs { s with ci := n } = s.outputs)

/-- The word the host reads has LT in bit 0, EQ in bit 1, GT in bit 2, UN in bit 3, ILL in bit 4, and every bit from 5
up is 0, for every STATUS. (Derived: 10_state.md section 2 (fields of STATUS); 92_eei_decisions.md D22.) -/
def Obligations.StatusWordLayout : Prop :=
  ∀ (st : Status), st.word.getLsbD 0 = st.lt ∧ st.word.getLsbD 1 = st.eq ∧ st.word.getLsbD 2 = st.gt ∧
    st.word.getLsbD 3 = st.un ∧ st.word.getLsbD 4 = st.ill ∧ ∀ k, 5 ≤ k → st.word.getLsbD k = false

/-- ADD Nd, Ns and ADD.N Nd, #v write the cell of the ADD table: NaN if either is NaN, else Infinity if either is, else
the sum, Infinity past MAX. Both forms complete for every value of the receiver and the operand, rd = rs included;
every other register, RES, STATUS and the parameters stay and ci is one more. The words of class B with this opcode
decode to the two forms. (R141, R142) -/
def Obligations.AddGivesSaturatedSum : Prop :=
  ∀ (s : State) (rd : RegIdx) (x : Val), s.params.Ok → s.regVal? rd = some x →
    (∀ (rs : RegIdx) (y : Val), s.regVal? rs = some y →
      (∀ v, decode s.regs.length ⟨packWord 0x01 rd rs false false, v⟩ = .ok (.add rd rs)) ∧
      ∃ t, exec (.add rd rs) s = .next t ∧ t.regVal? rd = some (addCell s.params x y) ∧ OnlyReg rd s t) ∧
    (∀ (sg : Bool) (v : Nat), v < 2 ^ s.params.w →
      decode s.regs.length ⟨packWord 0x01 rd 0 true sg, v⟩ = .ok (.addN rd sg v) ∧
      ∃ t, exec (.addN rd sg v) s = .next t ∧ t.regVal? rd = some (addCell s.params x (natCell s.params v sg)) ∧ OnlyReg rd s t)

/-- SUB and SUB.N write the cell of the SUB table: NaN if either is NaN or both are Infinity, else Infinity if either
is, else the difference, Infinity when the right operand is larger. Both forms complete for every value of the
receiver and the operand, rd = rs included; every other register, RES, STATUS and the parameters stay and ci is one
more. The words of class B with this opcode decode to the two forms. (R144, R145) -/
def Obligations.SubGivesDifferenceOrInfinity : Prop :=
  ∀ (s : State) (rd : RegIdx) (x : Val), s.params.Ok → s.regVal? rd = some x →
    (∀ (rs : RegIdx) (y : Val), s.regVal? rs = some y →
      (∀ v, decode s.regs.length ⟨packWord 0x02 rd rs false false, v⟩ = .ok (.sub rd rs)) ∧
      ∃ t, exec (.sub rd rs) s = .next t ∧ t.regVal? rd = some (subCell x y) ∧ OnlyReg rd s t) ∧
    (∀ (sg : Bool) (v : Nat), v < 2 ^ s.params.w →
      decode s.regs.length ⟨packWord 0x02 rd 0 true sg, v⟩ = .ok (.subN rd sg v) ∧
      ∃ t, exec (.subN rd sg v) s = .next t ∧ t.regVal? rd = some (subCell x (natCell s.params v sg)) ∧ OnlyReg rd s t)

/-- MUL and MUL.N write the cell of the MUL table: NaN if either is NaN or one is Zero and the other Infinity, else
Infinity if either is, else the product, Infinity past MAX. Both forms complete for every value of the receiver and
the operand, rd = rs included; every other register, RES, STATUS and the parameters stay and ci is one more. The
words of class B with this opcode decode to the two forms. (R161, R162) -/
def Obligations.MulGivesSaturatedProduct : Prop :=
  ∀ (s : State) (rd : RegIdx) (x : Val), s.params.Ok → s.regVal? rd = some x →
    (∀ (rs : RegIdx) (y : Val), s.regVal? rs = some y →
      (∀ v, decode s.regs.length ⟨packWord 0x03 rd rs false false, v⟩ = .ok (.mul rd rs)) ∧
      ∃ t, exec (.mul rd rs) s = .next t ∧ t.regVal? rd = some (mulCell s.params x y) ∧ OnlyReg rd s t) ∧
    (∀ (sg : Bool) (v : Nat), v < 2 ^ s.params.w →
      decode s.regs.length ⟨packWord 0x03 rd 0 true sg, v⟩ = .ok (.mulN rd sg v) ∧
      ∃ t, exec (.mulN rd sg v) s = .next t ∧ t.regVal? rd = some (mulCell s.params x (natCell s.params v sg)) ∧ OnlyReg rd s t)

/-- DIV and DIV.N write the cell of the DIV table: NaN if either is NaN, the divisor is Zero or both are Infinity; Zero
for a finite dividend and divisor Infinity; Infinity for a dividend Infinity; else the floor quotient. Both forms
complete for every value of the receiver and the operand, rd = rs included; every other register, RES, STATUS and
the parameters stay and ci is one more. The words of class B with this opcode decode to the two forms. (R165, R166) -/
def Obligations.DivGivesFloorQuotient : Prop :=
  ∀ (s : State) (rd : RegIdx) (x : Val), s.params.Ok → s.regVal? rd = some x →
    (∀ (rs : RegIdx) (y : Val), s.regVal? rs = some y →
      (∀ v, decode s.regs.length ⟨packWord 0x04 rd rs false false, v⟩ = .ok (.div rd rs)) ∧
      ∃ t, exec (.div rd rs) s = .next t ∧ t.regVal? rd = some (divCell x y) ∧ OnlyReg rd s t) ∧
    (∀ (sg : Bool) (v : Nat), v < 2 ^ s.params.w →
      decode s.regs.length ⟨packWord 0x04 rd 0 true sg, v⟩ = .ok (.divN rd sg v) ∧
      ∃ t, exec (.divN rd sg v) s = .next t ∧ t.regVal? rd = some (divCell x (natCell s.params v sg)) ∧ OnlyReg rd s t)

/-- MOD and MOD.N write the cell of the MOD table: NaN if either is NaN, the divisor is Zero or the dividend is
Infinity; the dividend unchanged for divisor Infinity (decision D13, which R168 states); else the remainder. Both
forms complete for every value of the receiver and the operand, rd = rs included; every other register, RES, STATUS
and the parameters stay and ci is one more. The words of class B with this opcode decode to the two forms. (R168,
R169) -/
def Obligations.ModGivesRemainder : Prop :=
  ∀ (s : State) (rd : RegIdx) (x : Val), s.params.Ok → s.regVal? rd = some x →
    (∀ (rs : RegIdx) (y : Val), s.regVal? rs = some y →
      (∀ v, decode s.regs.length ⟨packWord 0x05 rd rs false false, v⟩ = .ok (.mod rd rs)) ∧
      ∃ t, exec (.mod rd rs) s = .next t ∧ t.regVal? rd = some (modCell x y) ∧ OnlyReg rd s t) ∧
    (∀ (sg : Bool) (v : Nat), v < 2 ^ s.params.w →
      decode s.regs.length ⟨packWord 0x05 rd 0 true sg, v⟩ = .ok (.modN rd sg v) ∧
      ∃ t, exec (.modN rd sg v) s = .next t ∧ t.regVal? rd = some (modCell x (natCell s.params v sg)) ∧ OnlyReg rd s t)

/-- AND and AND.N write the cell of the table of R191: NaN if either is NaN, else Infinity if either is (Infinity
absorbs, even with Zero), else the bitwise and of the magnitudes. Both forms complete for every value of the
receiver and the operand, rd = rs included; every other register, RES, STATUS and the parameters stay and ci is one
more. The words of class B with this opcode decode to the two forms. (R192, R193) -/
def Obligations.AndGivesBitwiseResult : Prop :=
  ∀ (s : State) (rd : RegIdx) (x : Val), s.params.Ok → s.regVal? rd = some x →
    (∀ (rs : RegIdx) (y : Val), s.regVal? rs = some y →
      (∀ v, decode s.regs.length ⟨packWord 0x06 rd rs false false, v⟩ = .ok (.and rd rs)) ∧
      ∃ t, exec (.and rd rs) s = .next t ∧ t.regVal? rd = some (bitwCell Nat.land x y) ∧ OnlyReg rd s t) ∧
    (∀ (sg : Bool) (v : Nat), v < 2 ^ s.params.w →
      decode s.regs.length ⟨packWord 0x06 rd 0 true sg, v⟩ = .ok (.andN rd sg v) ∧
      ∃ t, exec (.andN rd sg v) s = .next t ∧ t.regVal? rd = some (bitwCell Nat.land x (natCell s.params v sg)) ∧ OnlyReg rd s t)

/-- OR and OR.N write the cell of the table of R191: NaN if either is NaN, else Infinity if either is (Infinity
absorbs, even with Zero), else the bitwise or of the magnitudes. Both forms complete for every value of the
receiver and the operand, rd = rs included; every other register, RES, STATUS and the parameters stay and ci is one
more. The words of class B with this opcode decode to the two forms. (R194, R195) -/
def Obligations.OrGivesBitwiseResult : Prop :=
  ∀ (s : State) (rd : RegIdx) (x : Val), s.params.Ok → s.regVal? rd = some x →
    (∀ (rs : RegIdx) (y : Val), s.regVal? rs = some y →
      (∀ v, decode s.regs.length ⟨packWord 0x07 rd rs false false, v⟩ = .ok (.or rd rs)) ∧
      ∃ t, exec (.or rd rs) s = .next t ∧ t.regVal? rd = some (bitwCell Nat.lor x y) ∧ OnlyReg rd s t) ∧
    (∀ (sg : Bool) (v : Nat), v < 2 ^ s.params.w →
      decode s.regs.length ⟨packWord 0x07 rd 0 true sg, v⟩ = .ok (.orN rd sg v) ∧
      ∃ t, exec (.orN rd sg v) s = .next t ∧ t.regVal? rd = some (bitwCell Nat.lor x (natCell s.params v sg)) ∧ OnlyReg rd s t)

/-- XOR and XOR.N write the cell of the table of R191: NaN if either is NaN, else Infinity if either is (Infinity
absorbs, even with Zero), else the bitwise xor of the magnitudes. Both forms complete for every value of the
receiver and the operand, rd = rs included; every other register, RES, STATUS and the parameters stay and ci is one
more. The words of class B with this opcode decode to the two forms. (R196, R197) -/
def Obligations.XorGivesBitwiseResult : Prop :=
  ∀ (s : State) (rd : RegIdx) (x : Val), s.params.Ok → s.regVal? rd = some x →
    (∀ (rs : RegIdx) (y : Val), s.regVal? rs = some y →
      (∀ v, decode s.regs.length ⟨packWord 0x08 rd rs false false, v⟩ = .ok (.xor rd rs)) ∧
      ∃ t, exec (.xor rd rs) s = .next t ∧ t.regVal? rd = some (bitwCell Nat.xor x y) ∧ OnlyReg rd s t) ∧
    (∀ (sg : Bool) (v : Nat), v < 2 ^ s.params.w →
      decode s.regs.length ⟨packWord 0x08 rd 0 true sg, v⟩ = .ok (.xorN rd sg v) ∧
      ∃ t, exec (.xorN rd sg v) s = .next t ∧ t.regVal? rd = some (bitwCell Nat.xor x (natCell s.params v sg)) ∧ OnlyReg rd s t)

/-- NOT Nd completes for every value: NaN gives NaN, Infinity gives Infinity, Fin(a) gives Fin(MAX - a), which equals
Fin(MAX XOR a); every other register, RES and STATUS stay and ci is one more. The word of class U with opcode 0x09
decodes to it. (R198) -/
def Obligations.NotComplementsWithinCapacity : Prop :=
  ∀ (s : State) (rd : RegIdx) (x : Val), s.params.Ok → s.regVal? rd = some x →
    (∀ v, decode s.regs.length ⟨packWord 0x09 rd 0 false false, v⟩ = .ok (.not rd)) ∧
    (∃ t, exec (.not rd) s = .next t ∧ OnlyReg rd s t ∧ t.regVal? rd = some (match x with
      | .nan => .nan
      | .inf => .inf
      | .fin a => .fin (s.params.base ^ s.params.cap - 1 - a))) ∧
    (∀ a, x = .fin a → s.params.base ^ s.params.cap - 1 - a = Nat.xor (s.params.base ^ s.params.cap - 1) a)

/-- SHL Nd, #d completes for every value and every distance of W bits: NaN and Infinity stay, Zero stays Zero, Fin(a)
gives a * 2^d, Infinity past MAX; every other register, RES and STATUS stay and ci is one more. The word of class U
with opcode 0x0A decodes to it. (R210) -/
def Obligations.ShlMultipliesOrSaturates : Prop :=
  ∀ (s : State) (rd : RegIdx) (x : Val) (d : Nat), s.params.Ok → s.regVal? rd = some x → d < 2 ^ s.params.w →
    decode s.regs.length ⟨packWord 0x0A rd 0 false false, d⟩ = .ok (.shl rd d) ∧
    ∃ t, exec (.shl rd d) s = .next t ∧ OnlyReg rd s t ∧ t.regVal? rd = some (match x with
      | .nan => .nan
      | .inf => .inf
      | .fin a => finCell s.params (a * 2 ^ d))

/-- SHR Nd, #d completes for every value and every distance of W bits: NaN and Infinity stay, Fin(a) gives Fin(a div
2^d), so Zero past the bit length; every other register, RES and STATUS stay and ci is one more. The word of class
U with opcode 0x0B decodes to it. (R211) -/
def Obligations.ShrDividesByPowerOfTwo : Prop :=
  ∀ (s : State) (rd : RegIdx) (x : Val) (d : Nat), s.params.Ok → s.regVal? rd = some x → d < 2 ^ s.params.w →
    decode s.regs.length ⟨packWord 0x0B rd 0 false false, d⟩ = .ok (.shr rd d) ∧
    ∃ t, exec (.shr rd d) s = .next t ∧ OnlyReg rd s t ∧ t.regVal? rd = some (match x with
      | .nan => .nan
      | .inf => .inf
      | .fin a => .fin (a / 2 ^ d))

/-- CMP Nd, Ns and CMP.N Nd, #v complete for every value of the operands: STATUS.CMP shows the cell of the outcome
table (unordered with NaN and for Infinity against finite, Infinity equals Infinity, finite values by magnitude);
ILL, RES and every register stay and ci is one more. The words of class B with opcode 0x0C decode to the two forms.
(R231, R232, R233) -/
def Obligations.CmpShowsTheOutcome : Prop :=
  ∀ (s : State) (rd : RegIdx) (x : Val), s.params.Ok → s.regVal? rd = some x →
    (∀ (rs : RegIdx) (y : Val), s.regVal? rs = some y →
      (∀ v, decode s.regs.length ⟨packWord 0x0C rd rs false false, v⟩ = .ok (.cmp rd rs)) ∧
      ∃ t, exec (.cmp rd rs) s = .next t ∧ ShowsOutcome (cmpCell x y) s t ∧ OnlyStatus s t) ∧
    (∀ (sg : Bool) (v : Nat), v < 2 ^ s.params.w →
      decode s.regs.length ⟨packWord 0x0C rd 0 true sg, v⟩ = .ok (.cmpN rd sg v) ∧
      ∃ t, exec (.cmpN rd sg v) s = .next t ∧ ShowsOutcome (cmpCell x (natCell s.params v sg)) s t ∧ OnlyStatus s t)

/-- After a STATUS that shows an outcome: equal is true exactly for EQ, not-equal exactly for LT, GT or UN, less for
LT, less-or-equal for LT or EQ, greater for GT, greater-or-equal for GT or EQ; so an unordered outcome makes every
predicate but not-equal false, and Infinity against itself makes both less-or-equal and greater-or-equal true.
(R234) -/
def Obligations.RelationalPredicatesReadTheOutcome : Prop :=
  (∀ (s t : State) (o : CmpOutcome), ShowsOutcome o s t →
    (t.status.holds .eq = true ↔ o = .eq) ∧ (t.status.holds .ne = true ↔ o = .lt ∨ o = .gt ∨ o = .un) ∧
    (t.status.holds .lt = true ↔ o = .lt) ∧ (t.status.holds .le = true ↔ o = .lt ∨ o = .eq) ∧
    (t.status.holds .gt = true ↔ o = .gt) ∧ (t.status.holds .ge = true ↔ o = .gt ∨ o = .eq)) ∧
  (∀ (s t : State), ShowsOutcome (cmpCell .inf .inf) s t → t.status.holds .le = true ∧ t.status.holds .ge = true)

/-- CLS Nd completes for every value: RES becomes 0 for NaN, 1 for Zero, 2 for a non-zero finite value (Max among them)
and 3 for Infinity; no register and no STATUS bit changes and ci is one more. The word of class U with opcode 0x0D
decodes to it. (R125) -/
def Obligations.ClsDeliversTheCategoryCode : Prop :=
  ∀ (s : State) (rd : RegIdx) (x : Val), s.params.Ok → s.regVal? rd = some x →
    (∀ v, decode s.regs.length ⟨packWord 0x0D rd 0 false false, v⟩ = .ok (.cls rd)) ∧
    ∃ t, exec (.cls rd) s = .next t ∧ OnlyRes s t ∧ t.res = (match x with
      | .nan => 0
      | .fin m => if m = 0 then 1 else 2
      | .inf => 3)

/-- MOV Nd, Ns completes for every value of the source, whatever the receiver held: Nd reads as the source did, NaN and
Infinity included; every other register, RES and STATUS stay and ci is one more. The word of class B with opcode
0x0E and N = 0 decodes to it. (R115) -/
def Obligations.MovCopiesTheValue : Prop :=
  ∀ (s : State) (rd rs : RegIdx) (y : Val), s.params.Ok → rd.toNat < s.regs.length → s.regVal? rs = some y →
    (∀ v, decode s.regs.length ⟨packWord 0x0E rd rs false false, v⟩ = .ok (.mov rd rs)) ∧
    ∃ t, exec (.mov rd rs) s = .next t ∧ t.regVal? rd = some y ∧ OnlyReg rd s t

/-- MOV.N Nd, #v completes for every OPND of W bits, whatever the receiver held: with S = 1 and the top bit set Nd is
Infinity, else it is v, Infinity past MAX; every other register, RES and STATUS stay and ci is one more. The word
of class B with opcode 0x0E and N = 1 decodes to it. (R112, R116) -/
def Obligations.MovNConstructsFromNative : Prop :=
  ∀ (s : State) (rd : RegIdx) (sg : Bool) (v : Nat), s.params.Ok → rd.toNat < s.regs.length → v < 2 ^ s.params.w →
    decode s.regs.length ⟨packWord 0x0E rd 0 true sg, v⟩ = .ok (.movN rd sg v) ∧
    ∃ t, exec (.movN rd sg v) s = .next t ∧ t.regVal? rd = some (natCell s.params v sg) ∧ OnlyReg rd s t

/-- For each K, the word of class K with opcode 0x0F and that K decodes to SETC of its constant, and SETC completes,
whatever the receiver held: Nd becomes Zero for K = 0, Infinity for 1, NaN for 2 and Fin(base^CAP - 1) for 3; every
other register, RES and STATUS stay and ci is one more. A word with word[21:20] not 0 is illegal. (R117) -/
def Obligations.SetcSetsTheNamedConstant : Prop :=
  ∀ (s : State) (rd : RegIdx), s.params.Ok → rd.toNat < s.regs.length →
    (∀ p ∈ [((0 : RegIdx), NamedConst.zero, Val.fin 0), (1, .inf, .inf), (2, .nan, .nan),
        (3, .max, .fin (s.params.base ^ s.params.cap - 1))],
      (∀ v, decode s.regs.length ⟨packWord 0x0F rd p.1 false false, v⟩ = .ok (.setc rd p.2.1)) ∧
      ∃ t, exec (.setc rd p.2.1) s = .next t ∧ t.regVal? rd = some p.2.2 ∧ OnlyReg rd s t) ∧
    (∀ (k : RegIdx) (v : Nat), 3 < k.toNat → decode s.regs.length ⟨packWord 0x0F rd k false false, v⟩ = .error .setcField)

/-- RDLIMB Nd, #i completes for every value and every index of W bits: for a finite register RES is its limb i through
the accessor, which is (m div base^i) mod base, and so 0 at i >= len; for NaN and Infinity RES is 0 at every index
(decision D12, which R121 states); no register and no STATUS bit changes and ci is one more. The word of class U
with opcode 0x10 decodes to it. (R121) -/
def Obligations.RdlimbReadsThroughTheAccessor : Prop :=
  ∀ (s : State) (rd : RegIdx) (r : NReg) (x : Val) (i : Nat), s.params.Ok → s.regs[rd.toNat]? = some r →
    s.regVal? rd = some x → i < 2 ^ s.params.w →
    decode s.regs.length ⟨packWord 0x10 rd 0 false false, i⟩ = .ok (.rdlimb rd i) ∧
    ∃ t, exec (.rdlimb rd i) s = .next t ∧ OnlyRes s t ∧
      match x with
      | .nan => t.res = 0
      | .inf => t.res = 0
      | .fin m => t.res = r.limbAt i ∧ t.res = m / s.params.base ^ i % s.params.base ∧ (r.len ≤ i → t.res = 0)

/-- RDLEN Nd completes for every value: RES is the register's len field, which is 0 for NaN, CAP + 1 for Infinity, 1
for Zero, and for Fin(m) with m > 0 the number of bits of m divided by LIMB_W and rounded up; no register and no
STATUS bit changes and ci is one more. The word of class U with opcode 0x11 decodes to it. (R122) -/
def Obligations.RdlenReadsTheLengthCounter : Prop :=
  ∀ (s : State) (rd : RegIdx) (r : NReg) (x : Val), s.params.Ok → s.regs[rd.toNat]? = some r → s.regVal? rd = some x →
    (∀ v, decode s.regs.length ⟨packWord 0x11 rd 0 false false, v⟩ = .ok (.rdlen rd)) ∧
    ∃ t, exec (.rdlen rd) s = .next t ∧ OnlyRes s t ∧ t.res = r.len ∧ t.res = (match x with
      | .nan => 0
      | .inf => s.cap + 1
      | .fin m => if m = 0 then 1 else (Nat.size m + (s.limbW - 1)) / s.limbW)

/-- The word 0x00000000 decodes to NOP with any OPND, every other word with opcode 0x00 is illegal, and NOP completes
in every state with ci one more and nothing else changed. (R250) -/
def Obligations.NopOnlyAdvancesTheCommandIndex : Prop :=
  (∀ (n v : Nat), decode n ⟨0x00000000, v⟩ = .ok .nop) ∧
  (∀ (n v : Nat) (w : Word), w.toNat / 2 ^ 26 = 0 → w ≠ 0 → ∃ e, decode n ⟨w, v⟩ = .error e) ∧
  (∀ (s : State), exec .nop s = .next { s with ci := s.ci + 1 })

/-- The word 0x48000000 decodes to CLRST with any OPND, every other word with opcode 0x12 is illegal, and CLRST
completes in every state: STATUS reads 0x00000000, ci is one more and nothing else changes. (R252) -/
def Obligations.ClrstClearsStatusOnly : Prop :=
  (∀ (n v : Nat), decode n ⟨0x48000000, v⟩ = .ok .clrst) ∧
  (∀ (n v : Nat) (w : Word), w.toNat / 2 ^ 26 = 0x12 → w ≠ 0x48000000 → ∃ e, decode n ⟨w, v⟩ = .error e) ∧
  (∀ (s : State), ∃ t, exec .clrst s = .next t ∧ t.status.word = 0 ∧ OnlyStatus s t)

/-- For each of the ten class B operations: if register rs holds nat(OPND, S), the native form on rd and the register
form on rd and rs answer the same outcome, state by state. (R83) -/
def Obligations.NativeFormEqualsRegisterForm : Prop :=
  ∀ (s : State) (rd rs : RegIdx) (sg : Bool) (v : Nat), s.regVal? rs = some (nat s.params v sg) →
    exec (.addN rd sg v) s = exec (.add rd rs) s ∧ exec (.subN rd sg v) s = exec (.sub rd rs) s ∧
    exec (.mulN rd sg v) s = exec (.mul rd rs) s ∧ exec (.divN rd sg v) s = exec (.div rd rs) s ∧
    exec (.modN rd sg v) s = exec (.mod rd rs) s ∧ exec (.andN rd sg v) s = exec (.and rd rs) s ∧
    exec (.orN rd sg v) s = exec (.or rd rs) s ∧ exec (.xorN rd sg v) s = exec (.xor rd rs) s ∧
    exec (.cmpN rd sg v) s = exec (.cmp rd rs) s ∧ exec (.movN rd sg v) s = exec (.mov rd rs) s

/-- With Na = Fin(a) and Nb = Fin(b) in two different registers and a + b <= MAX, ADD Na, Nb and then SUB Na, Nb both
complete and Na is Fin(a) again. (Derived: 41_add_sub.md section 2 (the law at its end, which the spec marks as
derived).) -/
def Obligations.AddThenSubRestores : Prop :=
  ∀ (s : State) (ra rb : RegIdx) (a b : Nat), s.params.Ok → ra ≠ rb → s.regVal? ra = some (.fin a) →
    s.regVal? rb = some (.fin b) → a + b < s.params.base ^ s.params.cap →
    ∃ t u, exec (.add ra rb) s = .next t ∧ exec (.sub ra rb) t = .next u ∧ u.regVal? ra = some (.fin a)

/-- For finite a <= MAX and 0 < b, the divider's results are Fin(q) and Fin(r) with a = q * b + r and r < b, and adding
r to the product of q and b, both on CORE's saturating units, gives Fin(a). (Derived: 42_mul_div.md section 3
(laws, which the spec marks as derived).) -/
def Obligations.QuotientAndRemainderRebuildDividend : Prop :=
  ∀ (p : Params) (a b : Nat), a < p.base ^ p.cap → 0 < b →
    ∃ q r, divVal (.fin a) (.fin b) = .fin q ∧ modVal (.fin a) (.fin b) = .fin r ∧ a = q * b + r ∧ r < b ∧
      addVal p (mulVal p (.fin q) (.fin b)) (.fin r) = .fin a

/-- From Nd = Fin(a) and for every distance of W bits, SHL and then SHR by that distance both complete; if SHL left a
finite value, Nd is Fin(a) again, and if SHL gave Infinity, Nd is Infinity after SHR too. (Derived: 44_shift.md
(the round-trip law, which the spec marks as derived).) -/
def Obligations.ShiftRoundTripOrSaturation : Prop :=
  ∀ (s : State) (rd : RegIdx) (a d : Nat), s.params.Ok → s.regVal? rd = some (.fin a) → d < 2 ^ s.params.w →
    ∃ t u, exec (.shl rd d) s = .next t ∧ exec (.shr rd d) t = .next u ∧
      ((∃ m, t.regVal? rd = some (.fin m) ∧ u.regVal? rd = some (.fin a)) ∨
       (t.regVal? rd = some .inf ∧ u.regVal? rd = some .inf))

/-- For legal parameters and every normalized register of finite value, enc of its value has the same len and the same
limbs below len; for a sentinel it has the same len. (Derived: 10_state.md section 1 (canonical encoding, whose
agreement the spec marks as derived).) -/
def Obligations.NormalizedEncodingIsUnique : Prop :=
  ∀ (p : Params) (r : NReg) (junk : Nat → Nat), p.Ok → r.Normalized p →
    (NReg.enc p junk (r.value p)).len = r.len ∧
    (∀ m, r.value p = .fin m → ∀ i, (NReg.enc p junk (r.value p)).limbAt i = r.limbAt i)

/-- For legal parameters and a raw vector of k limbs with 1 <= k <= CAP, normalize(k, t) has the len and the used limbs
of enc of the magnitude of t. (Derived: 40_storage_classifier.md section 1 (normalization unit).) -/
def Obligations.NormalizeGivesCanonicalEncoding : Prop :=
  ∀ (p : Params) (t : List Nat) (junk : Nat → Nat), p.Ok → 1 ≤ t.length → t.length ≤ p.cap → (∀ l ∈ t, l < p.base) →
    (normalize t.length t).len = (NReg.enc p junk (.fin (ofLimbs p.base t))).len ∧
    ∀ i, (normalize t.length t).limbAt i = (NReg.enc p junk (.fin (ofLimbs p.base t))).limbAt i

/-- For two legal finite registers of magnitudes a and b, the limb-by-limb adder with its carry gives a + b, Infinity
exactly when that is past MAX. (Derived: 41_add_sub.md section 1 (the limb-level equality, which the spec marks as
derived).) -/
def Obligations.RippleAdderGivesSaturatedSum : Prop :=
  ∀ (p : Params) (x y : NReg) (a b : Nat), p.Ok → x.value? p = some (.fin a) → y.value? p = some (.fin b) →
    (adder p x y).value p = finCell p (a + b)

/-- For two legal finite registers of magnitudes a and b, the limb-by-limb subtractor with its borrow gives a - b when
b <= a and Infinity otherwise. (Derived: 41_add_sub.md section 2 (the limb-level equality, which the spec marks as
derived).) -/
def Obligations.RippleSubtractorGivesDifference : Prop :=
  ∀ (p : Params) (x y : NReg) (a b : Nat), p.Ok → x.value? p = some (.fin a) → y.value? p = some (.fin b) →
    (subtractor p x y).value p = if b ≤ a then .fin (a - b) else .inf

/-- For two legal finite registers of magnitudes a and b, the schoolbook multiplier with its double-width accumulator
gives a * b, Infinity exactly when that is past MAX. (Derived: 42_mul_div.md section 1 (the limb-level equality,
which the spec marks as derived).) -/
def Obligations.SchoolbookMultiplierGivesProduct : Prop :=
  ∀ (p : Params) (x y : NReg) (a b : Nat), p.Ok → x.value? p = some (.fin a) → y.value? p = some (.fin b) →
    (multiplier p x y).value p = finCell p (a * b)

/-- For a legal finite register of magnitude a and a divisor 0 < d < base, the limb-by-limb divider gives the quotient
a div d and the remainder a mod d. (Derived: 42_mul_div.md section 2 (native single-limb kernel).) -/
def Obligations.SingleLimbDividerGivesQuotientAndRemainder : Prop :=
  ∀ (p : Params) (x : NReg) (a d : Nat), p.Ok → x.value? p = some (.fin a) → 0 < d → d < p.base →
    (limbQuotient p x d).value p = .fin (a / d) ∧ limbRemainder p x d = a % d

/-- For legal finite registers of magnitudes a and b with b > 0, scaling both, estimating each quotient limb from two
limbs of the running remainder over the divisor's top limb, correcting it by at most two trial subtractions and
unscaling the remainder gives a div b and a mod b. (Derived: 42_mul_div.md section 2 (long-division outline, from
general knowledge).) -/
def Obligations.LongDivisionGivesQuotientAndRemainder : Prop :=
  ∀ (p : Params) (x y : NReg) (a b : Nat), p.Ok → x.value? p = some (.fin a) → y.value? p = some (.fin b) → 0 < b →
    (longDivider p x y).1.value p = .fin (a / b) ∧ (longDivider p x y).2.value p = .fin (a % b)

/-- For legal finite registers of magnitudes a and b, the limb-by-limb unit gives a AND b, a OR b and a XOR b, and the
limb-by-limb complement of the first gives MAX - a. (Derived: 43_bitwise.md section 1 (the limb-level equality,
which the spec marks as derived); 43_bitwise.md section 3.) -/
def Obligations.BitwiseUnitActsOnMagnitudes : Prop :=
  ∀ (p : Params) (x y : NReg) (a b : Nat), p.Ok → x.value? p = some (.fin a) → y.value? p = some (.fin b) →
    (bitwiseUnit p Nat.land x y).value p = .fin (Nat.land a b) ∧ (bitwiseUnit p Nat.lor x y).value p = .fin (Nat.lor a b) ∧
    (bitwiseUnit p Nat.xor x y).value p = .fin (Nat.xor a b) ∧
    (complementUnit p x).value p = .fin (p.base ^ p.cap - 1 - a)

/-- For a legal finite register of magnitude a and every distance d, the left shifter gives a * 2^d, Infinity past MAX,
and the right shifter gives a div 2^d. (Derived: 44_shift.md (the limb-level equality, which the spec marks as
derived).) -/
def Obligations.BarrelShifterGivesShifts : Prop :=
  ∀ (p : Params) (x : NReg) (a d : Nat), p.Ok → x.value? p = some (.fin a) →
    (shiftLeftUnit p x a d).value p = finCell p (a * 2 ^ d) ∧ (shiftRightUnit p x d).value p = .fin (a / 2 ^ d)

/-- For two legal finite registers of magnitudes a and b, the comparator says LT when a < b, GT when a > b and EQ when
they are equal. (Derived: 45_compare.md (the equality with the integer comparison, which the spec marks as
derived).) -/
def Obligations.LimbComparatorComparesMagnitudes : Prop :=
  ∀ (p : Params) (x y : NReg) (a b : Nat), p.Ok → x.value? p = some (.fin a) → y.value? p = some (.fin b) →
    comparator x y = if a < b then .lt else if b < a then .gt else .eq

/-- For legal parameters, whatever command the assembler emits decodes to the instruction of its line, and its OPND
fits the port; LI, CLR, INC, DEC and TST assemble to MOV.N or MOV.NS, SETC ZERO, ADD.N #1, SUB.N #1 and CMP.N #0.
That SETC carries OPND 0 is deduced from the programs of 95_test_vectors.md (log entry 8). (Derived: 30_encoding.md
section 4 (assembler syntax, pseudo-instructions).) -/
def Obligations.AssemblerEmitsOnlyLegalCommands : Prop :=
  (∀ (p : Params) (l : AsmLine) (c : Command), p.Ok → assemble p l = some c →
    ∃ i, l.instr? p = some i ∧ decode p.nreg c = .ok i ∧ c.opnd < 2 ^ p.w) ∧
  (∀ (p : Params) (d : Nat), p.Ok → d < p.nreg →
    assemble p (.clr d) = some ⟨packWord 0x0F (BitVec.ofNat 4 d) 0 false false, 0⟩ ∧
    assemble p (.inc d) = some ⟨packWord 0x01 (BitVec.ofNat 4 d) 0 true false, 1⟩ ∧
    assemble p (.dec d) = some ⟨packWord 0x02 (BitVec.ofNat 4 d) 0 true false, 1⟩ ∧
    assemble p (.tst d) = some ⟨packWord 0x0C (BitVec.ofNat 4 d) 0 true false, 0⟩ ∧
    (∀ v : Nat, v < 2 ^ p.w → assemble p (.li d v) = some ⟨packWord 0x0E (BitVec.ofNat 4 d) 0 true false, v⟩) ∧
    (∀ v : Nat, 0 < v → v ≤ 2 ^ (p.w - 1) →
      assemble p (.li d (-v)) = some ⟨packWord 0x0E (BitVec.ofNat 4 d) 0 true true, 2 ^ p.w - v⟩))
end

