-- ==== Sys2Proof/Tests/Slice0.lean ====
section
/-!
SUPPORT. Named tests. Expected values come from spec/95_test_vectors.md (and the tables of spec files 40 to 46 where
said). Then, for every obligation with hypotheses, a witness that meets them.
-/

namespace Sys2Proof.Tests

open Sys2Proof Sys2Proof.Machine

/-! ### A small state -/

/-- `MAX` of the reference configuration. -/
abbrev top : Nat := 0xFFFFFFFFFFFFFFFFFFFFFFFFFFFFFFFF

/-- Reference configuration with N0 NaN, N1 Zero, N2 Fin(5), N3 Fin(12), N4 Fin(MAX), N5 Infinity, N6
Fin(0x100000005), N7 Fin(1), N8 Fin(0x10000000000000000), N9 Fin(0x100000001), and the rest NaN. Limbs at or above
`len` hold non-zero numbers. -/
def bench : State :=
  { State.reset with
    regs := [⟨0, [9, 9, 9, 9]⟩, ⟨1, [0, 7, 7, 7]⟩, ⟨1, [5, 7, 7, 7]⟩, ⟨1, [12, 7, 7, 7]⟩,
      ⟨4, [0xFFFFFFFF, 0xFFFFFFFF, 0xFFFFFFFF, 0xFFFFFFFF]⟩, ⟨5, [3, 3, 3, 3]⟩, ⟨2, [5, 1, 7, 7]⟩, ⟨1, [1, 7, 7, 7]⟩] ++
      [⟨3, [0, 0, 1, 7]⟩, ⟨2, [1, 1, 7, 7]⟩] ++ List.replicate 6 ⟨0, [0, 0, 0, 0]⟩ }

/-- `bench` with an illegal command recorded and EQ showing. -/
def benchIll : State := { bench with status := ⟨false, true, false, false, true⟩, res := 42 }

/-- A CORE with LIMB_W = 2, CAP = 2 and NREG = 8: N0 NaN, N1 Zero, N2 Fin(3), N3 Fin(6), N4 Infinity, N5 MAX = 15. -/
def tiny : State :=
  { State.resetWith ⟨2, 2, 8⟩ with
    regs := [⟨0, [1, 1]⟩, ⟨1, [0, 3]⟩, ⟨1, [3, 3]⟩, ⟨2, [2, 1]⟩, ⟨3, [2, 2]⟩, ⟨2, [3, 3]⟩, ⟨0, [0, 0]⟩, ⟨0, [0, 0]⟩] }

/-- The value of register `r` after instruction `i`. -/
def valueAfter (i : Instr) (s : State) (r : RegIdx) : Option Val :=
  match exec i s with
  | .next t => t.regVal? r
  | _ => none

/-- `RES` after instruction `i`. -/
def resAfter (i : Instr) (s : State) : Option Nat :=
  match exec i s with
  | .next t => some t.res
  | _ => none

/-- The outcome is a next state of which `f` holds. -/
def nextIs (o : Out) (f : State → Bool) : Bool :=
  match o with
  | .next t => f t
  | _ => false

/-- `STATUS` as the host reads it after instruction `i`. -/
def statusAfter (i : Instr) (s : State) : Option (BitVec 32) :=
  match exec i s with
  | .next t => some t.status.word
  | _ => none

/-- `RES`, `STATUS` and `ci` after the step that takes the command `c`. -/
def outputsAfter (s : State) (c : Command) : Option (Nat × BitVec 32 × Nat) :=
  match step { s with host := [.issue c] } with
  | .next t => some (t.res, t.status.word, t.ci)
  | _ => none

/-- The value of register `r` after the step that takes the command `c`. -/
def valueAfterCommand (s : State) (c : Command) (r : RegIdx) : Option Val :=
  match step { s with host := [.issue c] } with
  | .next t => t.regVal? r
  | _ => none

/-! ### Well-formedness refuses each ill-formed term -/

theorem test_wf_accepts :
    (Instr.add 7 7).wellFormed ⟨32, 4, 8⟩ = true ∧ (Instr.movN 7 true (2 ^ 64 - 1)).wellFormed ⟨32, 4, 8⟩ = true := by
  decide

/-- RD = NREG (R82). -/
theorem test_wf_refuses_receiver : (Instr.add 8 7).wellFormed ⟨32, 4, 8⟩ = false := by decide

/-- RS = NREG (R82). -/
theorem test_wf_refuses_operand_register : (Instr.add 7 8).wellFormed ⟨32, 4, 8⟩ = false := by decide

/-- A class U and a class K register field (R82). -/
theorem test_wf_refuses_unary_receiver :
    (Instr.cls 8).wellFormed ⟨32, 4, 8⟩ = false ∧ (Instr.setc 9 .max).wellFormed ⟨32, 4, 8⟩ = false := by
  decide

/-- OPND = 2^W (R84). -/
theorem test_wf_refuses_wide_operand :
    (Instr.addN 0 false (2 ^ 64)).wellFormed ⟨32, 4, 8⟩ = false ∧ (Instr.shl 0 (2 ^ 64)).wellFormed ⟨32, 4, 8⟩ = false := by
  decide

/-! ### Decoding: one word per constructor, written out from R81 and R87 or taken from 95_test_vectors.md -/

/-- From 95_test_vectors.md L2.3 and L3. OPND is ignored. -/
theorem test_decode_nop : decode 16 ⟨0x00000000, 77⟩ = .ok (.nop) := by decide

/-- From 95_test_vectors.md L2.3 and L3. OPND is ignored. -/
theorem test_decode_add : decode 16 ⟨0x04D00000, 77⟩ = .ok (.add 3 4) := by decide

/-- From 95_test_vectors.md L2.3 and L3. -/
theorem test_decode_addN : decode 16 ⟨0x04420000, 1⟩ = .ok (.addN 1 false 1) := by decide

/-- From 95_test_vectors.md L2.3 and L3. OPND is ignored. -/
theorem test_decode_sub : decode 16 ⟨0x08880000, 77⟩ = .ok (.sub 2 2) := by decide

/-- From 95_test_vectors.md L2.3 and L3. -/
theorem test_decode_subN : decode 16 ⟨0x08420000, 1⟩ = .ok (.subN 1 false 1) := by decide

/-- From 95_test_vectors.md L2.3 and L3. OPND is ignored. -/
theorem test_decode_mul : decode 16 ⟨0x0CC80000, 77⟩ = .ok (.mul 3 2) := by decide

/-- From 95_test_vectors.md L2.3 and L3. -/
theorem test_decode_mulN : decode 16 ⟨0x0CC20000, 0⟩ = .ok (.mulN 3 false 0) := by decide

/-- From 95_test_vectors.md L2.3 and L3. OPND is ignored. -/
theorem test_decode_div : decode 16 ⟨0x10C80000, 77⟩ = .ok (.div 3 2) := by decide

/-- Fields OP, RD, RS, N, S and Z of R81. -/
theorem test_decode_divN : decode 16 ⟨0b000100_1010_0000_1_0_0000000000000000, 7⟩ = .ok (.divN 10 false 7) := by decide

/-- From 95_test_vectors.md L2.3 and L3. OPND is ignored. -/
theorem test_decode_mod : decode 16 ⟨0x15080000, 77⟩ = .ok (.mod 4 2) := by decide

/-- Fields OP, RD, RS, N, S and Z of R81. -/
theorem test_decode_modN : decode 16 ⟨0b000101_0101_0000_1_1_0000000000000000, 7⟩ = .ok (.modN 5 true 7) := by decide

/-- Fields OP, RD, RS, N, S and Z of R81. OPND is ignored. -/
theorem test_decode_and : decode 16 ⟨0b000110_1100_0011_0_0_0000000000000000, 77⟩ = .ok (.and 12 3) := by decide

/-- Fields OP, RD, RS, N, S and Z of R81. -/
theorem test_decode_andN : decode 16 ⟨0b000110_0011_0000_1_1_0000000000000000, 7⟩ = .ok (.andN 3 true 7) := by decide

/-- Fields OP, RD, RS, N, S and Z of R81. OPND is ignored. -/
theorem test_decode_or : decode 16 ⟨0b000111_0001_1000_0_0_0000000000000000, 77⟩ = .ok (.or 1 8) := by decide

/-- From 95_test_vectors.md L2.3 and L3. -/
theorem test_decode_orN : decode 16 ⟨0x1C420000, 0x3039⟩ = .ok (.orN 1 false 0x3039) := by decide

/-- Fields OP, RD, RS, N, S and Z of R81. OPND is ignored. -/
theorem test_decode_xor : decode 16 ⟨0b001000_1111_0110_0_0_0000000000000000, 77⟩ = .ok (.xor 15 6) := by decide

/-- Fields OP, RD, RS, N, S and Z of R81. -/
theorem test_decode_xorN : decode 16 ⟨0b001000_0110_0000_1_0_0000000000000000, 7⟩ = .ok (.xorN 6 false 7) := by decide

/-- From 95_test_vectors.md L2.3 and L3. OPND is ignored. -/
theorem test_decode_not : decode 16 ⟨0x25400000, 77⟩ = .ok (.not 5) := by decide

/-- From 95_test_vectors.md L2.3 and L3. -/
theorem test_decode_shl : decode 16 ⟨0x29800000, 0x64⟩ = .ok (.shl 6 0x64) := by decide

/-- From 95_test_vectors.md L2.3 and L3. -/
theorem test_decode_shr : decode 16 ⟨0x2D400000, 0x5A⟩ = .ok (.shr 5 0x5A) := by decide

/-- From 95_test_vectors.md L2.3 and L3. OPND is ignored. -/
theorem test_decode_cmp : decode 16 ⟨0x30C40000, 77⟩ = .ok (.cmp 3 1) := by decide

/-- From 95_test_vectors.md L2.3 and L3. -/
theorem test_decode_cmpN :
    decode 16 ⟨0x30C30000, 0xFFFFFFFFFFFFFFF9⟩ = .ok (.cmpN 3 true 0xFFFFFFFFFFFFFFF9) := by
  decide

/-- From 95_test_vectors.md L2.3 and L3. OPND is ignored. -/
theorem test_decode_cls : decode 16 ⟨0x35C00000, 77⟩ = .ok (.cls 7) := by decide

/-- From 95_test_vectors.md L2.3 and L3. OPND is ignored. -/
theorem test_decode_mov : decode 16 ⟨0x39940000, 77⟩ = .ok (.mov 6 5) := by decide

/-- From 95_test_vectors.md L2.3 and L3. -/
theorem test_decode_movN :
    decode 16 ⟨0x38C30000, 0xFFFFFFFFFFFFFFFF⟩ = .ok (.movN 3 true 0xFFFFFFFFFFFFFFFF) := by
  decide

/-- From 95_test_vectors.md L2.3 and L3. OPND is ignored. -/
theorem test_decode_setc : decode 16 ⟨0x3C8C0000, 77⟩ = .ok (.setc 2 .max) := by decide

/-- From 95_test_vectors.md L2.3 and L3. -/
theorem test_decode_rdlimb : decode 16 ⟨0x40400000, 2⟩ = .ok (.rdlimb 1 2) := by decide

/-- From 95_test_vectors.md L2.3 and L3. OPND is ignored. -/
theorem test_decode_rdlen : decode 16 ⟨0x44C00000, 77⟩ = .ok (.rdlen 3) := by decide

/-- From 95_test_vectors.md L2.3 and L3. OPND is ignored. -/
theorem test_decode_clrst : decode 16 ⟨0x48000000, 77⟩ = .ok (.clrst) := by decide

/-- The illegal words of 95_test_vectors.md L2.3 are each rejected, by the case of R89 the table names. -/
theorem test_decode_illegal_words :
    decode 16 ⟨0x4C000000, 0⟩ = .error .reservedOpcode ∧
    decode 16 ⟨0xFC000000, 0⟩ = .error .reservedOpcode ∧
    decode 16 ⟨0x04000001, 0⟩ = .error .reservedField ∧
    decode 16 ⟨0x04010000, 0⟩ = .error .signedRegisterForm ∧
    decode 16 ⟨0x04060000, 0⟩ = .error .nativeFormWithRs ∧
    decode 16 ⟨0x24040000, 0⟩ = .error .classUField ∧
    decode 16 ⟨0x28020000, 0⟩ = .error .classUField ∧
    decode 16 ⟨0x28010000, 0⟩ = .error .classUField ∧
    decode 16 ⟨0x3C100000, 0⟩ = .error .setcField ∧
    decode 16 ⟨0x3C020000, 0⟩ = .error .setcField ∧
    decode 16 ⟨0x00400000, 0⟩ = .error .classZField ∧
    decode 16 ⟨0x48010000, 0⟩ = .error .classZField := by
  decide

/-- With NREG = 8, N15 and N8 are absent (R82). -/
theorem test_decode_absent_register :
    decode 8 ⟨0x07FC0000, 0⟩ = .error .absentRegister ∧ decode 8 ⟨0x05E00000, 0⟩ = .error .absentRegister := by
  decide

/-- The encoder packs the words of the programs P1 to P5 (R81). -/
theorem test_encode_words :
    encode (.addN 1 false 1) = ⟨0x04420000, 1⟩ ∧ encode (.setc 2 .max) = ⟨0x3C8C0000, 0⟩ ∧
    encode (.movN 3 true 5) = ⟨0x38C30000, 5⟩ ∧ encode (.mov 4 1) = ⟨0x39040000, 0⟩ ∧ encode .clrst = ⟨0x48000000, 0⟩ := by
  decide

/-- The assembler on lines of the programs P1 to P5 (R92), and a line it rejects. -/
theorem test_assembler_lines :
    assemble Params.reference (.nativeSigned .mov 3 (-1)) = some ⟨0x38C30000, 0xFFFFFFFFFFFFFFFF⟩ ∧
    assemble Params.reference (.nativeSigned .cmp 3 (-7)) = some ⟨0x30C30000, 0xFFFFFFFFFFFFFFF9⟩ ∧
    assemble Params.reference (.native .mov 1 (2 ^ 64)) = none := by
  decide

/-- Table words reach the decoder and run as the first instruction (MOV.N N2, #9 with OPND in bits 63..32 of the
number; 96 bits hold the word and all of OPND). -/
theorem test_table_word_runs_first :
    decodeTableWord 96 (0x38820000 + 9 * 2 ^ 32) = some (.movN 2 false 9) ∧
    decodeTableWord 32 0x4C000000 = none ∧
    nextIs (step (State.reset.withFetchWord 96 (0x38820000 + 9 * 2 ^ 32))) (fun t => decide (t.regVal? 2 = some (.fin 9) ∧ t.ci = 1)) = true := by
  decide

/-! ### Instructions, one step each -/

/-- Sum across limbs, MAX + 1 saturates (L2.2); the receiver is also the operand. -/
theorem test_add_finite :
    valueAfter (.add 6 6) bench 6 = some (.fin 0x20000000A) ∧
    valueAfter (.add 4 7) bench 4 = some (.inf) := by
  decide

/-- The table of R141. -/
theorem test_add_sentinels :
    valueAfter (.add 5 2) bench 5 = some (.inf) ∧
    valueAfter (.add 2 5) bench 2 = some (.inf) ∧
    valueAfter (.add 5 5) bench 5 = some (.inf) ∧
    valueAfter (.add 5 0) bench 5 = some (.nan) ∧
    valueAfter (.add 0 5) bench 0 = some (.nan) := by
  decide

/-- P2 step 2, and a negative native operand (R112). -/
theorem test_addN :
    valueAfter (.addN 4 false 1) bench 4 = some (.inf) ∧
    valueAfter (.addN 2 true (2 ^ 64 - 1)) bench 2 = some (.inf) ∧
    valueAfter (.addN 2 false (2 ^ 64 - 1)) bench 2 = some (.fin 0x10000000000000004) := by
  decide

/-- A negative difference saturates (R144). -/
theorem test_sub_finite :
    valueAfter (.sub 2 3) bench 2 = some (.inf) ∧
    valueAfter (.sub 3 2) bench 3 = some (.fin 7) ∧
    valueAfter (.sub 2 2) bench 2 = some (.fin 0) := by
  decide

/-- Infinity minus Infinity is NaN (R144; P2 step 4). -/
theorem test_sub_sentinels :
    valueAfter (.sub 5 5) bench 5 = some (.nan) ∧
    valueAfter (.sub 2 5) bench 2 = some (.inf) ∧
    valueAfter (.sub 5 2) bench 5 = some (.inf) ∧
    valueAfter (.sub 5 0) bench 5 = some (.nan) := by
  decide

/-- P1 step 7 (borrow across limbs); Infinity minus a negative operand. -/
theorem test_subN :
    valueAfter (.subN 8 false 1) bench 8 = some (.fin 0xFFFFFFFFFFFFFFFF) ∧
    valueAfter (.subN 5 true (2 ^ 64 - 1)) bench 5 = some (.nan) := by
  decide

/-- Saturation (L2.2, P5 step 11). -/
theorem test_mul_finite :
    valueAfter (.mul 4 4) bench 4 = some (.inf) ∧
    valueAfter (.mul 8 8) bench 8 = some (.inf) ∧
    valueAfter (.mul 6 3) bench 6 = some (.fin 0xC0000003C) := by
  decide

/-- Zero times Infinity is NaN in either order (R161). -/
theorem test_mul_sentinels :
    valueAfter (.mul 1 5) bench 1 = some (.nan) ∧
    valueAfter (.mul 5 1) bench 5 = some (.nan) ∧
    valueAfter (.mul 5 2) bench 5 = some (.inf) ∧
    valueAfter (.mul 5 5) bench 5 = some (.inf) ∧
    valueAfter (.mul 1 0) bench 1 = some (.nan) := by
  decide

/-- P2 step 9. -/
theorem test_mulN :
    valueAfter (.mulN 5 false 0) bench 5 = some (.nan) ∧
    valueAfter (.mulN 2 false 7) bench 2 = some (.fin 35) := by
  decide

/-- L2.2, the DIV table. -/
theorem test_div_finite :
    valueAfter (.div 8 9) bench 8 = some (.fin 0xFFFFFFFF) ∧
    valueAfter (.div 2 3) bench 2 = some (.fin 0) ∧
    valueAfter (.div 4 8) bench 4 = some (.fin 0xFFFFFFFFFFFFFFFF) := by
  decide

/-- The table of R165. -/
theorem test_div_sentinels :
    valueAfter (.div 1 1) bench 1 = some (.nan) ∧
    valueAfter (.div 5 1) bench 5 = some (.nan) ∧
    valueAfter (.div 2 5) bench 2 = some (.fin 0) ∧
    valueAfter (.div 5 2) bench 5 = some (.inf) ∧
    valueAfter (.div 5 5) bench 5 = some (.nan) := by
  decide

/-- A divisor Zero, and a negative divisor, which is Infinity (R166). -/
theorem test_divN :
    valueAfter (.divN 3 false 0) bench 3 = some (.nan) ∧
    valueAfter (.divN 3 true (2 ^ 63)) bench 3 = some (.fin 0) ∧
    valueAfter (.divN 3 false 5) bench 3 = some (.fin 2) := by
  decide

/-- L2.2, the MOD table. -/
theorem test_mod_finite :
    valueAfter (.mod 4 8) bench 4 = some (.fin 0xFFFFFFFFFFFFFFFF) ∧
    valueAfter (.mod 2 3) bench 2 = some (.fin 5) ∧
    valueAfter (.mod 3 2) bench 3 = some (.fin 2) := by
  decide

/-- Fin(12) mod Infinity is Fin(12) (L2.2, decision D13). -/
theorem test_mod_sentinels :
    valueAfter (.mod 3 5) bench 3 = some (.fin 12) ∧
    valueAfter (.mod 5 2) bench 5 = some (.nan) ∧
    valueAfter (.mod 3 1) bench 3 = some (.nan) ∧
    valueAfter (.mod 5 5) bench 5 = some (.nan) := by
  decide

/-- 2^64 mod 7 = 2, since 2^3 mod 7 = 1. -/
theorem test_modN :
    valueAfter (.modN 8 false 7) bench 8 = some (.fin 2) ∧
    valueAfter (.modN 3 false 0) bench 3 = some (.nan) := by
  decide

/-- Infinity absorbs, even with Zero (R191, R192). -/
theorem test_and_rows :
    valueAfter (.and 6 9) bench 6 = some (.fin 0x100000001) ∧
    valueAfter (.and 4 8) bench 4 = some (.fin 0x10000000000000000) ∧
    valueAfter (.and 5 1) bench 5 = some (.inf) ∧
    valueAfter (.and 1 5) bench 1 = some (.inf) ∧
    valueAfter (.and 0 5) bench 0 = some (.nan) := by
  decide

/-- R193. -/
theorem test_andN :
    valueAfter (.andN 6 false 4) bench 6 = some (.fin 4) ∧
    valueAfter (.andN 1 true (2 ^ 63)) bench 1 = some (.inf) := by
  decide

/-- R194. -/
theorem test_or_rows :
    valueAfter (.or 8 9) bench 8 = some (.fin 0x10000000100000001) ∧
    valueAfter (.or 5 2) bench 5 = some (.inf) ∧
    valueAfter (.or 5 0) bench 5 = some (.nan) := by
  decide

/-- R195. -/
theorem test_orN :
    valueAfter (.orN 2 false 8) bench 2 = some (.fin 13) ∧
    valueAfter (.orN 0 false 8) bench 0 = some (.nan) := by
  decide

/-- L2.2, and the self-operand cases of L2.3. -/
theorem test_xor_rows :
    valueAfter (.xor 4 4) bench 4 = some (.fin 0) ∧
    valueAfter (.xor 4 7) bench 4 = some (.fin 0xFFFFFFFFFFFFFFFFFFFFFFFFFFFFFFFE) ∧
    valueAfter (.xor 5 5) bench 5 = some (.inf) := by
  decide

/-- R197. -/
theorem test_xorN :
    valueAfter (.xorN 3 false 5) bench 3 = some (.fin 9) ∧
    valueAfter (.xorN 3 true (2 ^ 64 - 1)) bench 3 = some (.inf) := by
  decide

/-- The NOT table of L2.2. -/
theorem test_not_rows :
    valueAfter (.not 7) bench 7 = some (.fin 0xFFFFFFFFFFFFFFFFFFFFFFFFFFFFFFFE) ∧
    valueAfter (.not 1) bench 1 = some (.fin top) ∧
    valueAfter (.not 4) bench 4 = some (.fin 0) ∧
    valueAfter (.not 5) bench 5 = some (.inf) ∧
    valueAfter (.not 0) bench 0 = some (.nan) := by
  decide

/-- The SHL table of L2.2. -/
theorem test_shl_rows :
    valueAfter (.shl 7 127) bench 7 = some (.fin 0x80000000000000000000000000000000) ∧
    valueAfter (.shl 7 128) bench 7 = some (.inf) ∧
    valueAfter (.shl 1 128) bench 1 = some (.fin 0) ∧
    valueAfter (.shl 1 (2 ^ 64 - 1)) bench 1 = some (.fin 0) ∧
    valueAfter (.shl 2 (2 ^ 64 - 1)) bench 2 = some (.inf) := by
  decide

/-- 5 has three bits, so 125 is the last distance that fits in 128 (R210). -/
theorem test_shl_sentinels :
    valueAfter (.shl 5 5) bench 5 = some (.inf) ∧
    valueAfter (.shl 0 5) bench 0 = some (.nan) ∧
    valueAfter (.shl 2 125) bench 2 = some (.fin 0xA0000000000000000000000000000000) ∧
    valueAfter (.shl 2 126) bench 2 = some (.inf) := by
  decide

/-- The SHR table of L2.2. -/
theorem test_shr_rows :
    valueAfter (.shr 4 64) bench 4 = some (.fin 0xFFFFFFFFFFFFFFFF) ∧
    valueAfter (.shr 7 1) bench 7 = some (.fin 0) ∧
    valueAfter (.shr 4 (2 ^ 64 - 1)) bench 4 = some (.fin 0) ∧
    valueAfter (.shr 5 1) bench 5 = some (.inf) ∧
    valueAfter (.shr 0 1) bench 0 = some (.nan) := by
  decide

/-- The CMP table of L2.2: LT 1, EQ 2, GT 4, UN 8. -/
theorem test_cmp_rows :
    statusAfter (.cmp 2 3) bench = some 1 ∧
    statusAfter (.cmp 4 4) bench = some 2 ∧
    statusAfter (.cmp 8 4) bench = some 1 ∧
    statusAfter (.cmp 6 3) bench = some 4 ∧
    statusAfter (.cmp 0 0) bench = some 8 ∧
    statusAfter (.cmp 5 5) bench = some 2 ∧
    statusAfter (.cmp 5 4) bench = some 8 ∧
    statusAfter (.cmp 4 5) bench = some 8 := by
  decide

/-- P2 step 8 and P4 step 4: ILL is kept. -/
theorem test_cmpN :
    statusAfter (.cmpN 5 true 0xFFFFFFFFFFFFFFF9) bench = some 2 ∧
    statusAfter (.cmpN 3 false 12) benchIll = some 0x12 ∧
    statusAfter (.cmpN 2 false 10) benchIll = some 0x11 := by
  decide

/-- The readout table of L2.2. -/
theorem test_cls_rows :
    resAfter (.cls 0) bench = some 0 ∧
    resAfter (.cls 1) bench = some 1 ∧
    resAfter (.cls 2) bench = some 2 ∧
    resAfter (.cls 4) bench = some 2 ∧
    resAfter (.cls 5) bench = some 3 := by
  decide

/-- The readout table of L2.2. -/
theorem test_rdlen_rows :
    resAfter (.rdlen 0) bench = some 0 ∧
    resAfter (.rdlen 1) bench = some 1 ∧
    resAfter (.rdlen 2) bench = some 1 ∧
    resAfter (.rdlen 6) bench = some 2 ∧
    resAfter (.rdlen 4) bench = some 4 ∧
    resAfter (.rdlen 5) bench = some 5 := by
  decide

/-- The readout table of L2.2. -/
theorem test_rdlimb_rows :
    resAfter (.rdlimb 6 0) bench = some 5 ∧
    resAfter (.rdlimb 6 1) bench = some 1 ∧
    resAfter (.rdlimb 6 3) bench = some 0 ∧
    resAfter (.rdlimb 4 3) bench = some 0xFFFFFFFF ∧
    resAfter (.rdlimb 4 4) bench = some 0 ∧
    resAfter (.rdlimb 4 (2 ^ 64 - 1)) bench = some 0 := by
  decide

/-- 0 for a sentinel and past len, although those limbs hold other numbers (R121). -/
theorem test_rdlimb_sentinels :
    resAfter (.rdlimb 0 0) bench = some 0 ∧
    resAfter (.rdlimb 5 3) bench = some 0 ∧
    resAfter (.rdlimb 1 1) bench = some 0 ∧
    resAfter (.rdlimb 2 1) bench = some 0 := by
  decide

/-- R115. -/
theorem test_mov_rows :
    valueAfter (.mov 2 4) bench 2 = some (.fin top) ∧
    valueAfter (.mov 4 5) bench 4 = some (.inf) ∧
    valueAfter (.mov 4 0) bench 4 = some (.nan) ∧
    valueAfter (.mov 5 5) bench 5 = some (.inf) := by
  decide

/-- The conversion table of L2.2. -/
theorem test_movN :
    valueAfter (.movN 3 true 0xFFFFFFFFFFFFFFFF) bench 3 = some (.inf) ∧
    valueAfter (.movN 3 false 0xFFFFFFFFFFFFFFFF) bench 3 = some (.fin 0xFFFFFFFFFFFFFFFF) ∧
    valueAfter (.movN 0 true 0x7FFFFFFFFFFFFFFF) bench 0 = some (.fin 0x7FFFFFFFFFFFFFFF) ∧
    valueAfter (.movN 0 true 0x8000000000000000) bench 0 = some (.inf) := by
  decide

/-- With CAP = 1 and LIMB_W = 2, MAX is 3, and an operand of 4 is Infinity (R112). -/
theorem test_movN_past_max :
    valueAfter (.movN 0 false 3) { State.resetWith ⟨2, 1, 2⟩ with ci := 0 } 0 = some (.fin 3) ∧
    valueAfter (.movN 0 false 4) { State.resetWith ⟨2, 1, 2⟩ with ci := 0 } 0 = some .inf := by
  decide

/-- R117; P2 step 1. -/
theorem test_setc_rows :
    valueAfter (.setc 2 .max) bench 2 = some (.fin top) ∧
    valueAfter (.setc 4 .zero) bench 4 = some (.fin 0) ∧
    valueAfter (.setc 4 .inf) bench 4 = some (.inf) ∧
    valueAfter (.setc 4 .nan) bench 4 = some (.nan) := by
  decide

/-- Only ci advances (R250). -/
theorem test_nop : outputsAfter benchIll ⟨0x00000000, 5⟩ = some (42, 0x12, 1) := by decide

/-- P4 step 5. -/
theorem test_clrst : outputsAfter benchIll ⟨0x48000000, 0⟩ = some (42, 0, 1) := by decide

/-- P4 steps 1 and 3: STATUS.ILL is set, ci advances, nothing else changes (R261). -/
theorem test_illegal_word :
    outputsAfter bench ⟨0x4C000000, 0⟩ = some (0, 0x10, 1) ∧
    outputsAfter benchIll ⟨0x04010000, 0⟩ = some (42, 0x12, 1) ∧
    valueAfterCommand bench ⟨0x04010000, 0⟩ 2 = some (.fin 5) := by
  decide

/-- The reset event (R280): every register NaN, RES, STATUS and ci 0, whatever was in progress. -/
theorem test_reset_event :
    nextIs (step { benchIll with host := [.reset (some ⟨0x04420000, 1⟩)], ci := 9 }) (fun t => decide (t.regVal? 4 = some .nan ∧ t.res = 0 ∧ t.status.word = 0 ∧ t.ci = 0)) = true := by
  decide

/-- An unreachable register (len 2 with a zero top limb) makes every step refused by name, NOP and reset too (R40). -/
theorem test_unreachable_register :
    exec (.cls 0) { bench with regs := [⟨2, [1, 0, 0, 0]⟩] } = .refused .unreachableRegister ∧
    step { bench with regs := [⟨2, [1, 0, 0, 0]⟩], host := [.issue ⟨0, 0⟩] } = .refused .unreachableRegister ∧
    step { bench with regs := [⟨2, [1, 0, 0, 0]⟩], host := [.reset none] } = .refused .unreachableRegister :=
  ⟨rfl, rfl, rfl⟩

/-! ### Witnesses: the hypotheses of each obligation can be met, at the boundaries of their ranges -/

theorem test_witness_EncodedWordDecodesBack :
    (Instr.add 15 15).wellFormed Params.reference = true ∧
    (Instr.rdlimb 0 (2 ^ 64 - 1)).wellFormed Params.reference = true ∧ (Instr.setc 15 .max).wellFormed Params.reference = true := by
  decide

/-- Each of the eight cases, the third once for RD and once for RS. -/
theorem test_witness_IllegalExactlyInTheEightCases :
    IllegalCase 16 0x4C000000 ∧ IllegalCase 16 0x04000001 ∧ IllegalCase 8 0x26000000 ∧ IllegalCase 8 0x04200000 ∧
    IllegalCase 16 0x04010000 ∧ IllegalCase 16 0x04060000 ∧ IllegalCase 16 0x24040000 ∧ IllegalCase 16 0x3C100000 ∧
    IllegalCase 16 0x00400000 ∧ bench.reachableRegs = true ∧ State.host { bench with host := [.issue ⟨0x4C000000, 0⟩] } = .issue ⟨0x4C000000, 0⟩ :: [] := by
  refine ⟨?_, ?_, ?_, ?_, ?_, ?_, ?_, ?_, ?_, by decide, rfl⟩ <;> simp only [IllegalCase] <;> decide

theorem test_witness_IllegalExactlyInTheEightCases_not : ¬ IllegalCase 16 0x48000000 ∧ ¬ IllegalCase 16 0x07FC0000 := by
  constructor <;> simp only [IllegalCase] <;> decide

theorem test_witness_DecodedInstructionsAreWellFormed :
    2 ^ 64 - 1 < 2 ^ Params.reference.w ∧ decode 16 ⟨0x2BC00000, 2 ^ 64 - 1⟩ = .ok (.shl 15 (2 ^ 64 - 1)) := by
  decide

theorem test_witness_LengthFieldWidthIsLeast : ∀ l, l ≤ Params.reference.cap + 1 → l < 2 ^ 3 := by decide

/-- A legal and an illegal command next, in a state with the invariant. -/
theorem test_witness_StepRunsTheDecodedCommand :
    decode bench.regs.length ⟨0x07FC0000, 7 % 2 ^ bench.params.w⟩ = .ok (.add 15 15) ∧
    decode bench.regs.length ⟨0x4C000000, 7 % 2 ^ bench.params.w⟩ = .error .reservedOpcode ∧
    State.Inv { bench with host := [.issue ⟨0x07FC0000, 7⟩] } ∧ bench.reachableRegs = true := by
  decide

theorem test_witness_StepRunsTheDecodedCommand_next :
    nextIs (step { bench with host := [.issue ⟨0x07FC0000, 7⟩, .reset none] }) (fun t => decide (t.ci = 1 ∧ t.host = [.reset none])) = true := by
  decide

theorem test_witness_IllegalCommandIsPrecise :
    benchIll.reachableRegs = true ∧ decode benchIll.nreg (benchIll.accepted ⟨0x04010000, 0⟩) = .error .signedRegisterForm := by
  decide

/-- NREG = 8: N8 is absent as receiver, as operand, and in a class U field. -/
theorem test_witness_AbsentRegisterIsIllegal :
    (∃ r ∈ (Instr.add 8 0).regFields, tiny.regs.length ≤ r.toNat) ∧ (∃ r ∈ (Instr.add 0 8).regFields, tiny.regs.length ≤ r.toNat) ∧
    (∃ r ∈ (Instr.setc 15 .max).regFields, tiny.regs.length ≤ r.toNat) := by
  decide

/-- A length past CAP + 1, and a zero top limb at lengths 2 and CAP. -/
theorem test_witness_UnreachableRegisterIsRefused :
    ∀ n ∈ [(⟨6, [1, 1, 1, 1]⟩ : NReg), ⟨2, [1, 0, 1, 1]⟩, ⟨4, [1, 1, 1, 0]⟩],
      (Instr.mov 1 0).regsExist (State.params { bench with regs := [n, n] }) = true ∧ (0 : RegIdx) ∈ readRegs (.mov 1 0) ∧
      n ∈ State.regs { bench with regs := [n, n] } ∧ (State.regs { bench with regs := [n, n] })[(0 : RegIdx).toNat]? = some n ∧
      (bench.cap + 1 < n.len ∨ (2 ≤ n.len ∧ n.len ≤ bench.cap ∧ n.limb.getD (n.len - 1) 0 = 0)) := by
  decide

theorem test_witness_UnreachableRegisterIsRefused_inv :
    bench.Inv ∧ tiny.Inv ∧ bench.reachableRegs = true ∧ tiny.reachableRegs = true := by decide

theorem test_witness_CommandsCompleteOnAllValues :
    (Instr.div 5 1).regsExist bench.params = true ∧ (∀ r ∈ readRegs (.div 5 1), (bench.regVal? r).isSome = true) ∧
    (∀ r ∈ readRegs (.movN 15 true 0), (bench.regVal? r).isSome = true) := by
  decide

theorem test_witness_IdleCoreKeepsItsState :
    bench.reachableRegs = true ∧ bench.host = [] ∧ State.Inv { bench with host := [.issue ⟨0xFC000000, 0⟩] } := by
  decide

theorem test_witness_ResetEventRestoresResetValues :
    bench.reachableRegs = true ∧ (15 : RegIdx).toNat < bench.regs.length ∧ bench.regs ≠ [] := by
  decide

/-- LIMB_W = 1 allows CAP up to 2^W - 2 = 2. -/
theorem test_witness_ResetStateMeetsInvariant :
    Params.Ok ⟨1, 1, 1⟩ ∧ Params.Ok ⟨1, 2, 16⟩ ∧ Params.Ok Params.reference ∧ ¬ Params.Ok ⟨1, 3, 16⟩ := by
  decide

/-- The invariant holds before a step that writes a register, one that sets ILL and a reset, and each answers. -/
theorem test_witness_EveryStepKeepsTheInvariant :
    ∀ x ∈ [HostInput.issue ⟨0x04D00000, 0⟩, .issue ⟨0xFC000000, 0⟩, .reset none],
      State.Inv { bench with host := [x] } ∧ nextIs (step { bench with host := [x] }) (fun _ => true) = true := by
  decide

theorem test_witness_StepIsTotal : bench.Inv ∧ benchIll.Inv ∧ tiny.Inv := by decide

/-- Two states that differ in limbs at or above `len`, in a sentinel's limbs and in the counter of free values. -/
theorem test_witness_UnspecifiedLimbsAreUnobservable :
    bench.params.Ok ∧
    Agree { bench with regs := [⟨0, [9, 9, 9, 9]⟩, ⟨1, [5, 7, 7, 7]⟩, ⟨5, [1, 2, 3, 4]⟩], draws := 3 }
      { bench with regs := [⟨0, [0, 1, 0, 1]⟩, ⟨1, [5, 0, 8, 0]⟩, ⟨5, [0, 0, 0, 0]⟩], draws := 8 } := by
  refine ⟨by decide, by decide, by decide, rfl, rfl, rfl, rfl⟩

/-- CLRST and a reset clear ILL. -/
theorem test_witness_IllIsStickyUntilClrstOrReset :
    benchIll.status.ill = true ∧ ∀ x ∈ [HostInput.issue ⟨0x48000000, 9⟩, .reset none],
      nextIs (step { benchIll with host := [x] }) (fun t => decide (t.status.ill = false)) = true := by
  decide

/-- A second illegal command while ILL is 1. -/
theorem test_witness_IllIsStickyUntilClrstOrReset_second :
    decode benchIll.nreg (benchIll.accepted ⟨0xFC000000, 0⟩) = .error .reservedOpcode ∧ benchIll.status.ill = true ∧
    nextIs (step { benchIll with host := [.issue ⟨0xFC000000, 0⟩] }) (fun t => decide (t.status.ill = true)) = true := by
  decide

/-- An instruction that writes RES and one that does not, each answering a next state. -/
theorem test_witness_OnlyReadoutCommandsWriteRes :
    (∃ t, exec (.cls 4) benchIll = .next t) ∧ writesRes (.cls 4) = true ∧ (∃ t, exec (.add 4 5) benchIll = .next t) ∧
    writesRes (.add 4 5) = false :=
  ⟨⟨_, rfl⟩, rfl, ⟨_, rfl⟩, rfl⟩

/-- An overflow, a negative difference and a division by zero answer next states. -/
theorem test_witness_OnlyCompareAndClearWriteStatus :
    ∀ i ∈ [Instr.add 4 4, .sub 1 4, .div 4 1],
      i.regsExist benchIll.params = true ∧ writesStatus i = false ∧ (valueAfter i benchIll 4).isSome = true := by
  decide

theorem test_witness_ParametersNeverChange : ∃ t, step { tiny with host := [.issue ⟨0x04840000, 0⟩] } = .next t := ⟨_, rfl⟩

/-- A legal and an illegal command each answer a next state with ci one more. -/
theorem test_witness_CommandIndexCountsCompletedCommands :
    outputsAfter { bench with ci := 2 ^ 70 } ⟨0x00000000, 0⟩ = some (0, 0, 2 ^ 70 + 1) ∧
    outputsAfter { bench with ci := 2 ^ 70 } ⟨0xFC000000, 0⟩ = some (0, 0x10, 2 ^ 70 + 1) := by
  decide

theorem test_witness_AddGivesSaturatedSum :
    bench.params.Ok ∧ bench.regVal? 4 = some (.fin top) ∧ bench.regVal? 7 = some (.fin 1) ∧
    2 ^ 64 - 1 < 2 ^ bench.params.w := by
  decide

theorem test_witness_SubGivesDifferenceOrInfinity :
    bench.params.Ok ∧ bench.regVal? 5 = some (.inf) ∧ bench.regVal? 5 = some (.inf) ∧
    2 ^ 64 - 1 < 2 ^ bench.params.w := by
  decide

theorem test_witness_MulGivesSaturatedProduct :
    bench.params.Ok ∧ bench.regVal? 1 = some (.fin 0) ∧ bench.regVal? 5 = some (.inf) ∧
    2 ^ 64 - 1 < 2 ^ bench.params.w := by
  decide

theorem test_witness_DivGivesFloorQuotient :
    bench.params.Ok ∧ bench.regVal? 4 = some (.fin top) ∧ bench.regVal? 1 = some (.fin 0) ∧
    2 ^ 64 - 1 < 2 ^ bench.params.w := by
  decide

theorem test_witness_ModGivesRemainder :
    bench.params.Ok ∧ bench.regVal? 3 = some (.fin 12) ∧ bench.regVal? 5 = some (.inf) ∧
    2 ^ 64 - 1 < 2 ^ bench.params.w := by
  decide

theorem test_witness_AndGivesBitwiseResult :
    bench.params.Ok ∧ bench.regVal? 5 = some (.inf) ∧ bench.regVal? 1 = some (.fin 0) ∧
    2 ^ 64 - 1 < 2 ^ bench.params.w := by
  decide

theorem test_witness_OrGivesBitwiseResult :
    bench.params.Ok ∧ bench.regVal? 8 = some (.fin 0x10000000000000000) ∧ bench.regVal? 4 = some (.fin top) ∧
    2 ^ 64 - 1 < 2 ^ bench.params.w := by
  decide

theorem test_witness_XorGivesBitwiseResult :
    bench.params.Ok ∧ bench.regVal? 0 = some (.nan) ∧ bench.regVal? 5 = some (.inf) ∧
    2 ^ 64 - 1 < 2 ^ bench.params.w := by
  decide

theorem test_witness_CmpShowsTheOutcome :
    bench.params.Ok ∧ bench.regVal? 5 = some (.inf) ∧ bench.regVal? 4 = some (.fin top) ∧
    2 ^ 64 - 1 < 2 ^ bench.params.w := by
  decide

theorem test_witness_NotComplementsWithinCapacity :
    bench.params.Ok ∧ bench.regVal? 4 = some (.fin top) ∧ bench.regVal? 0 = some .nan ∧ bench.regVal? 5 = some .inf ∧
    bench.regVal? 1 = some (.fin 0) := by
  decide

theorem test_witness_ClsDeliversTheCategoryCode :
    bench.params.Ok ∧ bench.regVal? 4 = some (.fin top) ∧ bench.regVal? 0 = some .nan ∧ bench.regVal? 5 = some .inf ∧
    bench.regVal? 1 = some (.fin 0) := by
  decide

theorem test_witness_ShlMultipliesOrSaturates :
    bench.params.Ok ∧ bench.regVal? 7 = some (.fin 1) ∧ 0 < 2 ^ bench.params.w ∧ 128 < 2 ^ bench.params.w ∧
    2 ^ 64 - 1 < 2 ^ bench.params.w := by
  decide

theorem test_witness_ShrDividesByPowerOfTwo :
    bench.params.Ok ∧ bench.regVal? 4 = some (.fin top) ∧ 0 < 2 ^ bench.params.w ∧ 128 < 2 ^ bench.params.w ∧
    2 ^ 64 - 1 < 2 ^ bench.params.w := by
  decide

/-- Each of the four outcomes is shown by some command's next state. -/
theorem test_witness_RelationalPredicatesReadTheOutcome :
    (∃ t, exec (.cmp 2 3) benchIll = .next t ∧ ShowsOutcome .lt benchIll t) ∧
    (∃ t, exec (.cmp 2 2) benchIll = .next t ∧ ShowsOutcome .eq benchIll t) ∧
    (∃ t, exec (.cmp 3 2) benchIll = .next t ∧ ShowsOutcome .gt benchIll t) ∧
    (∃ t, exec (.cmp 0 2) benchIll = .next t ∧ ShowsOutcome .un benchIll t) :=
  ⟨⟨_, rfl, rfl⟩, ⟨_, rfl, rfl⟩, ⟨_, rfl, rfl⟩, ⟨_, rfl, rfl⟩⟩

theorem test_witness_RelationalPredicatesReadTheOutcome_infinities :
    ∃ t, exec (.cmp 5 5) benchIll = .next t ∧ ShowsOutcome (cmpCell .inf .inf) benchIll t := ⟨_, rfl, rfl⟩

theorem test_witness_MovCopiesTheValue :
    bench.params.Ok ∧ (15 : RegIdx).toNat < bench.regs.length ∧ bench.regVal? 5 = some .inf ∧ bench.regVal? 0 = some .nan := by
  decide

theorem test_witness_MovNConstructsFromNative :
    tiny.params.Ok ∧ (7 : RegIdx).toNat < tiny.regs.length ∧ 0 < 2 ^ tiny.params.w ∧ 15 < 2 ^ tiny.params.w := by
  decide

theorem test_witness_SetcSetsTheNamedConstant :
    bench.params.Ok ∧ (15 : RegIdx).toNat < bench.regs.length ∧ 3 < (4 : RegIdx).toNat ∧ 3 < (15 : RegIdx).toNat := by
  decide

theorem test_witness_RdlimbReadsThroughTheAccessor :
    bench.params.Ok ∧ bench.regs[(6 : RegIdx).toNat]? = some ⟨2, [5, 1, 7, 7]⟩ ∧ bench.regVal? 6 = some (.fin 0x100000005) ∧
    2 ^ 64 - 1 < 2 ^ bench.params.w ∧ bench.regs[(5 : RegIdx).toNat]? = some ⟨5, [3, 3, 3, 3]⟩ ∧ bench.regVal? 5 = some .inf := by
  decide

theorem test_witness_RdlenReadsTheLengthCounter :
    bench.params.Ok ∧ bench.regs[(8 : RegIdx).toNat]? = some ⟨3, [0, 0, 1, 7]⟩ ∧
    bench.regVal? 8 = some (.fin 0x10000000000000000) ∧ bench.regs[(0 : RegIdx).toNat]? = some ⟨0, [9, 9, 9, 9]⟩ ∧ bench.regVal? 0 = some .nan := by
  decide

theorem test_witness_NopOnlyAdvancesTheCommandIndex :
    (0x00010000 : Word).toNat / 2 ^ 26 = 0 ∧ (0x00010000 : Word) ≠ 0 ∧ (0x03FFFFFF : Word).toNat / 2 ^ 26 = 0 := by
  decide

theorem test_witness_ClrstClearsStatusOnly :
    (0x48000001 : Word).toNat / 2 ^ 26 = 0x12 ∧ (0x48000001 : Word) ≠ 0x48000000 ∧ (0x4BFFFFFF : Word).toNat / 2 ^ 26 = 0x12 := by
  decide

theorem test_witness_NativeFormEqualsRegisterForm :
    bench.regVal? 2 = some (nat bench.params 5 true) ∧ bench.regVal? 5 = some (nat bench.params (2 ^ 63) true) := by
  decide

theorem test_witness_AddThenSubRestores :
    tiny.params.Ok ∧ (2 : RegIdx) ≠ 3 ∧ tiny.regVal? 2 = some (.fin 3) ∧ tiny.regVal? 3 = some (.fin 6) ∧
    3 + 6 < tiny.params.base ^ tiny.params.cap := by
  decide

theorem test_witness_QuotientAndRemainderRebuildDividend : 15 < Params.base ⟨2, 2, 8⟩ ^ 2 ∧ 0 < 1 := by decide

/-- 6 shifted by 1 fits 4 bits, by 2 it does not. -/
theorem test_witness_ShiftRoundTripOrSaturation :
    tiny.params.Ok ∧ tiny.regVal? 3 = some (.fin 6) ∧ 1 < 2 ^ tiny.params.w ∧ 2 < 2 ^ tiny.params.w ∧ 15 < 2 ^ tiny.params.w := by
  decide

theorem test_witness_NormalizedEncodingIsUnique :
    Params.Ok ⟨2, 2, 8⟩ ∧ NReg.Normalized ⟨2, 2, 8⟩ ⟨2, [2, 1]⟩ ∧ NReg.Normalized ⟨2, 2, 8⟩ ⟨1, [0, 3]⟩ ∧
    NReg.Normalized ⟨2, 2, 8⟩ ⟨3, [2, 2]⟩ ∧ NReg.value ⟨2, 2, 8⟩ ⟨2, [2, 1]⟩ = .fin 6 := by
  decide

theorem test_witness_NormalizeGivesCanonicalEncoding :
    Params.Ok ⟨2, 4, 8⟩ ∧ 1 ≤ [3, 1, 0, 0].length ∧ [3, 1, 0, 0].length ≤ 4 ∧ (∀ l ∈ [3, 1, 0, 0], l < Params.base ⟨2, 4, 8⟩) ∧
    1 ≤ [0].length := by
  decide

/-- The registers of the limb-level statements: a length of 1 and of CAP, with other numbers above `len`. -/
theorem test_witness_RippleAdderGivesSaturatedSum :
    Params.Ok ⟨2, 2, 8⟩ ∧ NReg.value? ⟨2, 2, 8⟩ ⟨1, [3, 3]⟩ = some (.fin 3) ∧ NReg.value? ⟨2, 2, 8⟩ ⟨2, [3, 3]⟩ = some (.fin 15) := by
  decide

theorem test_witness_RippleSubtractorGivesDifference :
    Params.Ok ⟨2, 2, 8⟩ ∧ NReg.value? ⟨2, 2, 8⟩ ⟨1, [0, 3]⟩ = some (.fin 0) ∧ NReg.value? ⟨2, 2, 8⟩ ⟨2, [3, 3]⟩ = some (.fin 15) := by
  decide

theorem test_witness_SchoolbookMultiplierGivesProduct :
    Params.Ok ⟨2, 2, 8⟩ ∧ NReg.value? ⟨2, 2, 8⟩ ⟨2, [2, 1]⟩ = some (.fin 6) ∧ NReg.value? ⟨2, 2, 8⟩ ⟨2, [3, 3]⟩ = some (.fin 15) := by
  decide

theorem test_witness_BitwiseUnitActsOnMagnitudes :
    Params.Ok ⟨2, 2, 8⟩ ∧ NReg.value? ⟨2, 2, 8⟩ ⟨1, [0, 3]⟩ = some (.fin 0) ∧ NReg.value? ⟨2, 2, 8⟩ ⟨2, [3, 3]⟩ = some (.fin 15) := by
  decide

theorem test_witness_LimbComparatorComparesMagnitudes :
    Params.Ok ⟨2, 2, 8⟩ ∧ NReg.value? ⟨2, 2, 8⟩ ⟨2, [2, 1]⟩ = some (.fin 6) ∧ NReg.value? ⟨2, 2, 8⟩ ⟨2, [3, 3]⟩ = some (.fin 15) := by
  decide

theorem test_witness_SingleLimbDividerGivesQuotientAndRemainder :
    Params.Ok ⟨2, 2, 8⟩ ∧ NReg.value? ⟨2, 2, 8⟩ ⟨2, [3, 3]⟩ = some (.fin 15) ∧ 0 < 1 ∧ 0 < 3 ∧ 1 < Params.base ⟨2, 2, 8⟩ ∧
    3 < Params.base ⟨2, 2, 8⟩ := by
  decide

theorem test_witness_LongDivisionGivesQuotientAndRemainder :
    Params.Ok ⟨2, 2, 8⟩ ∧ NReg.value? ⟨2, 2, 8⟩ ⟨2, [3, 3]⟩ = some (.fin 15) ∧
    NReg.value? ⟨2, 2, 8⟩ ⟨2, [2, 1]⟩ = some (.fin 6) ∧ NReg.value? ⟨2, 2, 8⟩ ⟨1, [1, 3]⟩ = some (.fin 1) ∧ 0 < 6 ∧ 0 < 1 := by
  decide

theorem test_witness_BarrelShifterGivesShifts :
    Params.Ok ⟨2, 2, 8⟩ ∧ NReg.value? ⟨2, 2, 8⟩ ⟨2, [2, 1]⟩ = some (.fin 6) ∧ NReg.value? ⟨2, 2, 8⟩ ⟨1, [0, 3]⟩ = some (.fin 0) := by
  decide

theorem test_witness_AssemblerEmitsOnlyLegalCommands :
    Params.Ok Params.reference ∧ assemble Params.reference (.reg .add 15 15) = some ⟨0x07FC0000, 0⟩ ∧ 15 < Params.reference.nreg ∧
    2 ^ 64 - 1 < 2 ^ Params.reference.w ∧ 2 ^ 63 ≤ 2 ^ (Params.reference.w - 1) := by
  decide

end Sys2Proof.Tests
end

section
/-!
PROOFS. The width of a length field (R11).
-/

namespace Sys2Proof

/-- The width is at most `n` exactly when the largest length, `CAP + 1`, fits in `n` bits: what R11 says of `LEN_W`. -/
theorem Params.lenW_le_iff (p : Params) (n : Nat) : p.lenW ≤ n ↔ p.cap + 1 < 2 ^ n :=
  Nat.succ_le_iff.trans (Nat.log2_lt p.cap.succ_ne_zero)

theorem Params.cap_succ_lt_two_pow_lenW (p : Params) : p.cap + 1 < 2 ^ p.lenW :=
  (p.lenW_le_iff p.lenW).mp le_rfl

/-- Both widths have the same upper bounds. -/
theorem Params.lenW_eq_clog (p : Params) : p.lenW = Nat.clog 2 (p.cap + 2) :=
  eq_of_forall_ge_iff fun n =>
    calc p.lenW ≤ n ↔ p.cap + 1 < 2 ^ n := p.lenW_le_iff n
      _ ↔ Nat.clog 2 (p.cap + 2) ≤ n := (Nat.clog_le_iff_le_pow one_lt_two).symm

theorem Params.lenW_reference : Params.reference.lenW = 3 := by decide

/-- Settles O6: a width holds every length exactly when it holds the largest one, and `Params.lenW_le_iff` gives the
least width that does. -/
theorem lengthFieldWidthIsLeast : Obligations.LengthFieldWidthIsLeast := by
  unfold Obligations.LengthFieldWidthIsLeast
  refine ⟨fun p => ⟨fun l hl => ?holds, fun n hn => ?least, p.lenW_eq_clog⟩, Params.lenW_reference⟩
  case holds => exact hl.trans_lt p.cap_succ_lt_two_pow_lenW
  case least => exact (p.lenW_le_iff n).mpr (hn (p.cap + 1) le_rfl)

end Sys2Proof
end

section
/-!
PROOFS. The limbs that R35 leaves unspecified are unobservable (R50): a register's value depends on its used limbs only,
and a relation between states that the operations on the state keep is kept by every instruction, run on both sides.
-/

namespace Sys2Proof.Machine

/-! ### A register's value depends on its length and its used limbs -/

/-- Two registers with the same fields, apart from limbs that R35 leaves unspecified: those at and above `len`, and
every limb of a sentinel. -/
structure NReg.SameUsed (p : Params) (q r : NReg) : Prop where
  len : q.len = r.len
  limbs : q.limb.length = r.limb.length
  used : r.len ≤ p.cap → q.limb.take r.len = r.limb.take r.len

namespace NReg.SameUsed

variable {p : Params} {q r : NReg}

theorem getD (h : q.SameUsed p r) (hc : r.len ≤ p.cap) {i : Nat} (hi : i < r.len) :
    q.limb.getD i 0 = r.limb.getD i 0 := by
  simpa only [List.getD, List.getElem?_take_of_lt hi] using congrArg (·.getD i 0) (h.used hc)

theorem legal (h : q.SameUsed p r) : q.legal p = r.legal p := by
  by_cases hc : 1 ≤ r.len ∧ r.len ≤ p.cap
  · have htop : q.limb.getD (r.len - 1) 0 = r.limb.getD (r.len - 1) 0 := h.getD hc.2 (by omega)
    simp only [NReg.legal, h.len, h.limbs, h.used hc.2, htop]
  · have hsentinel : (decide (1 ≤ r.len) && decide (r.len ≤ p.cap)) = false := by simpa using hc
    simp only [NReg.legal, h.len, h.limbs, hsentinel, Bool.false_and]

theorem category (h : q.SameUsed p r) (hc : r.len ≤ p.cap) : q.category p = r.category p := by
  have hzero : (r.len = 1 ∧ q.limb.getD 0 0 = 0) ↔ (r.len = 1 ∧ r.limb.getD 0 0 = 0) :=
    and_congr_right fun h1 => by rw [h.getD hc (by omega)]
  simp only [NReg.category, h.len, hzero]

theorem value (h : q.SameUsed p r) (hc : r.len ≤ p.cap + 1) : q.value p = r.value p := by
  rcases Nat.le_succ_iff.1 hc with hc | hinf
  · have hmag : q.magnitude p = r.magnitude p := by simp only [NReg.magnitude, h.len, h.used hc]
    simp only [NReg.value, h.category hc, hmag]
  · simp [NReg.value, NReg.category, h.len, hinf]

/-- A command reads the same from both registers (R35, R36). -/
theorem value? (h : q.SameUsed p r) : q.value? p = r.value? p := by
  rw [NReg.value?, NReg.value?, h.legal]
  refine ite_congr rfl (fun hr => congrArg some (h.value ?_)) fun _ => rfl
  simp only [NReg.legal, Bool.and_eq_true, Bool.or_eq_true, beq_iff_eq, decide_eq_true_eq] at hr
  omega

end NReg.SameUsed

/-- Two encodings of one value have the same used limbs, whatever is drawn for the others (R38). -/
theorem enc_sameUsed (p : Params) (j k : Nat → Nat) (v : Val) : (NReg.enc p j v).SameUsed p (NReg.enc p k v) := by
  refine ⟨by simp, by simp, fun hlen => ?_⟩
  rcases v with _ | _ | (_ | m)
  · rfl
  · exact absurd hlen (Nat.not_succ_le_self p.cap)
  · exact (encLimbs_take p j 0 hlen).trans (encLimbs_take p k 0 hlen).symm
  · exact (encLimbs_take p j (m + 1) hlen).trans (encLimbs_take p k (m + 1) hlen).symm

theorem enc_value?_eq (p : Params) (j k : Nat → Nat) (v : Val) :
    (NReg.enc p j v).value? p = (NReg.enc p k v).value? p := (enc_sameUsed p j k v).value?

/-! ### Running one instruction on two related states -/

/-- Two outcomes that correspond under `R`: next states that `R` relates, or refusals by one name. -/
def OutRel (R : State → State → Prop) : Out → Out → Prop
  | .next s, .next u => R s u
  | .refused a, .refused b => a = b
  | _, _ => False

/-- What makes a relation between states one that no instruction breaks: related states show commands the same
parameters and register values, and each operation on the state, run on both sides, keeps the relation. -/
structure Lockstep (R : State → State → Prop) : Prop where
  params {s u : State} : R s u → s.params = u.params
  regVal? {s u : State} : R s u → ∀ r, s.regVal? r = u.regVal? r
  writeReg {s u : State} : R s u → ∀ rd v, R (s.writeReg rd v) (u.writeReg rd v)
  writeRes {s u : State} : R s u → ∀ v, R (s.writeRes v) (u.writeRes v)
  mapStatus {s u : State} : R s u → ∀ f : Status → Status,
    R { s with status := f s.status } { u with status := f u.status }
  retire {s u : State} : R s u → R s.retire u.retire

namespace Lockstep

variable {R : State → State → Prop} {s u : State}

theorem nreg (hR : Lockstep R) (h : R s u) : s.nreg = u.nreg := congrArg Params.nreg (hR.params h)

theorem raiseIllegal (hR : Lockstep R) (h : R s u) : R s.raiseIllegal u.raiseIllegal :=
  hR.retire (hR.mapStatus h fun st => { st with ill := true })

theorem withDest (hR : Lockstep R) (h : R s u) (rd : RegIdx) {k k' : Out} (hk : OutRel R k k') :
    OutRel R (s.withDest rd k) (u.withDest rd k') := by
  rw [State.withDest, State.withDest, hR.nreg h]
  split
  · exact hk
  · exact hR.raiseIllegal h

theorem withReg (hR : Lockstep R) (h : R s u) (r : RegIdx) {k k' : Val → Out} (hk : ∀ v, OutRel R (k v) (k' v)) :
    OutRel R (s.withReg r k) (u.withReg r k') := by
  refine hR.withDest h r ?_
  rw [hR.regVal? h r]
  cases u.regVal? r with
  | none => rfl
  | some v => exact hk v

theorem withRegs (hR : Lockstep R) (h : R s u) (rd rs : RegIdx) {k k' : Val → Val → Out}
    (hk : ∀ x y, OutRel R (k x y) (k' x y)) : OutRel R (s.withRegs rd rs k) (u.withRegs rd rs k') :=
  hR.withDest h rd <| hR.withDest h rs <| hR.withReg h rd fun x => hR.withReg h rs fun y => hk x y

theorem finishReg (hR : Lockstep R) (h : R s u) (rd : RegIdx) {v w : Val} (hv : v = w) :
    OutRel R (s.finishReg rd v) (u.finishReg rd w) := hv ▸ hR.retire (hR.writeReg h rd v)

theorem finishCmp (hR : Lockstep R) (h : R s u) {o o' : CmpOutcome} (ho : o = o') :
    OutRel R (s.finishCmp o) (u.finishCmp o') := ho ▸ hR.retire (hR.mapStatus h (·.setCmp o))

theorem binaryReg (hR : Lockstep R) (h : R s u) (f : Params → Val → Val → Val) (rd rs : RegIdx) :
    OutRel R (s.binaryReg f rd rs) (u.binaryReg f rd rs) :=
  hR.withRegs h rd rs fun x y => hR.finishReg h rd (by rw [hR.params h])

theorem binaryNative (hR : Lockstep R) (h : R s u) (f : Params → Val → Val → Val) (rd : RegIdx) (sg : Bool) (v : Nat) :
    OutRel R (s.binaryNative f rd sg v) (u.binaryNative f rd sg v) :=
  hR.withReg h rd fun x => hR.finishReg h rd (by rw [hR.params h])

theorem unary (hR : Lockstep R) (h : R s u) (f : Params → Val → Val) (rd : RegIdx) :
    OutRel R (s.unary f rd) (u.unary f rd) :=
  hR.withReg h rd fun x => hR.finishReg h rd (by rw [hR.params h])

theorem readout (hR : Lockstep R) (h : R s u) (f : Params → Val → Nat) (rd : RegIdx) :
    OutRel R (s.readout f rd) (u.readout f rd) :=
  hR.withReg h rd fun _ => hR.params h ▸ hR.retire (hR.writeRes h _)

/-- Every instruction, run on two related states, answers related next states or refuses both by one name. -/
theorem outRel_exec (hR : Lockstep R) (h : R s u) (i : Instr) : OutRel R (exec i s) (exec i u) := by
  cases i with
  | nop => exact hR.retire h
  | clrst => exact hR.retire (hR.mapStatus h fun _ => Status.clear)
  | add rd rs | mul rd rs => exact hR.binaryReg h _ rd rs
  | sub rd rs | div rd rs | mod rd rs | and rd rs | or rd rs | xor rd rs =>
    exact hR.binaryReg h (fun _ => _) rd rs
  | addN rd sg v | mulN rd sg v => exact hR.binaryNative h _ rd sg v
  | subN rd sg v | divN rd sg v | modN rd sg v | andN rd sg v | orN rd sg v | xorN rd sg v =>
    exact hR.binaryNative h (fun _ => _) rd sg v
  | not rd | shl rd d | shr rd d => exact hR.unary h _ rd
  | cls rd => exact hR.readout h (fun _ v => v.cls.code) rd
  | rdlimb rd n => exact hR.readout h (fun p v => v.limb p n) rd
  | rdlen rd => exact hR.readout h (fun p v => v.encLen p) rd
  | cmp rd rs => exact hR.withRegs h rd rs fun x y => hR.finishCmp h rfl
  | cmpN rd sg v => exact hR.withReg h rd fun x => hR.finishCmp h (by rw [hR.params h])
  | mov rd rs => exact hR.withDest h rd <| hR.withReg h rs fun y => hR.finishReg h rd rfl
  | movN rd sg v => exact hR.withDest h rd <| hR.finishReg h rd (by rw [hR.params h])
  | setc rd k => exact hR.withDest h rd <| hR.finishReg h rd (by rw [hR.params h])

end Lockstep

/-! ### Every register's value, after a write and after a reset -/

/-- The written register reads what its encoding does, in range or not; a field that names no register reads nothing. -/
theorem State.writeReg_regVal?_target (s : State) (rd : RegIdx) (v : Val) :
    (s.writeReg rd v).regVal? rd =
      if rd.toNat < s.regs.length then (NReg.enc s.params (Config.freeLimb s.draws) v).value? s.params else none := by
  by_cases hrd : rd.toNat < s.regs.length <;> simp [State.regVal?, hrd]

theorem State.applyReset_regVal? {s : State} (hp : s.params.Ok) (r : RegIdx) :
    s.applyReset.regVal? r = if r.toNat < s.regs.length then some .nan else none := by
  have hnan (j : Nat → Nat) : (NReg.enc s.params j .nan).value? s.params = some .nan := enc_value? hp j trivial
  by_cases hr : r.toNat < s.regs.length <;> simp [State.regVal?, hr, hnan]

theorem State.isSome_regVal? {s : State} {r : RegIdx} (hr : r.toNat < s.regs.length) :
    (s.regVal? r).isSome = s.regs[r.toNat].legal s.params := by
  cases hl : s.regs[r.toNat].legal s.params <;> simp [State.regVal?, NReg.value?, hr, hl]

/-- Every register has a 4-bit number (R10), so the register values tell whether one is unreachable (R40). -/
theorem State.reachableRegs_iff_isSome_regVal? {s : State} (hn : s.regs.length ≤ 16) :
    s.reachableRegs = true ↔ ∀ r : RegIdx, r.toNat < s.regs.length → (s.regVal? r).isSome = true := by
  rw [State.reachableRegs_iff, List.forall_mem_iff_forall_getElem]
  constructor
  · intro h r hr
    rw [State.isSome_regVal? hr]
    exact h _ hr
  · intro h i hi
    have hnum : (BitVec.ofNat 4 i).toNat = i := (BitVec.toNat_ofNat i 4).trans (Nat.mod_eq_of_lt (hi.trans_le hn))
    have hsome := h (BitVec.ofNat 4 i) (hnum.symm ▸ hi)
    rw [State.isSome_regVal? (hnum.symm ▸ hi)] at hsome
    simpa only [hnum] using hsome

/-! ### `Agree` is kept by every step -/

namespace Agree

variable {s u : State}

theorem params (h : Agree s u) : s.params = u.params := h.1

theorem regVal? (h : Agree s u) (r : RegIdx) : s.regVal? r = u.regVal? r := h.2.1 r

theorem nregs (h : Agree s u) : s.regs.length = u.regs.length := congrArg Params.nreg h.params

theorem outputs (h : Agree s u) : s.outputs = u.outputs := by
  obtain ⟨-, -, hres, hst, -, -⟩ := h
  rw [State.outputs, State.outputs, hres, hst]

theorem withHost (h : Agree s u) (rest : List HostInput) : Agree { s with host := rest } { u with host := rest } := by
  obtain ⟨hp, hval, hres, hst, hci, -⟩ := h
  exact ⟨hp, hval, hres, hst, hci, rfl⟩

theorem writeReg (h : Agree s u) (rd : RegIdx) (v : Val) : Agree (s.writeReg rd v) (u.writeReg rd v) := by
  obtain ⟨hp, hval, hrest⟩ := id h
  refine ⟨by simpa using hp, fun r => ?_, hrest⟩
  rcases eq_or_ne rd r with rfl | hr
  · rw [State.writeReg_regVal?_target, State.writeReg_regVal?_target, h.nregs, hp, enc_value?_eq]
  · rw [State.writeReg_regVal?_other s hr, State.writeReg_regVal?_other u hr, hval r]

theorem applyReset (h : Agree s u) (hp : s.params.Ok) : Agree s.applyReset u.applyReset := by
  have hu : u.params.Ok := h.params ▸ hp
  obtain ⟨hpar, -, -, -, -, hhost⟩ := id h
  refine ⟨by simpa using hpar, fun r => ?_, rfl, rfl, rfl, hhost⟩
  rw [State.applyReset_regVal? hp, State.applyReset_regVal? hu, h.nregs]

/-- No instruction tells two states that agree apart (R50). -/
theorem lockstep : Lockstep Agree where
  params h := h.params
  regVal? h := h.regVal?
  writeReg h := h.writeReg
  writeRes := by
    rintro s u ⟨hp, hval, -, hrest⟩ v
    exact ⟨hp, hval, congrArg (fun p : Params => v % 2 ^ p.w) hp, hrest⟩
  mapStatus := by
    rintro s u ⟨hp, hval, hres, hst, hrest⟩ f
    exact ⟨hp, hval, hres, congrArg f hst, hrest⟩
  retire := by
    rintro s u ⟨hp, hval, hres, hst, hci, hhost⟩
    exact ⟨hp, hval, hres, hst, congrArg (· + 1) hci, hhost⟩

theorem reachableRegs (h : Agree s u) (hp : s.params.Ok) : s.reachableRegs = u.reachableRegs := by
  obtain ⟨-, -, -, -, hn⟩ := hp
  have hn : s.regs.length ≤ 16 := hn
  rw [Bool.eq_iff_iff, State.reachableRegs_iff_isSome_regVal? hn,
    State.reachableRegs_iff_isSome_regVal? (h.nregs ▸ hn), h.nregs]
  simp only [h.regVal?]

theorem accepted (h : Agree s u) (c : Command) : s.accepted c = u.accepted c := by
  rw [State.accepted, State.accepted, h.params]

/-- The steps of two states that agree answer states that agree, or refuse both by one name. -/
theorem outRel_step (h : Agree s u) (hp : s.params.Ok) : OutRel Agree (step s) (step u) := by
  obtain ⟨-, -, -, -, -, hhost⟩ := id h
  rw [step, step, State.ifReachable, State.ifReachable, h.reachableRegs hp, hhost, lockstep.nreg h]
  cases u.reachableRegs with
  | false => rfl
  | true =>
    rcases u.host with _ | ⟨c | c, rest⟩
    · exact h
    · simp only [h.accepted c]
      cases decode u.nreg (u.accepted c) with
      | error e => exact lockstep.raiseIllegal (h.withHost rest)
      | ok i => exact lockstep.outRel_exec (h.withHost rest) i
    · exact (h.withHost rest).applyReset hp

end Agree

/-- Settles O18: `Agree` is a relation that every operation on the state keeps, so every step does. -/
theorem unspecifiedLimbsAreUnobservable : Obligations.UnspecifiedLimbsAreUnobservable := by
  unfold Obligations.UnspecifiedLimbsAreUnobservable
  exact fun s u hp h => ⟨h.outputs, h.outRel_step hp⟩

end Sys2Proof.Machine
end

section
/-!
PROOFS. What a completed command writes besides a register: `RES` (R42), `STATUS` (R45) and `ci` (R48).
-/

namespace Sys2Proof.Machine

/-! ### What a command leaves when it answers a next state -/

/-- Every next state of `o` satisfies `P`, or is the illegal-command event of a register field, one of `fields`, that
names no register. -/
def Answers (s : State) (fields : List RegIdx) (P : State → Prop) (o : Out) : Prop :=
  ∀ t, o = .next t → (t = s.raiseIllegal ∧ ∃ r ∈ fields, s.regs.length ≤ r.toNat) ∨ P t

namespace Answers

variable {s : State} {fields : List RegIdx} {P : State → Prop}

theorem next {t : State} (h : P t) : Answers s fields P (.next t) := by
  rintro t' ⟨⟩
  exact .inr h

theorem withDest {rd : RegIdx} (hrd : rd ∈ fields) {k : Out} (hk : Answers s fields P k) :
    Answers s fields P (s.withDest rd k) := by
  rcases Nat.lt_or_ge rd.toNat s.regs.length with hlt | hle
  · rwa [State.withDest_of_lt hlt]
  · rw [State.withDest_of_le hle]
    rintro t ⟨⟩
    exact .inl ⟨rfl, rd, hrd, hle⟩

theorem withReg {r : RegIdx} (hr : r ∈ fields) {k : Val → Out} (hk : ∀ v, Answers s fields P (k v)) :
    Answers s fields P (s.withReg r k) := by
  refine withDest hr ?_
  cases s.regVal? r with
  | none => exact nofun
  | some v => exact hk v

theorem withRegs {rd rs : RegIdx} {k : Val → Val → Out} (hk : ∀ x y, Answers s [rd, rs] P (k x y)) :
    Answers s [rd, rs] P (s.withRegs rd rs k) := by
  have hrd : rd ∈ [rd, rs] := by simp
  have hrs : rs ∈ [rd, rs] := by simp
  exact withDest hrd <| withDest hrs <| withReg hrd fun x => withReg hrs fun y => hk x y

theorem binaryReg {rd rs : RegIdx} (h : ∀ v, P (s.writeReg rd v).retire) (f : Params → Val → Val → Val) :
    Answers s [rd, rs] P (s.binaryReg f rd rs) := withRegs fun _ _ => next (h _)

theorem binaryNative {rd : RegIdx} (h : ∀ v, P (s.writeReg rd v).retire) (f : Params → Val → Val → Val) (sg : Bool)
    (v : Nat) : Answers s [rd] P (s.binaryNative f rd sg v) := withReg (by simp) fun _ => next (h _)

theorem unary {rd : RegIdx} (h : ∀ v, P (s.writeReg rd v).retire) (f : Params → Val → Val) :
    Answers s [rd] P (s.unary f rd) := withReg (by simp) fun _ => next (h _)

theorem readout {rd : RegIdx} (h : ∀ v, P (s.writeRes v).retire) (f : Params → Val → Nat) :
    Answers s [rd] P (s.readout f rd) := withReg (by simp) fun _ => next (h _)

end Answers

/-- `t` keeps from `s` what instruction `i` does not write, and `RES` fits where `i` writes it. -/
structure KeepsOthers (i : Instr) (s t : State) : Prop where
  res_kept : writesRes i = false → t.res = s.res
  res_fits : writesRes i = true → t.res < 2 ^ s.params.w
  status_kept : writesStatus i = false → t.status = s.status

namespace KeepsOthers

variable {i : Instr} {s t : State}

/-- A state with the same `RES` and `STATUS`, after an instruction that does not write `RES`. -/
theorem of_same (hi : writesRes i = false) (hres : t.res = s.res) (hst : t.status = s.status) : KeepsOthers i s t :=
  ⟨fun _ => hres, fun h => absurd (hi.symm.trans h) Bool.false_ne_true, fun _ => hst⟩

theorem of_writesRes (hi : writesRes i = true) (v : Nat) : KeepsOthers i s (s.writeRes v).retire :=
  ⟨fun h => absurd (h.symm.trans hi) Bool.false_ne_true, fun _ => Nat.mod_lt _ (Nat.two_pow_pos _), fun _ => rfl⟩

theorem of_writesStatus (hres : writesRes i = false) (hst : writesStatus i = true) (st : Status) :
    KeepsOthers i s (State.retire { s with status := st }) :=
  ⟨fun _ => rfl, fun h => absurd (hres.symm.trans h) Bool.false_ne_true,
    fun h => absurd (h.symm.trans hst) Bool.false_ne_true⟩

end KeepsOthers

open Answers KeepsOthers in
/-- An instruction keeps what it does not write, unless a register field of it names no register. -/
theorem exec_answers (i : Instr) (s : State) : Answers s i.regFields (KeepsOthers i s) (exec i s) := by
  have hreg (hi : writesRes i = false) (rd : RegIdx) (v : Val) : KeepsOthers i s (s.writeReg rd v).retire :=
    of_same hi rfl rfl
  cases i with
  | nop => exact next (of_same rfl rfl rfl)
  | clrst => exact next (of_writesStatus rfl rfl _)
  | add rd rs | mul rd rs => exact binaryReg (hreg rfl rd) _
  | sub rd rs | div rd rs | mod rd rs | and rd rs | or rd rs | xor rd rs => exact binaryReg (hreg rfl rd) fun _ => _
  | addN rd sg v | mulN rd sg v => exact binaryNative (hreg rfl rd) _ sg v
  | subN rd sg v | divN rd sg v | modN rd sg v | andN rd sg v | orN rd sg v | xorN rd sg v =>
    exact binaryNative (hreg rfl rd) (fun _ => _) sg v
  | not rd | shl rd d | shr rd d => exact unary (hreg rfl rd) _
  | cls rd => exact readout (of_writesRes rfl) fun _ v => v.cls.code
  | rdlimb rd n => exact readout (of_writesRes rfl) fun p v => v.limb p n
  | rdlen rd => exact readout (of_writesRes rfl) fun p v => v.encLen p
  | cmp rd rs => exact withRegs fun _ _ => next (of_writesStatus rfl rfl _)
  | cmpN rd sg v => exact withReg (by simp [Instr.regFields]) fun _ => next (of_writesStatus rfl rfl _)
  | mov rd rs =>
    exact withDest (by simp [Instr.regFields]) <| withReg (by simp [Instr.regFields]) fun v => next (hreg rfl rd v)
  | movN rd sg v => exact withDest (by simp [Instr.regFields]) <| next (hreg rfl rd _)
  | setc rd k => exact withDest (by simp [Instr.regFields]) <| next (hreg rfl rd _)

theorem regField_lt_of_regsExist {p : Params} {i : Instr} (h : i.regsExist p = true) {r : RegIdx} (hr : r ∈ i.regFields) :
    r.toNat < p.nreg := of_decide_eq_true (List.all_eq_true.1 h r hr)

theorem exec_keepsOthers {i : Instr} {s t : State} (hi : i.regsExist s.params = true) (h : exec i s = .next t) :
    KeepsOthers i s t := by
  rcases exec_answers i s t h with ⟨-, r, hr, hle⟩ | hk
  · exact absurd (regField_lt_of_regsExist hi hr) (Nat.not_lt.2 hle)
  · exact hk

/-! ### `RES` (R42) -/

/-- Two states that differ at most in `RES`. -/
abbrev SameButRes (s u : State) : Prop := { s with res := 0 } = { u with res := 0 }

/-- No instruction reads `RES`: each operation on the state commutes with clearing it. -/
theorem SameButRes.lockstep : Lockstep SameButRes where
  params h := (congrArg State.params h :)
  regVal? h r := (congrArg (fun x : State => x.regVal? r) h :)
  writeReg h rd v := congrArg (fun x : State => x.writeReg rd v) h
  writeRes h _ := h
  mapStatus h f := congrArg (fun x : State => { x with status := f x.status }) h
  retire h := congrArg State.retire h

/-- An outcome related to a next state is a related next state. -/
theorem OutRel.exists_next {R : State → State → Prop} {t : State} {o : Out} (h : OutRel R (.next t) o) :
    ∃ t', o = .next t' ∧ R t t' := by
  cases o with
  | next t' => exact ⟨t', rfl, h⟩
  | refused _ => exact h.elim
  | fault e => exact nomatch e

/-- Settles O20: an instruction keeps `RES` unless it writes it, and runs in lockstep on two states that differ in `RES`
only. -/
theorem onlyReadoutCommandsWriteRes : Obligations.OnlyReadoutCommandsWriteRes := by
  unfold Obligations.OnlyReadoutCommandsWriteRes
  refine ⟨fun s t i h hi => ?kept, fun s t i h hi => ?fits, fun s t i v h => ?unread, fun _ => rfl⟩
  case kept =>
    rcases exec_answers i s t h with ⟨rfl, -⟩ | hk
    · rfl
    · exact hk.res_kept hi
  case fits =>
    rcases exec_answers i s t h with ⟨rfl, -⟩ | hk
    · exact .inl rfl
    · exact .inr (hk.res_fits hi)
  case unread =>
    have hstart : SameButRes s { s with res := v } := rfl
    have hrun := SameButRes.lockstep.outRel_exec hstart i
    rw [h] at hrun
    obtain ⟨t', hnext, hsame⟩ := hrun.exists_next
    exact ⟨t', hnext, hsame.symm⟩

/-! ### `STATUS` (R45) -/

/-- Settles O21: an instruction whose registers exist keeps `STATUS` unless it writes it. -/
theorem onlyCompareAndClearWriteStatus : Obligations.OnlyCompareAndClearWriteStatus := by
  unfold Obligations.OnlyCompareAndClearWriteStatus
  exact fun s t i hi h hst => (exec_keepsOthers hi h).status_kept hst

/-! ### `ci` (R48) -/

/-- Whatever a command does, `ci` counts it. -/
theorem Effect.ci {s t : State} (h : Effect s t) : t.ci = s.ci + 1 := by
  cases h with
  | illegal h | reg _ _ _ _ h | res _ h | cmp _ h | clear h | none h => rw [h]; rfl

/-- A step that takes a command has one of the effects of a command, on the state with the command taken (R290). -/
theorem step_effect {s t : State} {c : Command} {rest : List HostInput} (hs : s.host = .issue c :: rest)
    (h : step s = .next t) : Effect { s with host := rest } t := by
  rcases step_cases s with ⟨-, hr⟩ | ⟨-, ⟨h0, -⟩ | ⟨_, _, h0, -⟩ | ⟨_, _, _, h0, -, hstep⟩ | ⟨_, _, i, h0, -, hstep⟩⟩
  · cases hr.symm.trans h
  · cases hs.symm.trans h0
  · cases hs.symm.trans h0
  · cases hs.symm.trans h0
    cases hstep.symm.trans h
    exact .illegal rfl
  · cases hs.symm.trans h0
    exact exec_effect (hstep.symm.trans h)

/-- Settles O23: every effect of a command adds 1 to `ci`, and the outputs do not read it. -/
theorem commandIndexCountsCompletedCommands : Obligations.CommandIndexCountsCompletedCommands := by
  unfold Obligations.CommandIndexCountsCompletedCommands
  exact ⟨rfl, fun _ _ _ _ hs h => (step_effect hs h).ci, fun _ _ => rfl⟩

end Sys2Proof.Machine
end

section
/-!
PROOFS. The illegal words (R89): the fields of a word read by division, the words each class of R86 rejects, and the step on
a rejected command.
-/

namespace Sys2Proof.Machine

/-! ### The fields of a word, read by division (R12, R81) -/

theorem extractLsb'_toNat_eq (w : Word) (lo len : Nat) : (w.extractLsb' lo len).toNat = w.toNat / 2 ^ lo % 2 ^ len := by
  rw [BitVec.extractLsb'_toNat, Nat.shiftRight_eq_div_pow]

theorem extractLsb'_eq_zero_iff (w : Word) (lo len : Nat) :
    w.extractLsb' lo len = 0 ↔ w.toNat / 2 ^ lo % 2 ^ len = 0 := by
  rw [← extractLsb'_toNat_eq, ← BitVec.toNat_inj]; rfl

theorem getLsbD_iff_div_mod (w : Word) (i : Nat) : w.getLsbD i = true ↔ w.toNat / 2 ^ i % 2 = 1 := by
  rw [BitVec.getLsbD, Nat.testBit_eq_decide_div_mod_eq, decide_eq_true_iff]

theorem opField_toNat (w : Word) : (opField w).toNat = w.toNat / 2 ^ 26 :=
  (extractLsb'_toNat_eq w 26 6).trans (Nat.mod_eq_of_lt (by have := w.isLt; omega))

theorem rdField_toNat (w : Word) : (rdField w).toNat = w.toNat / 2 ^ 22 % 2 ^ 4 := extractLsb'_toNat_eq w 22 4

theorem rsField_toNat (w : Word) : (rsField w).toNat = w.toNat / 2 ^ 18 % 2 ^ 4 := extractLsb'_toNat_eq w 18 4

theorem rsField_eq_zero_iff (w : Word) : rsField w = 0 ↔ w.toNat / 2 ^ 18 % 2 ^ 4 = 0 := extractLsb'_eq_zero_iff w 18 4

theorem kHighField_eq_zero_iff (w : Word) : kHighField w = 0 ↔ w.toNat / 2 ^ 20 % 2 ^ 2 = 0 :=
  extractLsb'_eq_zero_iff w 20 2

theorem zField_eq_zero_iff (w : Word) : zField w = 0 ↔ w.toNat % 2 ^ 16 = 0 := by
  rw [zField, extractLsb'_eq_zero_iff, Nat.pow_zero, Nat.div_one]

theorem nBit_iff (w : Word) : nBit w = true ↔ w.toNat / 2 ^ 17 % 2 = 1 := getLsbD_iff_div_mod w 17

theorem nBit_eq_false_iff (w : Word) : nBit w = false ↔ w.toNat / 2 ^ 17 % 2 = 0 := by
  rw [← Bool.not_eq_true, nBit_iff]
  exact Nat.mod_two_ne_one

theorem sBit_iff (w : Word) : sBit w = true ↔ w.toNat / 2 ^ 16 % 2 = 1 := getLsbD_iff_div_mod w 16

/-! ### The words each class rejects (R86, R88) -/

/-- The decoder rejects: it answers `Illegal`, whatever the reason. -/
def Rejects (o : Except IllegalReason Instr) : Prop := ∃ e, o = .error e

@[simp] theorem rejects_error (e : IllegalReason) : Rejects (.error e) := ⟨e, rfl⟩

@[simp] theorem not_rejects_ok (i : Instr) : ¬ Rejects (.ok i) := nofun

/-- A check that rejects where it fires, before `o` is tried. -/
theorem rejects_check {p : Prop} [Decidable p] (e : IllegalReason) (o : Except IllegalReason Instr) :
    Rejects (if p then .error e else o) ↔ p ∨ Rejects o := by
  by_cases hp : p <;> simp [hp]

/-- A check that accepts where it holds. -/
theorem rejects_unless {p : Prop} [Decidable p] (i : Instr) (e : IllegalReason) :
    Rejects (if p then .ok i else .error e) ↔ ¬ p := by
  by_cases hp : p <;> simp [hp]

theorem rejects_decodeZ_iff (w : Word) (i : Instr) : Rejects (decodeZ w i) ↔ w.toNat / 2 ^ 16 % 2 ^ 10 ≠ 0 := by
  rw [decodeZ, rejects_unless, extractLsb'_eq_zero_iff]

theorem rejects_decodeU_iff (nreg : Nat) (w : Word) (mk : RegIdx → Instr) :
    Rejects (decodeU nreg w mk) ↔ nreg ≤ w.toNat / 2 ^ 22 % 2 ^ 4 ∨ w.toNat / 2 ^ 16 % 2 ^ 6 ≠ 0 := by
  rw [decodeU, rejects_check, rejects_unless, extractLsb'_eq_zero_iff, rdField_toNat]

theorem rejects_decodeK_iff (nreg : Nat) (w : Word) :
    Rejects (decodeK nreg w) ↔ nreg ≤ w.toNat / 2 ^ 22 % 2 ^ 4 ∨
      (w.toNat / 2 ^ 20 % 2 ^ 2 ≠ 0 ∨ w.toNat / 2 ^ 17 % 2 = 1 ∨ w.toNat / 2 ^ 16 % 2 = 1) := by
  rw [decodeK, rejects_check, rejects_unless, rdField_toNat, kHighField_eq_zero_iff, ← nBit_iff, ← sBit_iff]
  simp only [not_and_or, Bool.not_eq_false]

theorem rejects_decodeB_iff (nreg : Nat) (c : Command) (reg : RegIdx → RegIdx → Instr)
    (native : RegIdx → Bool → Nat → Instr) :
    Rejects (decodeB nreg c reg native) ↔ nreg ≤ c.word.toNat / 2 ^ 22 % 2 ^ 4 ∨
      (c.word.toNat / 2 ^ 17 % 2 = 0 ∧ nreg ≤ c.word.toNat / 2 ^ 18 % 2 ^ 4) ∨
      (c.word.toNat / 2 ^ 17 % 2 = 0 ∧ c.word.toNat / 2 ^ 16 % 2 = 1) ∨
      (c.word.toNat / 2 ^ 17 % 2 = 1 ∧ c.word.toNat / 2 ^ 18 % 2 ^ 4 ≠ 0) := by
  rw [decodeB, rejects_check, rdField_toNat]
  cases hn : nBit c.word with
  | true =>
    have hn1 := (nBit_iff _).1 hn
    simp [-Nat.reducePow, hn1, rejects_unless, ← rsField_eq_zero_iff]
  | false =>
    have hn0 := (nBit_eq_false_iff _).1 hn
    simp [-Nat.reducePow, hn0, rejects_check, rsField_toNat, sBit_iff, or_comm]

/-! ### Exactly the eight cases of R89 -/

/-- The decoder rejects a word for `Z`, or for what the class of its opcode rejects; an opcode of no class is reserved. -/
theorem rejects_decode_iff (nreg : Nat) (c : Command) : Rejects (decode nreg c) ↔ IllegalCase nreg c.word.toNat := by
  rw [decode, rejects_check, ne_eq, zField_eq_zero_iff, opField_toNat]
  simp only [IllegalCase]
  generalize c.word.toNat / 2 ^ 26 = op
  rcases Nat.lt_or_ge op 0x13 with hop | hop
  · interval_cases op <;>
      simp [decodeRow, classB, classU, rejects_decodeZ_iff, rejects_decodeB_iff, rejects_decodeU_iff,
        rejects_decodeK_iff]
  · obtain ⟨k, rfl⟩ := Nat.exists_eq_add_of_le' hop
    have hreserved : decodeRow nreg c (k + 0x13) = .error .reservedOpcode := rfl
    simp [hreserved]

/-! ### The step on a rejected command -/

/-- A rejected command is recorded as illegal (R261, R290). -/
theorem step_of_rejects {s : State} {c : Command} {rest : List HostInput} (hr : s.reachableRegs = true)
    (hs : s.host = .issue c :: rest) (hc : Rejects (decode s.nreg (s.accepted c))) :
    step s = .next (State.raiseIllegal { s with host := rest }) := by
  obtain ⟨e, he⟩ := hc
  simp only [step, State.ifReachable_of_true hr, hs, he]

/-- Settles O4: each check of the decoder is a case of R89, and a rejected command takes the event of R261. -/
theorem illegalExactlyInTheEightCases : Obligations.IllegalExactlyInTheEightCases := by
  unfold Obligations.IllegalExactlyInTheEightCases
  refine ⟨rejects_decode_iff, fun s c rest hr hs hc => step_of_rejects hr hs ?_⟩
  exact (rejects_decode_iff s.nreg (s.accepted c)).2 hc

end Sys2Proof.Machine
end

section
/-!
PROOFS. The native forms of class B against their register forms (R83).
-/

namespace Sys2Proof.Machine

/-- Checking that a register exists before reading it changes nothing: the read checks it itself. -/
theorem State.withDest_withReg (s : State) (r : RegIdx) (k : Val → Out) : s.withDest r (s.withReg r k) = s.withReg r k := by
  rcases Nat.lt_or_ge r.toNat s.regs.length with hlt | hle
  · exact State.withDest_of_lt hlt _
  · rw [State.withReg, State.withDest_of_le hle, State.withDest_of_le hle]

/-- A right-operand register that holds `y` hands `y` to the command, as an operand that needs no register does. -/
theorem State.withRegs_of_some_right {s : State} {rs : RegIdx} {y : Val} (hy : s.regVal? rs = some y) (rd : RegIdx)
    (k : Val → Val → Out) : s.withRegs rd rs k = s.withReg rd fun x => k x y := by
  simp only [State.withRegs, State.withDest_of_lt (State.regVal?_isSome_lt hy), State.withReg_of_some hy,
    State.withDest_withReg]

/-- Both forms hand one right operand to one operation. -/
theorem State.binaryNative_eq_binaryReg {s : State} {rs : RegIdx} {sg : Bool} {v : Nat}
    (h : s.regVal? rs = some (nat s.params v sg)) (f : Params → Val → Val → Val) (rd : RegIdx) :
    s.binaryNative f rd sg v = s.binaryReg f rd rs :=
  (State.withRegs_of_some_right h rd fun x y => s.finishReg rd (f s.params x y)).symm

/-- Settles O46: in both forms the right operand is `nat(OPND, S)`, read from `OPND` or from `rs`. -/
theorem nativeFormEqualsRegisterForm : Obligations.NativeFormEqualsRegisterForm := by
  unfold Obligations.NativeFormEqualsRegisterForm
  intro s rd rs sg v h
  have hbin (f : Params → Val → Val → Val) : s.binaryNative f rd sg v = s.binaryReg f rd rs :=
    State.binaryNative_eq_binaryReg h f rd
  have hcmp : exec (.cmpN rd sg v) s = exec (.cmp rd rs) s :=
    (State.withRegs_of_some_right h rd fun x y => s.finishCmp (cmpVal x y)).symm
  have hmov : exec (.movN rd sg v) s = exec (.mov rd rs) s :=
    congrArg (s.withDest rd) (State.withReg_of_some h (s.finishReg rd)).symm
  exact ⟨hbin addVal, hbin fun _ => subVal, hbin mulVal, hbin fun _ => divVal, hbin fun _ => modVal,
    hbin fun _ => bitwVal Nat.land, hbin fun _ => bitwVal Nat.lor, hbin fun _ => bitwVal Nat.xor, hcmp, hmov⟩

end Sys2Proof.Machine
end

section
/-!
PROOFS. The limb store and state classifier (40_storage_classifier.md): what the fields of a register say about the value
a command reads from it, and the commands that construct, copy, read out and classify a value.
-/

namespace Sys2Proof.Machine

/-! ### Digits and bit lengths -/

/-- Dividing by the base drops the lowest limb. -/
theorem ofLimbs_cons_div {b l : Nat} (hl : l < b) (ls : List Nat) : ofLimbs b (l :: ls) / b = ofLimbs b ls := by
  rw [ofLimbs, Nat.add_mul_div_left _ _ (Nat.zero_lt_of_lt hl), Nat.div_eq_of_lt hl, Nat.zero_add]

/-- Limb `i` is digit `i` of the magnitude, and both are 0 past the end of the limbs. -/
theorem ofLimbs_digit {b : Nat} {ls : List Nat} (h : ∀ l ∈ ls, l < b) (i : Nat) :
    ofLimbs b ls / b ^ i % b = ls.getD i 0 := by
  induction ls generalizing i with
  | nil => simp [ofLimbs]
  | cons l ls ih =>
    obtain ⟨hl, hls⟩ := List.forall_mem_cons.1 h
    cases i with
    | zero => simp [ofLimbs, Nat.mod_eq_of_lt hl]
    | succ i => rw [Nat.pow_succ', ← Nat.div_div_eq_div_mul, ofLimbs_cons_div hl, ih hls, List.getD_cons_succ]

/-- `bitlen` is the library's bit length (R13): both have the same upper bounds. -/
theorem bitlen_eq_size (a : Nat) : bitlen a = Nat.size a := by
  rcases eq_or_ne a 0 with rfl | ha
  · rfl
  · rw [bitlen, if_neg ha]
    exact eq_of_forall_ge_iff fun n => (Nat.succ_le_iff.trans (Nat.log2_lt ha)).trans Nat.size_le.symm

/-! ### A register that holds a magnitude -/

/-- The fields of a register that a command reads as `Fin(m)`: a length that R37 allows, and used limbs that are the digits
of `m` (R33). -/
structure NReg.HoldsFin (p : Params) (r : NReg) (m : Nat) : Prop where
  len_pos : 1 ≤ r.len
  len_le_cap : r.len ≤ p.cap
  used_lt : ∀ l ∈ r.limb.take r.len, l < p.base
  top_ne_zero : r.len ≠ 1 → r.limb.getD (r.len - 1) 0 ≠ 0
  magnitude : r.magnitude p = m

/-- What the fields of a register are when a command reads a value from it (R32, R36). -/
theorem NReg.fields_of_value? {p : Params} {r : NReg} {v : Val} (hv : r.value? p = some v) :
    (v = .nan ∧ r.len = 0) ∨ (v = .inf ∧ r.len = p.cap + 1) ∨ ∃ m, v = .fin m ∧ r.HoldsFin p m := by
  obtain ⟨hlegal, hval⟩ := Option.ite_none_right_eq_some.1 hv
  obtain rfl : r.value p = v := Option.some.inj hval
  by_cases hnan : r.len = 0
  · exact .inl ⟨by simp [NReg.value, NReg.category, hnan], hnan⟩
  by_cases hinf : r.len = p.cap + 1
  · exact .inr (.inl ⟨by simp [NReg.value, NReg.category, hinf], hinf⟩)
  have hval : r.value p = .fin (r.magnitude p) := by
    rw [NReg.value, NReg.category, if_neg hnan, if_neg hinf]
    split_ifs <;> rfl
  simp only [NReg.legal, Bool.and_eq_true, Bool.or_eq_true, beq_iff_eq, bne_iff_ne, decide_eq_true_eq, List.all_eq_true,
    hnan, hinf, false_or] at hlegal
  obtain ⟨-, ⟨⟨hpos, hcap⟩, hused⟩, htop⟩ := hlegal
  exact .inr (.inr ⟨_, hval, hpos, hcap, hused, htop.resolve_left, rfl⟩)

namespace NReg.HoldsFin

variable {p : Params} {r : NReg} {m : Nat}

/-- The accessor reads digit `i` of the magnitude, at every index (R34, R121). -/
theorem limbAt_eq (h : r.HoldsFin p m) (i : Nat) : r.limbAt i = m / p.base ^ i % p.base := by
  rw [← h.magnitude, NReg.magnitude, ofLimbs_digit h.used_lt, NReg.limbAt,
    List.getD_eq_getElem?_getD, List.getD_eq_getElem?_getD, List.getElem?_take]
  split <;> rfl

theorem lt_base_pow_len (h : r.HoldsFin p m) : m < p.base ^ r.len := by
  rw [← h.magnitude]
  exact (ofLimbs_lt _ _ h.used_lt).trans_le (Nat.pow_le_pow_right p.base_pos (List.length_take_le _ _))

/-- A magnitude that uses more than one limb has its top used limb as a digit. -/
theorem base_pow_le (h : r.HoldsFin p m) (hlen : r.len ≠ 1) : p.base ^ (r.len - 1) ≤ m := by
  have hpos := h.len_pos
  have htop : m / p.base ^ (r.len - 1) % p.base ≠ 0 := by
    rw [← h.limbAt_eq, NReg.limbAt, if_pos (by omega)]
    exact h.top_ne_zero hlen
  by_contra hlt
  exact htop (by rw [Nat.div_eq_of_lt (Nat.lt_of_not_le hlt), Nat.zero_mod])

/-- The length is the one that `enc` gives the magnitude: two lengths cannot both bracket it (R37, R38). -/
theorem len_eq (h : r.HoldsFin p m) (hp : p.Ok) : r.len = (Val.fin m).encLen p := by
  have hpos := h.len_pos
  have hhi := h.lt_base_pow_len
  have hlo : r.len ≠ 1 → p.base ^ (r.len - 1) ≤ m := h.base_pow_le
  cases m with
  | zero =>
    by_contra hlen
    exact absurd (hlo hlen) (Nat.not_le.2 (p.base_pow_pos _))
  | succ m =>
    obtain ⟨hLpos, hLlo, hLhi⟩ := encLen_bounds hp m
    have hlo' : p.base ^ (r.len - 1) ≤ m + 1 := by
      by_cases hlen : r.len = 1
      · simp [hlen]
      · exact hlo hlen
    have hle := (Nat.pow_lt_pow_iff_right (Params.one_lt_base hp)).1 (hlo'.trans_lt hLhi)
    have hge := (Nat.pow_lt_pow_iff_right (Params.one_lt_base hp)).1 (hLlo.trans_lt hhi)
    omega

end NReg.HoldsFin

/-- A register that a command can read has the length of its value's encoding (R38, R122). -/
theorem NReg.len_eq_encLen {p : Params} (hp : p.Ok) {r : NReg} {v : Val} (hv : r.value? p = some v) :
    r.len = v.encLen p := by
  rcases NReg.fields_of_value? hv with ⟨rfl, hlen⟩ | ⟨rfl, hlen⟩ | ⟨m, rfl, hm⟩
  · exact hlen
  · exact hlen
  · exact hm.len_eq hp

theorem NReg.holdsFin_of_value? {p : Params} {r : NReg} {m : Nat} (hv : r.value? p = some (.fin m)) :
    r.HoldsFin p m := by
  rcases NReg.fields_of_value? hv with ⟨h, -⟩ | ⟨h, -⟩ | ⟨m', h, hm⟩
  · cases h
  · cases h
  · cases h
    exact hm

theorem State.regVal?_of_getElem? {s : State} {i : RegIdx} {r : NReg} (hr : s.regs[i.toNat]? = some r) :
    s.regVal? i = r.value? s.params := by
  rw [State.regVal?, hr]

/-! ### What the commands compute from a value -/

/-- The test of the sign bit, on the operand as a number (R112). -/
theorem testBit_top_iff {w v : Nat} (hw : 1 ≤ w) (hv : v < 2 ^ w) : v.testBit (w - 1) = true ↔ 2 ^ (w - 1) ≤ v :=
  ⟨Nat.ge_two_pow_of_testBit, fun hle =>
    Nat.testBit_of_two_pow_le_and_two_pow_add_one_gt hle (by rwa [Nat.sub_add_cancel hw])⟩

theorem saturate_eq_finCell (p : Params) (x : Nat) : saturate p x = finCell p x := by
  simp only [saturate, finCell, Params.le_maxMag_iff]

theorem two_le_w {p : Params} (hp : p.Ok) : 2 ≤ p.w := Nat.mul_le_mul_left 2 hp.1

/-- The model's conversion of a native operand is the one of R112. -/
theorem nat_eq_natCell {p : Params} (hp : p.Ok) {v : Nat} (hv : v < 2 ^ p.w) (sg : Bool) : nat p v sg = natCell p v sg := by
  simp only [nat, natCell, Bool.and_eq_true, testBit_top_iff (Nat.one_le_of_lt (two_le_w hp)) hv, saturate_eq_finCell]

/-- RDLIMB's digit needs no check of the index: past `CAP` every digit of a magnitude in range is 0. -/
theorem limb_fin_of_inRange {p : Params} {m : Nat} (hm : (Val.fin m).InRange p) (i : Nat) :
    (Val.fin m).limb p i = m / p.base ^ i % p.base := by
  rw [Val.limb]
  split
  · rfl
  · next hi =>
    have hlt : m < p.base ^ i :=
      ((p.le_maxMag_iff m).1 hm).trans_le (Nat.pow_le_pow_right p.base_pos (Nat.le_of_not_lt hi))
    rw [Nat.div_eq_of_lt hlt, Nat.zero_mod]

theorem encLen_fin (p : Params) (m : Nat) :
    (Val.fin m).encLen p = if m = 0 then 1 else (Nat.size m + (p.limbW - 1)) / p.limbW := by
  cases m with
  | zero => rfl
  | succ m => rw [Val.encLen, bitlen_eq_size, if_neg m.succ_ne_zero]

/-! ### What is read out fits in `RES` (R42) -/

theorem code_lt_two_pow_w {p : Params} (hp : p.Ok) (c : Category) : c.code < 2 ^ p.w := by
  have hw : 2 ^ 2 ≤ 2 ^ p.w := Nat.pow_le_pow_right two_pos (two_le_w hp)
  have hc : c.code < 2 ^ 2 := by cases c <;> decide
  exact hc.trans_le hw

theorem limb_lt_two_pow_w (p : Params) (i : Nat) (v : Val) : v.limb p i < 2 ^ p.w := by
  have hbase : p.base ≤ 2 ^ p.w := Nat.pow_le_pow_right two_pos (by unfold Params.w; omega)
  refine lt_of_lt_of_le ?_ hbase
  cases v with
  | nan | inf => exact p.base_pos
  | fin m =>
    rw [Val.limb]
    split
    · exact Nat.mod_lt _ p.base_pos
    · exact p.base_pos

theorem encLen_lt_two_pow_w {p : Params} (hp : p.Ok) {v : Val} (hv : v.InRange p) : v.encLen p < 2 ^ p.w := by
  obtain ⟨-, hcap, hfit, -⟩ := id hp
  have hle : v.encLen p ≤ p.cap + 1 := by
    rcases v with _ | _ | (_ | m)
    · exact Nat.zero_le _
    · exact le_rfl
    · exact Nat.le_add_left 1 p.cap
    · exact (encLen_le_cap hp hv).trans p.cap.le_succ
  omega

/-! ### Commands that complete -/

/-- A command that writes a value in range completes, the register reads back as the value, and nothing else changes. -/
theorem State.finishReg_completes {s : State} (hp : s.params.Ok) {rd : RegIdx} (hrd : rd.toNat < s.regs.length) {v : Val}
    (hv : v.InRange s.params) : ∃ t, s.finishReg rd v = .next t ∧ t.regVal? rd = some v ∧ OnlyReg rd s t :=
  ⟨_, rfl, State.writeReg_regVal?_self hp hrd hv, OnlyReg_writeReg s rd v⟩

/-- A command that reads a value out completes, `RES` is the number read where it fits, and nothing else changes. -/
theorem State.readout_completes {s : State} {rd : RegIdx} {x : Val} (hx : s.regVal? rd = some x)
    {f : Params → Val → Nat} (hf : f s.params x < 2 ^ s.params.w) :
    ∃ t, s.readout f rd = .next t ∧ OnlyRes s t ∧ t.res = f s.params x :=
  ⟨(s.writeRes (f s.params x)).retire, State.withReg_of_some hx _, ⟨rfl, rfl, rfl, rfl, rfl⟩, Nat.mod_eq_of_lt hf⟩

theorem execSetc_completes {s : State} (hp : s.params.Ok) {rd : RegIdx} (hrd : rd.toNat < s.regs.length) (k : NamedConst) :
    ∃ t, exec (.setc rd k) s = .next t ∧ t.regVal? rd = some (constVal s.params k) ∧ OnlyReg rd s t := by
  rw [exec, execSetc, State.withDest_of_lt hrd]
  exact State.finishReg_completes hp hrd (constVal_inRange _ k)

/-! ### The words of SETC (R117) -/

theorem decode_setc {nreg : Nat} {rd : RegIdx} (hrd : rd.toNat < nreg) (k : NamedConst) (v : Nat) :
    decode nreg ⟨packWord 0x0F rd k.code false false, v⟩ = .ok (.setc rd k) :=
  (decode_packWord ..).trans (decodeK_packWord hrd)

/-- A selector field above 3 has a bit of `word[21:20]` set. -/
theorem selector_high_ne_zero {k : RegIdx} (hk : 3 < k.toNat) : k.extractLsb' 2 2 ≠ 0 := by
  revert k
  decide

theorem decode_setc_high {nreg : Nat} {rd k : RegIdx} (hrd : rd.toNat < nreg) (hk : 3 < k.toNat) (v : Nat) :
    decode nreg ⟨packWord 0x0F rd k false false, v⟩ = .error .setcField := by
  have hhigh : kHighField (packWord 0x0F rd k false false) ≠ 0 := by
    rw [kHighField_packWord]
    exact selector_high_ne_zero hk
  refine (decode_packWord ..).trans ?_
  change decodeK nreg (packWord 0x0F rd k false false) = .error .setcField
  rw [decodeK, rdField_packWord, if_neg (Nat.not_le.2 hrd), if_neg fun h => hhigh h.1]

/-! ### The statements -/

/-- Settles O39: what a register reads as is in range, so a write of it reads back. -/
theorem movCopiesTheValue : Obligations.MovCopiesTheValue := by
  unfold Obligations.MovCopiesTheValue
  intro s rd rs y hp hrd hy
  refine ⟨fun v => (decode_packWord ..).trans (decodeB_packWord_reg hrd (State.regVal?_isSome_lt hy)), ?_⟩
  rw [exec, execMov, State.withDest_of_lt hrd, State.withReg_of_some hy]
  exact State.finishReg_completes hp hrd (State.regVal?_inRange hy)

/-- Settles O40: the conversion of R112 gives a value in range, so a write of it reads back. -/
theorem movNConstructsFromNative : Obligations.MovNConstructsFromNative := by
  unfold Obligations.MovNConstructsFromNative
  intro s rd sg v hp hrd hv
  refine ⟨(decode_packWord ..).trans (decodeB_packWord_native hrd), ?_⟩
  rw [exec, execMovN, State.withDest_of_lt hrd, ← nat_eq_natCell hp hv]
  exact State.finishReg_completes hp hrd (nat_inRange _ v sg)

/-- Settles O41: each row of the list is a constant with its code and its value. -/
theorem setcSetsTheNamedConstant : Obligations.SetcSetsTheNamedConstant := by
  unfold Obligations.SetcSetsTheNamedConstant
  intro s rd hp hrd
  have hrow (k : NamedConst) := And.intro (decode_setc hrd k) (execSetc_completes hp hrd k)
  refine ⟨?_, fun k v hk => decode_setc_high hrd hk v⟩
  simp only [List.forall_mem_cons]
  exact ⟨hrow .zero, hrow .inf, hrow .nan, hrow .max, List.forall_mem_nil _⟩

/-- Settles O42: the digits of a finite value are the limbs that the accessor reads. -/
theorem rdlimbReadsThroughTheAccessor : Obligations.RdlimbReadsThroughTheAccessor := by
  unfold Obligations.RdlimbReadsThroughTheAccessor
  intro s rd r x i hp hr hx hi
  refine ⟨(decode_packWord ..).trans (decodeU_packWord (mk := (.rdlimb · i)) (State.regVal?_isSome_lt hx)), ?_⟩
  obtain ⟨t, hexec, honly, hres⟩ :=
    State.readout_completes (f := fun p v => v.limb p i) hx (limb_lt_two_pow_w s.params i x)
  refine ⟨t, hexec, honly, ?_⟩
  cases x with
  | nan | inf => exact hres
  | fin m =>
    have hfin : r.HoldsFin s.params m := NReg.holdsFin_of_value? (State.regVal?_of_getElem? hr ▸ hx)
    have hdigit := hres.trans (limb_fin_of_inRange (State.regVal?_inRange hx) i)
    have hlimb : t.res = r.limbAt i := hdigit.trans (hfin.limbAt_eq i).symm
    exact ⟨hlimb, hdigit, fun hlen => hlimb.trans (if_neg (Nat.not_lt.2 hlen))⟩

/-- Settles O43: the length counter of a readable register is that of its value's encoding. -/
theorem rdlenReadsTheLengthCounter : Obligations.RdlenReadsTheLengthCounter := by
  unfold Obligations.RdlenReadsTheLengthCounter
  intro s rd r x hp hr hx
  refine ⟨fun v => (decode_packWord ..).trans (decodeU_packWord (State.regVal?_isSome_lt hx)), ?_⟩
  obtain ⟨t, hexec, honly, hres⟩ :=
    State.readout_completes (f := fun p v => v.encLen p) hx (encLen_lt_two_pow_w hp (State.regVal?_inRange hx))
  have hlen : r.len = x.encLen s.params := NReg.len_eq_encLen hp (State.regVal?_of_getElem? hr ▸ hx)
  refine ⟨t, hexec, honly, hres.trans hlen.symm, hres.trans ?_⟩
  cases x with
  | nan | inf => rfl
  | fin m => exact encLen_fin s.params m

/-- Settles O38: the code of the category of each value. -/
theorem clsDeliversTheCategoryCode : Obligations.ClsDeliversTheCategoryCode := by
  unfold Obligations.ClsDeliversTheCategoryCode
  intro s rd x hp hx
  refine ⟨fun v => (decode_packWord ..).trans (decodeU_packWord (State.regVal?_isSome_lt hx)), ?_⟩
  obtain ⟨t, hexec, honly, hres⟩ :=
    State.readout_completes (f := fun _ v => v.cls.code) hx (code_lt_two_pow_w hp x.cls)
  refine ⟨t, hexec, honly, hres.trans ?_⟩
  rcases x with _ | _ | (_ | m) <;> rfl

end Sys2Proof.Machine
end

section
/-!
PROOFS. The commands of class B that write a register (R83, R86): both forms hand the receiver and the right operand to
one operation, and complete with its result.
-/

namespace Sys2Proof.Machine

section
variable {s : State} {rd : RegIdx} {x : Val} {f : Params → Val → Val → Val}

/-- The register form completes with what the operation makes of the two values read. -/
theorem State.binaryReg_completes (hp : s.params.Ok) (hx : s.regVal? rd = some x) {rs : RegIdx} {y : Val}
    (hy : s.regVal? rs = some y) (hrange : (f s.params x y).InRange s.params) :
    ∃ t, s.binaryReg f rd rs = .next t ∧ t.regVal? rd = some (f s.params x y) ∧ OnlyReg rd s t := by
  rw [State.binaryReg, State.withRegs_of_some hx hy]
  exact State.finishReg_completes hp (State.regVal?_isSome_lt hx) hrange

/-- The native form completes with what the operation makes of the receiver and the converted operand (R112). -/
theorem State.binaryNative_completes (hp : s.params.Ok) (hx : s.regVal? rd = some x) {sg : Bool} {v : Nat}
    (hrange : (f s.params x (nat s.params v sg)).InRange s.params) :
    ∃ t, s.binaryNative f rd sg v = .next t ∧ t.regVal? rd = some (f s.params x (nat s.params v sg)) ∧
      OnlyReg rd s t := by
  rw [State.binaryNative, State.withReg_of_some hx]
  exact State.finishReg_completes hp (State.regVal?_isSome_lt hx) hrange

/-- What the tables of files 41 to 44 say of an opcode of class B, once its operation `f` is known to give the table's
`cell` and to keep values in range: its words decode to its two forms, and both complete with the cell. -/
theorem State.binaryForms_complete {op : BitVec 6} {reg : RegIdx → RegIdx → Instr} {native : RegIdx → Bool → Nat → Instr}
    {cell : Val → Val} (hp : s.params.Ok) (hx : s.regVal? rd = some x)
    (hdecode : ∀ c, decodeRow s.regs.length c op.toNat = decodeB s.regs.length c reg native)
    (hreg : ∀ rs, exec (reg rd rs) s = s.binaryReg f rd rs)
    (hnative : ∀ sg v, exec (native rd sg v) s = s.binaryNative f rd sg v)
    (hcell : ∀ y, f s.params x y = cell y)
    (hrange : ∀ y, y.InRange s.params → (f s.params x y).InRange s.params) :
    (∀ (rs : RegIdx) (y : Val), s.regVal? rs = some y →
      (∀ v, decode s.regs.length ⟨packWord op rd rs false false, v⟩ = .ok (reg rd rs)) ∧
      ∃ t, exec (reg rd rs) s = .next t ∧ t.regVal? rd = some (cell y) ∧ OnlyReg rd s t) ∧
    (∀ (sg : Bool) (v : Nat), v < 2 ^ s.params.w →
      decode s.regs.length ⟨packWord op rd 0 true sg, v⟩ = .ok (native rd sg v) ∧
      ∃ t, exec (native rd sg v) s = .next t ∧ t.regVal? rd = some (cell (natCell s.params v sg)) ∧ OnlyReg rd s t) := by
  have hrd : rd.toNat < s.regs.length := State.regVal?_isSome_lt hx
  refine ⟨fun rs y hy => ⟨fun v => ?regWord, ?regForm⟩, fun sg v hv => ⟨?nativeWord, ?nativeForm⟩⟩
  case regWord =>
    rw [decode_packWord, hdecode]
    exact decodeB_packWord_reg hrd (State.regVal?_isSome_lt hy)
  case regForm =>
    rw [hreg, ← hcell]
    exact State.binaryReg_completes hp hx hy (hrange y (State.regVal?_inRange hy))
  case nativeWord =>
    rw [decode_packWord, hdecode]
    exact decodeB_packWord_native hrd
  case nativeForm =>
    rw [hnative, ← hcell, ← nat_eq_natCell hp hv]
    exact State.binaryNative_completes hp hx (hrange _ (nat_inRange _ v sg))

end

end Sys2Proof.Machine
end

section
/-!
PROOFS. The adder and subtractor (41_add_sub.md): the operations of ADD and SUB are the tables of R141 and R144.
-/

namespace Sys2Proof.Machine

/-- Two finite operands saturate by R39; every other cell is the same on both sides. -/
theorem addVal_eq_addCell (p : Params) (x y : Val) : addVal p x y = addCell p x y := by
  cases x <;> cases y
  case fin.fin a b => exact saturate_eq_finCell p (a + b)
  all_goals rfl

/-- Two finite operands differ only in which way the comparison is asked; every other cell is the same on both sides. -/
theorem subVal_eq_subCell (x y : Val) : subVal x y = subCell x y := by
  cases x <;> cases y
  case fin.fin a b => simp only [subVal, subCell, ← Nat.not_lt, ite_not]
  all_goals rfl

/-- Settles O25: the operation of both forms is the table of R141, and a sum past `MAX` saturates. -/
theorem addGivesSaturatedSum : Obligations.AddGivesSaturatedSum := by
  unfold Obligations.AddGivesSaturatedSum
  intro s rd x hp hx
  exact State.binaryForms_complete (f := addVal) hp hx (fun _ => rfl) (fun _ => rfl) (fun _ _ => rfl)
    (addVal_eq_addCell s.params x) fun y _ => addVal_inRange s.params x y

/-- Settles O26: the operation of both forms is the table of R144, and a difference is at most the receiver's value. -/
theorem subGivesDifferenceOrInfinity : Obligations.SubGivesDifferenceOrInfinity := by
  unfold Obligations.SubGivesDifferenceOrInfinity
  intro s rd x hp hx
  exact State.binaryForms_complete (f := fun _ => subVal) hp hx (fun _ => rfl) (fun _ => rfl) (fun _ _ => rfl)
    (subVal_eq_subCell x) fun y _ => subVal_inRange y (State.regVal?_inRange hx)

end Sys2Proof.Machine
end

section
/-!
PROOFS. The multiplier and divider (42_mul_div.md): the operations of MUL, DIV and MOD are the tables of R161, R165 and
R168. The operations single Zero out by a pattern on the number and the tables by a test, so the cells that depend on
whether an operand is Zero are compared for Zero and for a successor.
-/

namespace Sys2Proof.Machine

/-- Two finite operands saturate by R39, and Zero against Infinity is the split cell of R161. -/
theorem mulVal_eq_mulCell (p : Params) (x y : Val) : mulVal p x y = mulCell p x y := by
  cases x <;> cases y
  case fin.fin a b => simp only [mulVal, mulCell, saturate_eq_finCell]
  case fin.inf a => cases a <;> rfl
  case inf.fin b => cases b <;> rfl
  all_goals rfl

/-- Every finite divisor is Zero or not, and Zero gives NaN first (R165). -/
theorem divVal_eq_divCell (x y : Val) : divVal x y = divCell x y := by
  cases x <;> cases y
  case fin.fin a b => cases b <;> rfl
  case inf.fin b => cases b <;> rfl
  all_goals rfl

/-- A finite dividend by a finite divisor is NaN exactly for divisor Zero (R168); a dividend Infinity is NaN whichever
divisor it has. -/
theorem modVal_eq_modCell (x y : Val) : modVal x y = modCell x y := by
  cases x <;> cases y
  case fin.fin a b => cases b <;> rfl
  case inf.fin b => cases b <;> rfl
  all_goals rfl

/-- Settles O27: the operation of both forms is the table of R161, and a product past `MAX` saturates. -/
theorem mulGivesSaturatedProduct : Obligations.MulGivesSaturatedProduct := by
  unfold Obligations.MulGivesSaturatedProduct
  intro s rd x hp hx
  exact State.binaryForms_complete (f := mulVal) hp hx (fun _ => rfl) (fun _ => rfl) (fun _ _ => rfl)
    (mulVal_eq_mulCell s.params x) fun y _ => mulVal_inRange s.params x y

/-- Settles O28: the operation of both forms is the table of R165, and a quotient is at most the receiver's value. -/
theorem divGivesFloorQuotient : Obligations.DivGivesFloorQuotient := by
  unfold Obligations.DivGivesFloorQuotient
  intro s rd x hp hx
  exact State.binaryForms_complete (f := fun _ => divVal) hp hx (fun _ => rfl) (fun _ => rfl) (fun _ _ => rfl)
    (divVal_eq_divCell x) fun y _ => divVal_inRange y (State.regVal?_inRange hx)

/-- Settles O29: the operation of both forms is the table of R168, and a remainder is at most the receiver's value. -/
theorem modGivesRemainder : Obligations.ModGivesRemainder := by
  unfold Obligations.ModGivesRemainder
  intro s rd x hp hx
  exact State.binaryForms_complete (f := fun _ => modVal) hp hx (fun _ => rfl) (fun _ => rfl) (fun _ _ => rfl)
    (modVal_eq_modCell x) fun y _ => modVal_inRange y (State.regVal?_inRange hx)

end Sys2Proof.Machine
end

section
/-!
PROOFS. The bitwise unit (43_bitwise.md): the operations of AND, OR and XOR are the table of R191, and NOT's subtraction
from `MAX` inverts every bit of all `CAP` limbs (R198).
-/

namespace Sys2Proof.Machine

/-! ### AND, OR and XOR (R191 to R197) -/

/-- Neither side looks at the number of a finite operand but through `op`, so each cell of the table of R191 is compared
as it stands. -/
theorem bitwVal_eq_bitwCell (op : Nat → Nat → Nat) (x y : Val) : bitwVal op x y = bitwCell op x y := by
  cases x <;> cases y <;> rfl

/-- Settles O30: the operation of both forms is the table of R191, and a bitwise and has no more bits than its operands. -/
theorem andGivesBitwiseResult : Obligations.AndGivesBitwiseResult := by
  unfold Obligations.AndGivesBitwiseResult
  intro s rd x hp hx
  exact State.binaryForms_complete (f := fun _ => bitwVal Nat.land) hp hx (fun _ => rfl) (fun _ => rfl) (fun _ _ => rfl)
    (bitwVal_eq_bitwCell Nat.land x) fun _ hy =>
      bitwVal_inRange (fun a _ _ _ hb => Nat.and_lt_two_pow a hb) (State.regVal?_inRange hx) hy

/-- Settles O31: the operation of both forms is the table of R191, and a bitwise or has no more bits than its operands. -/
theorem orGivesBitwiseResult : Obligations.OrGivesBitwiseResult := by
  unfold Obligations.OrGivesBitwiseResult
  intro s rd x hp hx
  exact State.binaryForms_complete (f := fun _ => bitwVal Nat.lor) hp hx (fun _ => rfl) (fun _ => rfl) (fun _ _ => rfl)
    (bitwVal_eq_bitwCell Nat.lor x) fun _ hy =>
      bitwVal_inRange (fun _ _ _ ha hb => Nat.or_lt_two_pow ha hb) (State.regVal?_inRange hx) hy

/-- Settles O32: the operation of both forms is the table of R191, and a bitwise xor has no more bits than its operands. -/
theorem xorGivesBitwiseResult : Obligations.XorGivesBitwiseResult := by
  unfold Obligations.XorGivesBitwiseResult
  intro s rd x hp hx
  exact State.binaryForms_complete (f := fun _ => bitwVal Nat.xor) hp hx (fun _ => rfl) (fun _ => rfl) (fun _ _ => rfl)
    (bitwVal_eq_bitwCell Nat.xor x) fun _ hy =>
      bitwVal_inRange (fun _ _ _ ha hb => Nat.xor_lt_two_pow ha hb) (State.regVal?_inRange hx) hy

/-! ### NOT (R198) -/

/-- A command of class U that writes a register completes with what its operation makes of the receiver's value. -/
theorem State.unary_completes {s : State} {rd : RegIdx} {x : Val} {f : Params → Val → Val} (hp : s.params.Ok)
    (hx : s.regVal? rd = some x) (hrange : (f s.params x).InRange s.params) :
    ∃ t, s.unary f rd = .next t ∧ OnlyReg rd s t ∧ t.regVal? rd = some (f s.params x) := by
  obtain ⟨t, hfinish, hval, honly⟩ := State.finishReg_completes hp (State.regVal?_isSome_lt hx) hrange
  exact ⟨t, (State.withReg_of_some hx _).trans hfinish, honly, hval⟩

/-- Below `2^n`, subtracting from `n` ones borrows nowhere: it inverts each of the `n` bits. -/
theorem two_pow_sub_one_sub_eq_xor {n a : Nat} (ha : a < 2 ^ n) : 2 ^ n - 1 - a = (2 ^ n - 1) ^^^ a := by
  refine Nat.eq_of_testBit_eq fun i => ?_
  rw [Nat.sub_sub, Nat.add_comm 1 a, Nat.testBit_two_pow_sub_succ ha, Nat.testBit_xor, Nat.testBit_two_pow_sub_one]
  by_cases hi : i < n
  · simp [hi]
  · have hbit : a.testBit i = false :=
      Nat.testBit_lt_two_pow (ha.trans_le (Nat.pow_le_pow_right two_pos (Nat.le_of_not_lt hi)))
    simp [hi, hbit]

/-- `MAX - a = MAX XOR a` for a magnitude that `CAP` limbs hold (R198). -/
theorem maxMag_sub_eq_xor {p : Params} {a : Nat} (ha : (Val.fin a).InRange p) : p.maxMag - a = p.maxMag ^^^ a := by
  have hlt : a < p.base ^ p.cap := (p.le_maxMag_iff a).1 ha
  rw [Params.base_pow] at hlt
  rw [Params.maxMag, Params.base_pow]
  exact two_pow_sub_one_sub_eq_xor hlt

/-- Settles O33: NOT completes with the complement, and a readable receiver has no bit outside the `CAP` limbs. -/
theorem notComplementsWithinCapacity : Obligations.NotComplementsWithinCapacity := by
  unfold Obligations.NotComplementsWithinCapacity
  intro s rd x hp hx
  refine ⟨fun v => ?word, ?completes, ?invertsEveryBit⟩
  case word =>
    exact (decode_packWord ..).trans (decodeU_packWord (State.regVal?_isSome_lt hx))
  case completes =>
    obtain ⟨t, hexec, honly, hval⟩ := State.unary_completes (f := notVal) hp hx (notVal_inRange x)
    refine ⟨t, hexec, honly, hval.trans ?_⟩
    cases x <;> rfl
  case invertsEveryBit =>
    rintro a rfl
    exact maxMag_sub_eq_xor (State.regVal?_inRange hx)

end Sys2Proof.Machine
end

section
/-!
PROOFS. The barrel shifter (44_shift.md): the operations of SHL and SHR are the plain formulas of R210 and R211. The
model answers a distance of the whole capacity or more without forming a power of two, so each formula is compared on
both sides of `CAP * LIMB_W`.
-/

namespace Sys2Proof

/-- `CAP` limbs hold `CAP * LIMB_W` bits (R9, R210). -/
theorem Params.base_pow_cap (p : Params) : p.base ^ p.cap = 2 ^ p.bits := by
  rw [Params.base_pow, Params.bits, Nat.mul_comm]

namespace Machine

/-- Zero has no bit to lose; a non-zero `a` shifted by the whole capacity is at least `2^(CAP * LIMB_W)`, past `MAX`
(R210). -/
theorem shlVal_fin (p : Params) (d a : Nat) : shlVal d p (.fin a) = finCell p (a * 2 ^ d) := by
  cases a with
  | zero => rw [Nat.zero_mul]; exact (if_pos (p.base_pow_pos p.cap)).symm
  | succ a =>
    rw [shlVal, saturate_eq_finCell]
    refine ite_eq_right_iff.2 fun hd => ?_
    have hpast : p.base ^ p.cap ≤ (a + 1) * 2 ^ d :=
      calc p.base ^ p.cap = 2 ^ p.bits := p.base_pow_cap
        _ ≤ 2 ^ d := Nat.pow_le_pow_right two_pos hd
        _ ≤ (a + 1) * 2 ^ d := Nat.le_mul_of_pos_left _ a.succ_pos
    exact (if_neg hpast.not_gt).symm

/-- A magnitude that `CAP` limbs hold is below `2^(CAP * LIMB_W)`, so the whole capacity shifts all of it out (R211). -/
theorem shrVal_fin {p : Params} {a : Nat} (ha : (Val.fin a).InRange p) (d : Nat) :
    shrVal d p (.fin a) = .fin (a / 2 ^ d) := by
  rw [shrVal]
  refine congrArg Val.fin (ite_eq_right_iff.2 fun hd => ?_)
  have hout : a < 2 ^ d :=
    calc a < p.base ^ p.cap := (p.le_maxMag_iff a).1 ha
      _ = 2 ^ p.bits := p.base_pow_cap
      _ ≤ 2 ^ d := Nat.pow_le_pow_right two_pos hd
  exact (Nat.div_eq_of_lt hout).symm

/-- A command of class U with a distance, whose opcode runs the operation `f`: its word decodes to it, and it completes
with the value that `f` is known to give. -/
theorem State.distanceForm_completes {s : State} {rd : RegIdx} {x cell : Val} {d : Nat} {op : BitVec 6}
    {mk : RegIdx → Nat → Instr} {f : Nat → Params → Val → Val} (hp : s.params.Ok) (hx : s.regVal? rd = some x)
    (hdecode : ∀ c, decodeRow s.regs.length c op.toNat = decodeU s.regs.length c.word (mk · c.opnd))
    (hexec : exec (mk rd d) s = s.unary (f d) rd) (hcell : f d s.params x = cell)
    (hrange : (f d s.params x).InRange s.params) :
    decode s.regs.length ⟨packWord op rd 0 false false, d⟩ = .ok (mk rd d) ∧
    ∃ t, exec (mk rd d) s = .next t ∧ OnlyReg rd s t ∧ t.regVal? rd = some cell := by
  refine ⟨?word, ?completes⟩
  case word =>
    rw [decode_packWord, hdecode]
    exact decodeU_packWord (State.regVal?_isSome_lt hx)
  case completes =>
    rw [hexec, ← hcell]
    exact State.unary_completes hp hx hrange

/-- Settles O34: SHL runs `shlVal`, which gives the plain product saturated by R39. -/
theorem shlMultipliesOrSaturates : Obligations.ShlMultipliesOrSaturates := by
  unfold Obligations.ShlMultipliesOrSaturates
  intro s rd x d hp hx _
  refine State.distanceForm_completes (f := shlVal) hp hx (fun _ => rfl) rfl ?cell (shlVal_inRange d s.params x)
  case cell =>
    cases x with
    | nan | inf => rfl
    | fin a => exact shlVal_fin s.params d a

/-- Settles O35: SHR runs `shrVal`, which gives the plain quotient of a magnitude that `CAP` limbs hold. -/
theorem shrDividesByPowerOfTwo : Obligations.ShrDividesByPowerOfTwo := by
  unfold Obligations.ShrDividesByPowerOfTwo
  intro s rd x d hp hx _
  have hx' : x.InRange s.params := State.regVal?_inRange hx
  refine State.distanceForm_completes (f := shrVal) hp hx (fun _ => rfl) rfl ?cell (shrVal_inRange d hx')
  case cell =>
    cases x with
    | nan | inf => rfl
    | fin a => exact shrVal_fin hx' d

end Machine
end Sys2Proof
end

section
/-!
PROOFS. The comparator (45_compare.md): both forms of CMP write the outcome of the table of R231 to `STATUS.CMP` and
nothing else, and each predicate of R234 reads from there whether the outcome is one of those it is true of.
-/

namespace Sys2Proof.Machine

/-! ### The outcome (R231 to R233) -/

/-- Two finite operands are compared by magnitude; the two sides test for EQ and GT in a different order. -/
theorem cmpVal_eq_cmpCell (x y : Val) : cmpVal x y = cmpCell x y := by
  cases x <;> cases y
  case fin.fin a b =>
    rcases Nat.lt_trichotomy a b with hlt | heq | hgt
    · simp [cmpVal, cmpCell, hlt]
    · simp [cmpVal, cmpCell, heq]
    · simp [cmpVal, cmpCell, hgt, hgt.not_gt, hgt.ne']
  all_goals rfl

/-- A comparing command completes, `STATUS.CMP` shows its outcome, and nothing else changes. -/
theorem State.finishCmp_completes (s : State) (o : CmpOutcome) :
    ∃ t, s.finishCmp o = .next t ∧ ShowsOutcome o s t ∧ OnlyStatus s t :=
  ⟨_, rfl, rfl, rfl, rfl, rfl, rfl, rfl⟩

/-- Settles O36: both forms hand the receiver and the right operand to the comparison, which is the table of R231. -/
theorem cmpShowsTheOutcome : Obligations.CmpShowsTheOutcome := by
  unfold Obligations.CmpShowsTheOutcome
  intro s rd x hp hx
  have hrd : rd.toNat < s.regs.length := State.regVal?_isSome_lt hx
  refine ⟨fun rs y hy => ⟨fun v => ?regWord, ?regForm⟩, fun sg v hv => ⟨?nativeWord, ?nativeForm⟩⟩
  case regWord => exact (decode_packWord ..).trans (decodeB_packWord_reg hrd (State.regVal?_isSome_lt hy))
  case regForm =>
    rw [exec, execCmp, State.withRegs_of_some hx hy, cmpVal_eq_cmpCell]
    exact s.finishCmp_completes _
  case nativeWord => exact (decode_packWord ..).trans (decodeB_packWord_native hrd)
  case nativeForm =>
    rw [exec, execCmpN, State.withReg_of_some hx, nat_eq_natCell hp hv, cmpVal_eq_cmpCell]
    exact s.finishCmp_completes _

/-! ### The predicates (R234) -/

/-- The outcomes that a predicate is true of (R234). -/
def Relation.outcomes : Relation → List CmpOutcome
  | .eq => [.eq]
  | .ne => [.lt, .gt, .un]
  | .lt => [.lt]
  | .le => [.lt, .eq]
  | .gt => [.gt]
  | .ge => [.gt, .eq]

/-- A predicate is the disjunction of the bits of the outcomes it is true of, and the bit of an outcome is set exactly
when that is the outcome shown. -/
theorem ShowsOutcome.holds_iff {o : CmpOutcome} {s t : State} (h : ShowsOutcome o s t) (r : Relation) :
    t.status.holds r = true ↔ o ∈ r.outcomes := by
  rw [ShowsOutcome] at h
  cases r <;> simp [h, Status.holds, Relation.outcomes, or_assoc]

/-- Settles O37: each clause is a row of the list of outcomes, and Infinity against itself shows EQ (D18). -/
theorem relationalPredicatesReadTheOutcome : Obligations.RelationalPredicatesReadTheOutcome := by
  unfold Obligations.RelationalPredicatesReadTheOutcome
  refine ⟨fun s t o h => ?rows, fun s t h => ?infinities⟩
  case rows => simp only [h.holds_iff, Relation.outcomes, List.mem_cons, List.not_mem_nil, or_false, and_self]
  case infinities =>
    have heq : ShowsOutcome .eq s t := h
    exact ⟨(heq.holds_iff .le).2 (by decide), (heq.holds_iff .ge).2 (by decide)⟩

end Sys2Proof.Machine
end

section
/-!
PROOFS. The commands without an operand (46_control.md): the one legal word of each opcode of class Z (R86), and what NOP and
CLRST leave.
-/

namespace Sys2Proof.Machine

/-- `Z` and `word[25:16]`, which a class Z word must have 0 (R89, cases 2 and 8), are all the bits below its opcode. -/
theorem rejects_decode_of_classZ {n : Nat} {c : Command} {i : Instr}
    (hrow : decodeRow n c (c.word.toNat / 2 ^ 26) = decodeZ c.word i) (hlow : c.word.toNat % 2 ^ 26 ≠ 0) :
    Rejects (decode n c) := by
  rw [decode, rejects_check, ne_eq, zField_eq_zero_iff, opField_toNat, hrow, rejects_decodeZ_iff]
  omega

/-- A word is its opcode and the bits below it (R81). -/
theorem low_ne_zero_of_ne_opcode {op : Nat} {w : Word} (hop : w.toNat / 2 ^ 26 = op)
    (hne : w ≠ BitVec.ofNat 32 (op * 2 ^ 26)) : w.toNat % 2 ^ 26 ≠ 0 := by
  intro hlow
  have hnat : w.toNat = op * 2 ^ 26 := by omega
  exact hne (by rw [← hnat, BitVec.ofNat_toNat, BitVec.setWidth_eq])

theorem packWord_opcode_only (op : BitVec 6) : packWord op 0 0 false false = BitVec.ofNat 32 (op.toNat * 2 ^ 26) := by
  revert op
  decide

/-- An opcode of class Z has one legal word, the one with every bit below the opcode 0 (R86, R88). -/
theorem classZ_onlyLegalWord {op : BitVec 6} {i : Instr} (hrow : ∀ n c, decodeRow n c op.toNat = decodeZ c.word i) :
    (∀ n v, decode n ⟨BitVec.ofNat 32 (op.toNat * 2 ^ 26), v⟩ = .ok i) ∧
    ∀ (n v : Nat) (w : Word), w.toNat / 2 ^ 26 = op.toNat → w ≠ BitVec.ofNat 32 (op.toNat * 2 ^ 26) →
      Rejects (decode n ⟨w, v⟩) := by
  refine ⟨fun n v => ?legal, fun n v w hop hne => ?illegal⟩
  case legal =>
    rw [← packWord_opcode_only, decode_packWord, hrow]
    exact decodeZ_packWord
  case illegal => exact rejects_decode_of_classZ (i := i) (by rw [hop, hrow]) (low_ne_zero_of_ne_opcode hop hne)

/-- Settles O44: NOP is of class Z, and it only retires. -/
theorem nopOnlyAdvancesTheCommandIndex : Obligations.NopOnlyAdvancesTheCommandIndex := by
  unfold Obligations.NopOnlyAdvancesTheCommandIndex
  obtain ⟨hlegal, hillegal⟩ := classZ_onlyLegalWord (op := 0x00) (i := .nop) fun _ _ => rfl
  exact ⟨hlegal, hillegal, fun _ => rfl⟩

theorem Status.clear_word : Status.clear.word = 0 := by decide

/-- Settles O45: CLRST is of class Z, and it writes `STATUS` alone. -/
theorem clrstClearsStatusOnly : Obligations.ClrstClearsStatusOnly := by
  unfold Obligations.ClrstClearsStatusOnly
  obtain ⟨hlegal, hillegal⟩ := classZ_onlyLegalWord (op := 0x12) (i := .clrst) fun _ _ => rfl
  exact ⟨hlegal, hillegal, fun _ => ⟨_, rfl, Status.clear_word, rfl, rfl, rfl, rfl, rfl⟩⟩

end Sys2Proof.Machine
end

section
/-!
PROOFS. The one event of CORE (60_exceptions.md): a legal command raises none and completes on all operand values (R260), an
illegal one is precise (R261), the bit it sets stays until CLRST or a reset clears it (R266), and CORE never hangs (R272).
-/

namespace Sys2Proof.Machine

/-! ### A rejected command (R261) -/

/-- Settles O8: the event of a rejected command writes `STATUS.ILL` and `ci` alone. -/
theorem illegalCommandIsPrecise : Obligations.IllegalCommandIsPrecise := by
  unfold Obligations.IllegalCommandIsPrecise
  exact fun s c rest e hr hs he => step_of_rejects hr hs ⟨e, he⟩

/-! ### A command whose registers hold values completes (R260) -/

/-- Each register that the command reads hands it a value, and with the values in hand every command answers a next state. -/
theorem exec_exists_next {i : Instr} {s : State} (hi : i.regsExist s.params = true)
    (hr : ∀ r ∈ readRegs i, (s.regVal? r).isSome = true) : ∃ t, exec i s = .next t := by
  have hlt {r : RegIdx} (h : r ∈ i.regFields) : r.toNat < s.regs.length := regField_lt_of_regsExist hi h
  have hval {r : RegIdx} (h : r ∈ readRegs i) : ∃ v, s.regVal? r = some v := Option.isSome_iff_exists.1 (hr r h)
  cases i with
  | nop | clrst => exact ⟨_, rfl⟩
  | add rd rs | sub rd rs | mul rd rs | div rd rs | mod rd rs | and rd rs | or rd rs | xor rd rs | cmp rd rs =>
    obtain ⟨x, hx⟩ := hval (r := rd) (by simp [readRegs])
    obtain ⟨y, hy⟩ := hval (r := rs) (by simp [readRegs])
    exact ⟨_, State.withRegs_of_some hx hy _⟩
  | addN rd sg v | subN rd sg v | mulN rd sg v | divN rd sg v | modN rd sg v | andN rd sg v | orN rd sg v | xorN rd sg v
  | cmpN rd sg v | not rd | shl rd v | shr rd v | cls rd | rdlimb rd v | rdlen rd =>
    obtain ⟨x, hx⟩ := hval (r := rd) (by simp [readRegs])
    exact ⟨_, State.withReg_of_some hx _⟩
  | mov rd rs =>
    obtain ⟨y, hy⟩ := hval (r := rs) (by simp [readRegs])
    exact ⟨_, (State.withDest_of_lt (hlt (by simp [Instr.regFields])) _).trans (State.withReg_of_some hy _)⟩
  | movN rd sg v | setc rd k => exact ⟨_, State.withDest_of_lt (hlt (by simp [Instr.regFields])) _⟩

open Answers in
/-- Every command but CLRST keeps `STATUS.ILL`, unless a register field of it names no register: a comparison writes the
other bits only (R232), and the others write no bit of `STATUS` (R45). -/
theorem exec_answers_ill {i : Instr} (hi : i ≠ .clrst) (s : State) :
    Answers s i.regFields (fun t => t.status.ill = s.status.ill) (exec i s) := by
  cases hw : writesStatus i with
  | false => exact fun t h => (exec_answers i s t h).imp_right fun hk => congrArg Status.ill (hk.status_kept hw)
  | true =>
    cases i with
    | clrst => exact absurd rfl hi
    | cmp rd rs => exact withRegs fun _ _ => next rfl
    | cmpN rd sg v => exact withReg (by simp [Instr.regFields]) fun _ => next rfl
    | _ => cases hw

/-- Settles O11: the command completes, whatever the values, and its registers exist, so what it answers is no event. -/
theorem commandsCompleteOnAllValues : Obligations.CommandsCompleteOnAllValues := by
  unfold Obligations.CommandsCompleteOnAllValues
  intro s i hi hr
  obtain ⟨t, ht⟩ := exec_exists_next hi hr
  refine ⟨t, ht, (exec_effect ht).ci, fun hne => ?_⟩
  rcases exec_answers_ill hne s t ht with ⟨-, r, hmem, hle⟩ | hill
  · exact absurd (regField_lt_of_regsExist hi hmem) (Nat.not_lt.2 hle)
  · exact hill

/-! ### What the decoder answers with (R88) -/

/-- `i` is an instruction of opcode `op` (R87), and each register field it uses names one of `n` registers (R82). -/
structure FitsRow (n op : Nat) (i : Instr) : Prop where
  regs : ∀ r ∈ i.regFields, r.toNat < n
  opcode : (opField (encode i).word).toNat = op

/-! The rule of each class (R86, R88), inverted: what holds of every instruction it can give holds of the one it gives. -/

section
variable {n : Nat} {i : Instr} {P : Instr → Prop}

theorem decodeB_ok {c : Command} {reg : RegIdx → RegIdx → Instr} {native : RegIdx → Bool → Nat → Instr}
    (hreg : ∀ rd rs : RegIdx, rd.toNat < n → rs.toNat < n → P (reg rd rs))
    (hnative : ∀ (rd : RegIdx) sg v, rd.toNat < n → P (native rd sg v)) (h : decodeB n c reg native = .ok i) : P i := by
  rw [decodeB] at h
  split_ifs at h with hrd hn hrs hs hrs <;> cases h
  · exact hnative _ _ _ (Nat.not_le.1 hrd)
  · exact hreg _ _ (Nat.not_le.1 hrd) (Nat.not_le.1 hrs)

theorem decodeU_ok {w : Word} {mk : RegIdx → Instr} (hmk : ∀ rd : RegIdx, rd.toNat < n → P (mk rd))
    (h : decodeU n w mk = .ok i) : P i := by
  rw [decodeU] at h
  split_ifs at h with hrd
  cases h
  exact hmk _ (Nat.not_le.1 hrd)

theorem decodeK_ok {w : Word} (hsetc : ∀ (rd : RegIdx) k, rd.toNat < n → P (.setc rd k)) (h : decodeK n w = .ok i) :
    P i := by
  rw [decodeK] at h
  split_ifs at h with hrd
  cases h
  exact hsetc _ _ (Nat.not_le.1 hrd)

theorem decodeZ_ok {w : Word} {j : Instr} (hj : P j) (h : decodeZ w j = .ok i) : P i := by
  rw [decodeZ] at h
  split_ifs at h
  cases h
  exact hj

end

/-- Each row of the decoder answers with an instruction of its own opcode (R87). -/
theorem decodeRow_ok {n : Nat} {c : Command} {op : Nat} {i : Instr} (h : decodeRow n c op = .ok i) : FitsRow n op i := by
  match op, h with
  | 0x00, h | 0x12, h => exact decodeZ_ok ⟨by simp [Instr.regFields], by decide⟩ h
  | 0x01, h | 0x02, h | 0x03, h | 0x04, h | 0x05, h | 0x06, h | 0x07, h | 0x08, h | 0x0C, h | 0x0E, h =>
    refine decodeB_ok (fun rd rs hrd hrs => ⟨?_, ?_⟩) (fun rd sg v hrd => ⟨?_, ?_⟩) h
    · simp [Instr.regFields, hrd, hrs]
    · simp [encode, encodeReg, opField_packWord]
    · simp [Instr.regFields, hrd]
    · simp [encode, encodeNative, opField_packWord]
  | 0x09, h | 0x0A, h | 0x0B, h | 0x0D, h | 0x10, h | 0x11, h =>
    rw [decodeRow] at h
    refine decodeU_ok (fun rd hrd => ⟨?_, ?_⟩) h
    · simp [Instr.regFields, hrd]
    · simp [encode, encodeUnary, opField_packWord]
  | 0x0F, h =>
    refine decodeK_ok (fun rd k hrd => ⟨?_, ?_⟩) h
    · simp [Instr.regFields, hrd]
    · simp [encode, encodeReg, opField_packWord]
  | _ + 0x13, h => cases h

theorem decode_ok {n : Nat} {c : Command} {i : Instr} (h : decode n c = .ok i) : FitsRow n (opField c.word).toNat i := by
  rw [decode] at h
  split_ifs at h
  exact decodeRow_ok h

theorem regsExist_of_decode {p : Params} {c : Command} {i : Instr} (h : decode p.nreg c = .ok i) : i.regsExist p = true :=
  List.all_eq_true.2 fun r hr => decide_eq_true ((decode_ok h).regs r hr)

/-- The opcode of a word that stands for CLRST is CLRST's, and that opcode has one legal word (R86). -/
theorem word_of_decode_clrst {n : Nat} {c : Command} (h : decode n c = .ok .clrst) : c.word = 0x48000000 := by
  obtain ⟨-, hillegal⟩ := classZ_onlyLegalWord (op := 0x12) (i := .clrst) fun _ _ => rfl
  by_contra hne
  have hop : c.word.toNat / 2 ^ 26 = 0x12 := (opField_toNat c.word).symm.trans (decode_ok h).opcode.symm
  have hrej : Rejects (decode n c) := hillegal n c.opnd c.word hop hne
  rw [h] at hrej
  exact not_rejects_ok _ hrej

/-! ### `STATUS.ILL` is sticky (R266) -/

theorem reachableRegs_of_step {s t : State} (h : step s = .next t) : s.reachableRegs = true := by
  rcases step_cases s with ⟨-, hstep⟩ | ⟨hr, -⟩
  · cases hstep.symm.trans h
  · exact hr

theorem eq_clrst_of_exec_clears_ill {i : Instr} {s t : State} (h : exec i s = .next t) (hs : s.status.ill = true)
    (ht : t.status.ill = false) : i = .clrst := by
  by_contra hne
  have hset : t.status.ill = true := by
    rcases exec_answers_ill hne s t h with ⟨rfl, -⟩ | hill
    · rfl
    · exact hill.trans hs
  exact Bool.false_ne_true (ht.symm.trans hset)

/-- Settles O19: of the things a step can do, only a reset and the decoded CLRST clear the bit. -/
theorem illIsStickyUntilClrstOrReset : Obligations.IllIsStickyUntilClrstOrReset := by
  unfold Obligations.IllIsStickyUntilClrstOrReset
  refine ⟨fun s t h hs ht => ?clears, fun s t c rest e hhost he _ h => ?second⟩
  case clears =>
    rcases step_cases s with ⟨-, hstep⟩ |
      ⟨-, ⟨-, hstep⟩ | ⟨c, rest, h0, -⟩ | ⟨_, _, _, -, -, hstep⟩ | ⟨c, rest, i, h0, hd, hstep⟩⟩
    · cases hstep.symm.trans h
    · cases hstep.symm.trans h
      cases hs.symm.trans ht
    · exact ⟨_, rest, h0, .inl ⟨c, rfl⟩⟩
    · cases hstep.symm.trans h
      cases ht
    · cases eq_clrst_of_exec_clears_ill (hstep.symm.trans h) hs ht
      exact ⟨_, rest, h0, .inr ⟨c.opnd, by rw [← word_of_decode_clrst hd]; rfl⟩⟩
  case second =>
    cases (step_of_rejects (reachableRegs_of_step h) hhost ⟨e, he⟩).symm.trans h
    rfl

/-! ### CORE never hangs (R272) -/

theorem step_of_idle {s : State} (hr : s.reachableRegs = true) (hs : s.host = []) : step s = .next s := by
  rw [step, State.ifReachable_of_true hr, hs]

theorem readRegs_subset_regFields (i : Instr) : readRegs i ⊆ i.regFields := by
  cases i with
  | nop | clrst | movN | setc => exact List.nil_subset _
  | mov rd rs => exact List.subset_cons_self rd [rs]
  | _ => exact List.Subset.refl _

theorem State.isSome_regVal?_of_reachableRegs {s : State} (h : s.reachableRegs = true) {r : RegIdx}
    (hr : r.toNat < s.regs.length) : (s.regVal? r).isSome = true :=
  (State.isSome_regVal? hr).trans (State.reachableRegs_iff.1 h _ (List.getElem_mem hr))

/-- A command from the port is taken and completes: a rejected one as illegal, a decoded one because its registers exist and
hold values. -/
theorem step_exists_next {s : State} {c : Command} {rest : List HostInput} (hr : s.reachableRegs = true)
    (hs : s.host = .issue c :: rest) : ∃ t, step s = .next t := by
  rcases step_cases s with ⟨hr', -⟩ |
    ⟨-, ⟨h0, -⟩ | ⟨_, _, h0, -⟩ | ⟨_, _, _, -, -, hstep⟩ | ⟨_, rest, i, -, hd, hstep⟩⟩
  · cases hr.symm.trans hr'
  · cases hs.symm.trans h0
  · cases hs.symm.trans h0
  · exact ⟨_, hstep⟩
  · rw [hstep]
    have hi : i.regsExist s.params = true := regsExist_of_decode hd
    exact exec_exists_next hi fun r hmem =>
      State.isSome_regVal?_of_reachableRegs hr (regField_lt_of_regsExist hi (readRegs_subset_regFields i hmem))

/-- No command writes the host's list. -/
theorem Effect.host {s t : State} (h : Effect s t) : t.host = s.host := by
  cases h with
  | illegal h | reg _ _ _ _ h | res _ h | cmp _ h | clear h | none h => rw [h]; rfl

/-- Settles O12: a command next is taken and has one of the effects of a command. -/
theorem idleCoreKeepsItsState : Obligations.IdleCoreKeepsItsState := by
  unfold Obligations.IdleCoreKeepsItsState
  refine ⟨fun _ hr hs => step_of_idle hr hs, fun s c rest hinv hs => ?_⟩
  obtain ⟨t, ht⟩ := step_exists_next hinv.reachableRegs hs
  have heffect := step_effect hs ht
  exact ⟨t, ht, heffect.host, heffect.ci⟩

end Sys2Proof.Machine
end

section
/-!
PROOFS. The encoder against the decoder (R81, R86 to R88), and what `OPND` decides of a decoded command.
-/

namespace Sys2Proof

/-- The instruction with `v` for the operand it carries, if it carries one. -/
def Instr.withOpnd (v : Nat) : Instr → Instr
  | .addN rd sg _ => .addN rd sg v
  | .subN rd sg _ => .subN rd sg v
  | .mulN rd sg _ => .mulN rd sg v
  | .divN rd sg _ => .divN rd sg v
  | .modN rd sg _ => .modN rd sg v
  | .andN rd sg _ => .andN rd sg v
  | .orN rd sg _ => .orN rd sg v
  | .xorN rd sg _ => .xorN rd sg v
  | .cmpN rd sg _ => .cmpN rd sg v
  | .movN rd sg _ => .movN rd sg v
  | .shl rd _ => .shl rd v
  | .shr rd _ => .shr rd v
  | .rdlimb rd _ => .rdlimb rd v
  | i => i

@[simp] theorem Instr.withOpnd_mnemonic (v : Nat) (i : Instr) : (i.withOpnd v).mnemonic = i.mnemonic := by
  cases i <;> rfl

@[simp] theorem Instr.withOpnd_regFields (v : Nat) (i : Instr) : (i.withOpnd v).regFields = i.regFields := by
  cases i <;> rfl

theorem Instr.withOpnd_opnd_le (v : Nat) (i : Instr) : (i.withOpnd v).opnd ≤ v := by
  cases i with
  | nop | clrst | add | sub | mul | div | mod | and | or | xor | cmp | mov | not | cls | rdlen | setc => exact Nat.zero_le v
  | addN | subN | mulN | divN | modN | andN | orN | xorN | cmpN | movN | shl | shr | rdlimb => exact le_rfl

namespace Machine

/-! ### The decoder reads an encoded instruction back -/

/-- Each class of R86 reads back the fields that the encoder packed, once the register fields name registers. -/
theorem decode_encode {p : Params} {i : Instr} (h : i.regsExist p = true) : decode p.nreg (encode i) = .ok i := by
  have hlt {r : RegIdx} (hr : r ∈ i.regFields) : r.toNat < p.nreg := regField_lt_of_regsExist h hr
  cases i with
  | nop | clrst => exact (decode_packWord ..).trans decodeZ_packWord
  | add rd rs | sub rd rs | mul rd rs | div rd rs | mod rd rs | and rd rs | or rd rs | xor rd rs | cmp rd rs
  | mov rd rs =>
    have hrd : rd.toNat < p.nreg := hlt (by simp [Instr.regFields])
    have hrs : rs.toNat < p.nreg := hlt (by simp [Instr.regFields])
    exact (decode_packWord ..).trans (decodeB_packWord_reg hrd hrs)
  | addN rd sg v | subN rd sg v | mulN rd sg v | divN rd sg v | modN rd sg v | andN rd sg v | orN rd sg v | xorN rd sg v
  | cmpN rd sg v | movN rd sg v =>
    exact (decode_packWord ..).trans (decodeB_packWord_native (hlt (by simp [Instr.regFields])))
  | not rd | cls rd | rdlen rd => exact (decode_packWord ..).trans (decodeU_packWord (hlt (by simp [Instr.regFields])))
  | shl rd v => exact (decode_packWord ..).trans (decodeU_packWord (mk := (.shl · v)) (hlt (by simp [Instr.regFields])))
  | shr rd v => exact (decode_packWord ..).trans (decodeU_packWord (mk := (.shr · v)) (hlt (by simp [Instr.regFields])))
  | rdlimb rd v =>
    exact (decode_packWord ..).trans (decodeU_packWord (mk := (.rdlimb · v)) (hlt (by simp [Instr.regFields])))
  | setc rd k => exact decode_setc (hlt (by simp [Instr.regFields])) k 0

theorem wellFormed_iff {p : Params} {i : Instr} :
    i.wellFormed p = true ↔ i.regsExist p = true ∧ i.opnd < 2 ^ p.w := by
  rw [Instr.wellFormed, Bool.and_eq_true, Instr.opndFits, decide_eq_true_iff]

/-- Settles O1: the operand travels beside the word, and the decoder reads each field of the word back. -/
theorem encodedWordDecodesBack : Obligations.EncodedWordDecodesBack := by
  unfold Obligations.EncodedWordDecodesBack
  exact fun p i hi => decode_encode (wellFormed_iff.1 hi).1

/-! ### `OPND` takes no part in which instruction it is (R88) -/

/-- The decoder's answer for a command is its answer for the bare word, with the command's `OPND` put into the instruction
that carries it. -/
def OpndIsCarried (w : Word) (v : Nat) (dec : Command → Except IllegalReason Instr) : Prop :=
  dec ⟨w, v⟩ = (dec ⟨w, 0⟩).map (Instr.withOpnd v)

theorem decodeZ_carries (w : Word) (v : Nat) {i : Instr} (hi : i.withOpnd v = i) :
    OpndIsCarried w v fun c => decodeZ c.word i := by
  simp only [OpndIsCarried, decodeZ]
  split <;> simp [Except.map, hi]

theorem decodeB_carries (n : Nat) (w : Word) (v : Nat) {reg : RegIdx → RegIdx → Instr} {native : RegIdx → Bool → Nat → Instr}
    (hreg : ∀ rd rs, (reg rd rs).withOpnd v = reg rd rs)
    (hnative : ∀ rd sg, (native rd sg 0).withOpnd v = native rd sg v) :
    OpndIsCarried w v fun c => decodeB n c reg native := by
  simp only [OpndIsCarried, decodeB]
  split_ifs <;> simp [Except.map, hreg, hnative]

theorem decodeU_carries (n : Nat) (w : Word) (v : Nat) {mk : RegIdx → Nat → Instr}
    (hmk : ∀ rd, (mk rd 0).withOpnd v = mk rd v) : OpndIsCarried w v fun c => decodeU n c.word (mk · c.opnd) := by
  simp only [OpndIsCarried, decodeU]
  split_ifs <;> simp [Except.map, hmk]

theorem decodeK_carries (n : Nat) (w : Word) (v : Nat) : OpndIsCarried w v fun c => decodeK n c.word := by
  simp only [OpndIsCarried, decodeK]
  split_ifs <;> rfl

theorem decodeRow_carries (n : Nat) (w : Word) (v op : Nat) : OpndIsCarried w v fun c => decodeRow n c op := by
  match op with
  | 0x00 | 0x12 => exact decodeZ_carries w v rfl
  | 0x01 | 0x02 | 0x03 | 0x04 | 0x05 | 0x06 | 0x07 | 0x08 | 0x0C | 0x0E =>
    exact decodeB_carries n w v (fun _ _ => rfl) fun _ _ => rfl
  | 0x09 => exact decodeU_carries n w v (mk := fun rd _ => .not rd) fun _ => rfl
  | 0x0A => exact decodeU_carries n w v (mk := .shl) fun _ => rfl
  | 0x0B => exact decodeU_carries n w v (mk := .shr) fun _ => rfl
  | 0x0D => exact decodeU_carries n w v (mk := fun rd _ => .cls rd) fun _ => rfl
  | 0x0F => exact decodeK_carries n w v
  | 0x10 => exact decodeU_carries n w v (mk := .rdlimb) fun _ => rfl
  | 0x11 => exact decodeU_carries n w v (mk := fun rd _ => .rdlen rd) fun _ => rfl
  | _ + 0x13 => rfl

theorem decode_eq_map_withOpnd (n : Nat) (w : Word) (v : Nat) :
    decode n ⟨w, v⟩ = (decode n ⟨w, 0⟩).map (Instr.withOpnd v) := by
  simp only [decode]
  split
  · rfl
  · exact decodeRow_carries n w v _

theorem opnd_le_of_decode {n : Nat} {c : Command} {i : Instr} (h : decode n c = .ok i) : i.opnd ≤ c.opnd := by
  rw [decode_eq_map_withOpnd n c.word c.opnd] at h
  cases hbare : decode n ⟨c.word, 0⟩ with
  | error e => simp [hbare, Except.map] at h
  | ok j =>
    obtain rfl : j.withOpnd c.opnd = i := by simpa [hbare, Except.map] using h
    exact j.withOpnd_opnd_le c.opnd

/-- Settles O5: the operand of a decoded instruction is the command's or 0, and both commands put their operand into the
instruction of one bare word. -/
theorem decodedInstructionsAreWellFormed : Obligations.DecodedInstructionsAreWellFormed := by
  unfold Obligations.DecodedInstructionsAreWellFormed
  refine ⟨fun p c i hc h => ?wellFormed, fun n w a b => ?sameRow⟩
  case wellFormed => exact wellFormed_iff.2 ⟨regsExist_of_decode h, (opnd_le_of_decode h).trans_lt hc⟩
  case sameRow =>
    rw [decode_eq_map_withOpnd n w a, decode_eq_map_withOpnd n w b]
    cases decode n ⟨w, 0⟩ with
    | error e => rfl
    | ok i => simp [Except.map]

end Machine
end Sys2Proof
end

section
/-!
PROOFS. The rows of spec/opcode_table.json that cover a word, against the decoder (R86 to R88): a row fixes fields of the
word, and the classes of R86 check the same fields.
-/

namespace Sys2Proof.Machine

/-! ### A row fixes fields of the word (R81) -/

theorem getLsbD_eq_of_extractLsb'_eq {v w : Word} {lo len i : Nat} (h : v.extractLsb' lo len = w.extractLsb' lo len)
    (hlo : lo ≤ i) (hhi : i < lo + len) : v.getLsbD i = w.getLsbD i := by
  have hbit := congrArg (·.getLsbD (i - lo)) h
  simpa [show i - lo < len by omega, Nat.add_sub_cancel' hlo] using hbit

/-- A word is its six fields. -/
theorem word_eq_of_fields {v w : Word} (hop : opField v = opField w) (hrd : rdField v = rdField w)
    (hrs : rsField v = rsField w) (hn : nBit v = nBit w) (hs : sBit v = sBit w) (hz : zField v = zField w) : v = w := by
  refine BitVec.eq_of_getLsbD_eq fun i hi => ?_
  have hcases : i < 16 ∨ i = 16 ∨ i = 17 ∨ (18 ≤ i ∧ i < 22) ∨ (22 ≤ i ∧ i < 26) ∨ (26 ≤ i ∧ i < 32) := by omega
  rcases hcases with h | rfl | rfl | ⟨hlo, hhi⟩ | ⟨hlo, hhi⟩ | ⟨hlo, hhi⟩
  · exact getLsbD_eq_of_extractLsb'_eq hz (Nat.zero_le i) (by omega)
  · exact hs
  · exact hn
  · exact getLsbD_eq_of_extractLsb'_eq hrs hlo hhi
  · exact getLsbD_eq_of_extractLsb'_eq hrd hlo hhi
  · exact getLsbD_eq_of_extractLsb'_eq hop hlo hhi

/-- A row covers a word when it covers each field of it. -/
theorem covers_iff (r : TableRow) (w : Word) : r.covers w = true ↔
    opField w &&& opField r.mask = opField r.pattern ∧ rdField w &&& rdField r.mask = rdField r.pattern ∧
    rsField w &&& rsField r.mask = rsField r.pattern ∧ (nBit w && nBit r.mask) = nBit r.pattern ∧
    (sBit w && sBit r.mask) = sBit r.pattern ∧ zField w &&& zField r.mask = zField r.pattern := by
  have hop : opField (w &&& r.mask) = opField w &&& opField r.mask := BitVec.extractLsb'_and
  have hrd : rdField (w &&& r.mask) = rdField w &&& rdField r.mask := BitVec.extractLsb'_and
  have hrs : rsField (w &&& r.mask) = rsField w &&& rsField r.mask := BitVec.extractLsb'_and
  have hn : nBit (w &&& r.mask) = (nBit w && nBit r.mask) := BitVec.getLsbD_and
  have hs : sBit (w &&& r.mask) = (sBit w && sBit r.mask) := BitVec.getLsbD_and
  have hz : zField (w &&& r.mask) = zField w &&& zField r.mask := BitVec.extractLsb'_and
  rw [TableRow.covers, beq_iff_eq, ← hop, ← hrd, ← hrs, ← hn, ← hs, ← hz]
  constructor
  · intro h
    simp only [h, and_self]
  · rintro ⟨h1, h2, h3, h4, h5, h6⟩
    exact word_eq_of_fields h1 h2 h3 h4 h5 h6

/-! ### The wide fields of classes U, K and Z are made of the fields of R81 -/

theorem extractLsb'_add_eq_zero_iff (w : Word) (lo m n : Nat) :
    w.extractLsb' lo (m + n) = 0 ↔ w.extractLsb' lo m = 0 ∧ w.extractLsb' (lo + m) n = 0 := by
  have hpos : 2 ^ m ≠ 0 := (Nat.two_pow_pos m).ne'
  rw [extractLsb'_eq_zero_iff, extractLsb'_eq_zero_iff, extractLsb'_eq_zero_iff, Nat.pow_add, Nat.mod_mul, Nat.pow_add,
    Nat.div_div_eq_div_mul, Nat.add_eq_zero_iff, Nat.mul_eq_zero, or_iff_right hpos]

theorem sBit_eq_false_iff (w : Word) : sBit w = false ↔ w.extractLsb' 16 1 = 0 := by
  rw [← Bool.not_eq_true, sBit_iff, extractLsb'_eq_zero_iff]
  exact Nat.mod_two_ne_one

theorem nBit_eq_false_iff_extractLsb' (w : Word) : nBit w = false ↔ w.extractLsb' 17 1 = 0 := by
  rw [nBit_eq_false_iff, extractLsb'_eq_zero_iff, Nat.pow_one]

theorem classUField_eq_zero_iff (w : Word) :
    w.extractLsb' 16 6 = 0 ↔ rsField w = 0 ∧ nBit w = false ∧ sBit w = false := by
  rw [extractLsb'_add_eq_zero_iff w 16 1 5, extractLsb'_add_eq_zero_iff w 17 1 4, sBit_eq_false_iff,
    nBit_eq_false_iff_extractLsb', rsField]
  tauto

theorem classZField_eq_zero_iff (w : Word) : w.extractLsb' 16 10 = 0 ↔ rdField w = 0 ∧ w.extractLsb' 16 6 = 0 :=
  (extractLsb'_add_eq_zero_iff w 16 6 4).trans and_comm

theorem kHighField_eq_zero_iff_rsField (w : Word) : kHighField w = 0 ↔ rsField w &&& 12 = 0 := by
  have hhigh : kHighField w = (rsField w).extractLsb' 2 2 := by
    ext i hi
    simp [kHighField, rsField, show 2 + i < 4 by omega, ← Nat.add_assoc]
  have hbits : ∀ k : BitVec 4, k.extractLsb' 2 2 = 0 ↔ k &&& 12 = 0 := by decide
  rw [hhigh, hbits]

/-! ### The rows of the classes (R86) -/

/-- A row of the table: opcode `op`, bit `n` of it fixed, and the other fields 0 as far as `mask` asks for them. -/
def rowOf (mask : Word) (n : Bool) (op : BitVec 6) (name : String) : TableRow := ⟨name, packWord op 0 0 n false, mask⟩

/-- Every mask of the table asks for the whole opcode, `N` and `Z`; the masks differ in what they ask of the rest. -/
theorem rowOf_covers_iff {mask w : Word} {n s : Bool} {rd rs : RegIdx} {op : BitVec 6} {name : String}
    (hop : opField mask = BitVec.allOnes 6) (hn : nBit mask = true) (hz : zField mask = BitVec.allOnes 16)
    (hrd : rdField mask = rd) (hrs : rsField mask = rs) (hs : sBit mask = s) :
    (rowOf mask n op name).covers w = true ↔ opField w = op ∧ rdField w &&& rd = 0 ∧ rsField w &&& rs = 0 ∧ nBit w = n ∧
      (sBit w && s) = false ∧ zField w = 0 := by
  simp only [covers_iff, rowOf, opField_packWord, rdField_packWord, rsField_packWord, nBit_packWord, sBit_packWord,
    zField_packWord, hop, hn, hz, hrd, hrs, hs, BitVec.and_allOnes, Bool.and_true]

@[simp] theorem rowOf_mnemonic (mask : Word) (n : Bool) (op : BitVec 6) (name : String) :
    (rowOf mask n op name).mnemonic = name := rfl

/-- The row of a register form of class B. -/
abbrev regRow : BitVec 6 → String → TableRow := rowOf 0xFC03FFFF false

/-- The row of a native form of class B. -/
abbrev nativeRow : BitVec 6 → String → TableRow := rowOf 0xFC3EFFFF true

/-- The row of a class U opcode. -/
abbrev unaryRow : BitVec 6 → String → TableRow := rowOf 0xFC3FFFFF false

/-- The row of a class K opcode. -/
abbrev setcRow : BitVec 6 → String → TableRow := rowOf 0xFC33FFFF false

/-- The row of a class Z opcode. -/
abbrev bareRow : BitVec 6 → String → TableRow := rowOf 0xFFFFFFFF false

section
variable {w : Word} {op : BitVec 6} {name : String} (hop : opField w = op) (hz : zField w = 0)
include hop hz

theorem regRow_covers_iff : (regRow op name).covers w = true ↔ nBit w = false ∧ sBit w = false :=
  (rowOf_covers_iff (rd := 0) (rs := 0) (s := true) rfl rfl rfl rfl rfl rfl).trans (by simp [hop, hz])

theorem nativeRow_covers_iff : (nativeRow op name).covers w = true ↔ rsField w = 0 ∧ nBit w = true :=
  (rowOf_covers_iff (rd := 0) (rs := BitVec.allOnes 4) (s := false) rfl rfl rfl rfl rfl rfl).trans
    (by simp [hop, hz, -BitVec.reduceAllOnes])

theorem unaryRow_covers_iff : (unaryRow op name).covers w = true ↔ w.extractLsb' 16 6 = 0 :=
  (rowOf_covers_iff (rd := 0) (rs := BitVec.allOnes 4) (s := true) rfl rfl rfl rfl rfl rfl).trans
    (by rw [classUField_eq_zero_iff]; simp [hop, hz, -BitVec.reduceAllOnes])

theorem setcRow_covers_iff : (setcRow op name).covers w = true ↔ kHighField w = 0 ∧ nBit w = false ∧ sBit w = false :=
  (rowOf_covers_iff (rd := 0) (rs := 12) (s := true) rfl rfl rfl rfl rfl rfl).trans
    (by rw [kHighField_eq_zero_iff_rsField]; simp [hop, hz])

theorem bareRow_covers_iff : (bareRow op name).covers w = true ↔ w.extractLsb' 16 10 = 0 :=
  (rowOf_covers_iff (rd := BitVec.allOnes 4) (rs := BitVec.allOnes 4) (s := true) rfl rfl rfl rfl rfl rfl).trans
    (by rw [classZField_eq_zero_iff, classUField_eq_zero_iff]; simp [hop, hz, -BitVec.reduceAllOnes])

end

/-! ### The rows of one opcode (R87) -/

/-- The rows of the table with opcode `op`. -/
def rowsOf (op : Nat) : List TableRow := opcodeTable.filter fun r => (opField r.pattern).toNat = op

/-- Every row asks for the whole opcode, so only the rows of a word's own opcode can cover it. -/
theorem filter_covers_eq (w : Word) :
    opcodeTable.filter (fun r => r.covers w) = (rowsOf (opField w).toNat).filter fun r => r.covers w := by
  have hmask : ∀ r ∈ opcodeTable, opField r.mask = BitVec.allOnes 6 := by decide
  rw [rowsOf, List.filter_filter]
  refine List.filter_congr fun r hr => ?_
  cases hc : r.covers w with
  | false => rfl
  | true =>
    have hop : opField w &&& opField r.mask = opField r.pattern := ((covers_iff r w).1 hc).1
    rw [hmask r hr, BitVec.and_allOnes] at hop
    simp [hop]

theorem filter_covers_of_zField_ne_zero {w : Word} (hz : zField w ≠ 0) :
    opcodeTable.filter (fun r => r.covers w) = [] := by
  have hrows : ∀ r ∈ opcodeTable, zField r.mask = BitVec.allOnes 16 ∧ zField r.pattern = 0 := by decide
  refine List.filter_eq_nil_iff.2 fun r hr hc => hz ?_
  obtain ⟨hmask, hpattern⟩ := hrows r hr
  obtain ⟨-, -, -, -, -, hcovers⟩ := (covers_iff r w).1 hc
  rwa [hmask, hpattern, BitVec.and_allOnes] at hcovers

theorem rowsOf_reserved (k : Nat) : rowsOf (k + 0x13) = [] := by
  have hrows : ∀ r ∈ opcodeTable, (opField r.pattern).toNat < 0x13 := by decide
  refine List.filter_eq_nil_iff.2 fun r hr h => ?_
  have hlt := hrows r hr
  have heq : (opField r.pattern).toNat = k + 0x13 := of_decide_eq_true h
  omega

/-! ### The decoder names the row (R88) -/

/-- The rows among `rows` that cover `w` are the one of the decoded instruction, and none when the decoder rejects. -/
def Names (rows : List TableRow) (w : Word) : Except IllegalReason Instr → Prop
  | .ok i => (rows.filter fun r => r.covers w).map TableRow.mnemonic = [i.mnemonic]
  | .error _ => rows.filter (fun r => r.covers w) = []

theorem names_opcodeTable_iff {w : Word} {o : Except IllegalReason Instr} :
    Names opcodeTable w o ↔ Names (rowsOf (opField w).toNat) w o := by
  cases o <;> simp only [Names, filter_covers_eq]

/-- The only row of an opcode names an instruction accepted exactly where the row covers the word. -/
theorem names_singleton {w : Word} {r : TableRow} {i : Instr} {accepted : Prop} [Decidable accepted]
    (hcovers : r.covers w = true ↔ accepted) (hname : r.mnemonic = i.mnemonic) (e : IllegalReason) :
    Names [r] w (if accepted then .ok i else .error e) := by
  by_cases h : accepted <;> simp [Names, hcovers, h, hname]

theorem rdField_lt (w : Word) : ¬ 16 ≤ (rdField w).toNat := Nat.not_le.2 (rdField w).isLt

theorem rsField_lt (w : Word) : ¬ 16 ≤ (rsField w).toNat := Nat.not_le.2 (rsField w).isLt

section
variable {w : Word} {op : Nat} (hop : (opField w).toNat = op) (hz : zField w = 0)
include hop

theorem opField_eq_ofNat : opField w = BitVec.ofNat 6 op := by rw [← hop, BitVec.ofNat_toNat, BitVec.setWidth_eq]

include hz

theorem names_decodeB {v : Nat} {reg : RegIdx → RegIdx → Instr} {native : RegIdx → Bool → Nat → Instr} {a b : String}
    (hreg : ∀ rd rs, (reg rd rs).mnemonic = a) (hnative : ∀ rd sg v, (native rd sg v).mnemonic = b)
    (hrows : rowsOf op = [regRow (BitVec.ofNat 6 op) a, nativeRow (BitVec.ofNat 6 op) b]) :
    Names (rowsOf op) w (decodeB 16 ⟨w, v⟩ reg native) := by
  have hr := regRow_covers_iff (name := a) (opField_eq_ofNat hop) hz
  have hn := nativeRow_covers_iff (name := b) (opField_eq_ofNat hop) hz
  rw [hrows, decodeB, if_neg (rdField_lt w), if_neg (rsField_lt w)]
  dsimp only
  split_ifs with h1 h2 h2
  · simp [Names, hr, hn, h1, h2, hnative]
  · simpa [Names, List.filter_cons, hr, hn, h1] using h2
  · simp [Names, hr, hn, h1, h2]
  · simp [Names, hr, hn, h1, h2, hreg]

theorem names_decodeU {mk : RegIdx → Instr}
    (hrows : rowsOf op = [unaryRow (BitVec.ofNat 6 op) (mk (rdField w)).mnemonic]) :
    Names (rowsOf op) w (decodeU 16 w mk) := by
  rw [hrows, decodeU, if_neg (rdField_lt w)]
  exact names_singleton (unaryRow_covers_iff (opField_eq_ofNat hop) hz) rfl _

theorem names_decodeK (hrows : rowsOf op = [setcRow (BitVec.ofNat 6 op) "SETC"]) :
    Names (rowsOf op) w (decodeK 16 w) := by
  rw [hrows, decodeK, if_neg (rdField_lt w)]
  exact names_singleton (setcRow_covers_iff (opField_eq_ofNat hop) hz) rfl _

theorem names_decodeZ {i : Instr} (hrows : rowsOf op = [bareRow (BitVec.ofNat 6 op) i.mnemonic]) :
    Names (rowsOf op) w (decodeZ w i) := by
  rw [hrows, decodeZ]
  exact names_singleton (bareRow_covers_iff (opField_eq_ofNat hop) hz) rfl _

/-- Each opcode has the rows of its class, and a reserved opcode has none. -/
theorem names_decodeRow (v : Nat) : Names (rowsOf op) w (decodeRow 16 ⟨w, v⟩ op) := by
  match op, hop with
  | 0x00, hop | 0x12, hop => exact names_decodeZ hop hz (by decide)
  | 0x01, hop | 0x02, hop | 0x03, hop | 0x04, hop | 0x05, hop | 0x06, hop | 0x07, hop | 0x08, hop | 0x0C, hop
  | 0x0E, hop => exact names_decodeB hop hz (fun _ _ => rfl) (fun _ _ _ => rfl) (by decide)
  | 0x09, hop | 0x0D, hop | 0x11, hop => exact names_decodeU hop hz rfl
  | 0x0A, hop => exact names_decodeU (mk := (.shl · v)) hop hz rfl
  | 0x0B, hop => exact names_decodeU (mk := (.shr · v)) hop hz rfl
  | 0x10, hop => exact names_decodeU (mk := (.rdlimb · v)) hop hz rfl
  | 0x0F, hop => exact names_decodeK hop hz (by decide)
  | k + 0x13, _ => exact congrArg (List.filter _) (rowsOf_reserved k)

end

/-- Settles O3: a word with `Z` not 0 has no row, and otherwise its class checks what the rows of its opcode fix. -/
theorem decodeNamesOneTableRow : Obligations.DecodeNamesOneTableRow := by
  unfold Obligations.DecodeNamesOneTableRow
  intro w v
  have hnames : Names opcodeTable w (decode 16 ⟨w, v⟩) := by
    rw [decode]
    split_ifs with hz
    · exact filter_covers_of_zField_ne_zero hz
    · exact names_opcodeTable_iff.2 (names_decodeRow rfl (not_not.1 hz) v)
  exact hnames

end Sys2Proof.Machine
end

section
/-!
PROOFS. Words of the test vectors, and the assembler (R92, R93): what it emits is the encoding of a well-formed instruction,
which the decoder reads back.
-/

namespace Sys2Proof.Machine

/-- Settles O2: the decoder run on each word. -/
theorem specWordsDecode : Obligations.SpecWordsDecode := by
  unfold Obligations.SpecWordsDecode
  decide

/-! ### The assembler's checks -/

section
variable {p : Params} {d : Nat} {r : RegIdx} {v : Int} {x : Nat}

theorem lt_nreg_of_asmReg (h : asmReg p d = some r) : r.toNat < p.nreg := by
  obtain ⟨⟨hd, hd16⟩, heq⟩ := Option.ite_none_right_eq_some.1 h
  obtain rfl := Option.some.inj heq
  rwa [BitVec.toNat_ofNat, Nat.mod_eq_of_lt hd16]

theorem lt_of_asmUnsigned (h : asmUnsigned p v = some x) : x < 2 ^ p.w := by
  obtain ⟨⟨hlo, hhi⟩, heq⟩ := Option.ite_none_right_eq_some.1 h
  obtain rfl := Option.some.inj heq
  rw [Int.toNat_lt hlo]
  exact_mod_cast hhi

theorem lt_of_asmSigned (h : asmSigned p v = some x) : x < 2 ^ p.w := by
  obtain ⟨-, heq⟩ := Option.ite_none_right_eq_some.1 h
  obtain rfl := Option.some.inj heq
  have hpos : (0 : Int) < 2 ^ p.w := by positivity
  rw [Int.toNat_lt (Int.emod_nonneg _ hpos.ne')]
  exact_mod_cast Int.emod_lt_of_pos v hpos

/-- A register number that the assembler accepts, as the field it writes. -/
theorem asmReg_of_lt (hp : p.Ok) (hd : d < p.nreg) : asmReg p d = some (BitVec.ofNat 4 d) := by
  obtain ⟨-, -, -, -, hn⟩ := hp
  exact if_pos ⟨hd, by omega⟩

end

theorem encode_opnd (i : Instr) : (encode i).opnd = i.opnd := by
  cases i <;> rfl

/-! ### What a line assembles to is well formed -/

section
variable {p : Params} {rd rs : RegIdx} (hrd : rd.toNat < p.nreg)
include hrd

theorem regInstr_wellFormed (op : BinOp) (hrs : rs.toNat < p.nreg) : (op.regInstr rd rs).wellFormed p = true := by
  cases op <;> simp [wellFormed_iff, BinOp.regInstr, Instr.regsExist, Instr.regFields, Instr.opnd, hrd, hrs]

theorem nativeInstr_wellFormed (op : BinOp) (sg : Bool) {v : Nat} (hv : v < 2 ^ p.w) :
    (op.nativeInstr rd sg v).wellFormed p = true := by
  cases op <;> simp [wellFormed_iff, BinOp.nativeInstr, Instr.regsExist, Instr.regFields, Instr.opnd, hrd, hv]

theorem unaryOpndInstr_wellFormed (op : UnaryOpndOp) {v : Nat} (hv : v < 2 ^ p.w) :
    (op.instr rd v).wellFormed p = true := by
  cases op <;> simp [wellFormed_iff, UnaryOpndOp.instr, Instr.regsExist, Instr.regFields, Instr.opnd, hrd, hv]

theorem unaryInstr_wellFormed (op : UnaryOp) : (op.instr rd).wellFormed p = true := by
  cases op <;> simp [wellFormed_iff, UnaryOp.instr, Instr.regsExist, Instr.regFields, Instr.opnd, hrd]

theorem setc_wellFormed (k : NamedConst) : (Instr.setc rd k).wellFormed p = true := by
  simp [wellFormed_iff, Instr.regsExist, Instr.regFields, Instr.opnd, hrd]

end

/-- Each form of R92 checks its register fields and its value before it is encoded. -/
theorem wellFormed_of_instr? {p : Params} {l : AsmLine} {i : Instr} (h : l.instr? p = some i) :
    i.wellFormed p = true := by
  rw [AsmLine.instr?] at h
  cases hl : l.expand with
  | reg op d s =>
    simp only [hl, Option.bind_eq_some_iff, Option.map_eq_some_iff] at h
    obtain ⟨rd, hrd, rs, hrs, rfl⟩ := h
    exact regInstr_wellFormed (lt_nreg_of_asmReg hrd) op (lt_nreg_of_asmReg hrs)
  | native op d v =>
    simp only [hl, Option.bind_eq_some_iff, Option.map_eq_some_iff] at h
    obtain ⟨rd, hrd, x, hx, rfl⟩ := h
    exact nativeInstr_wellFormed (lt_nreg_of_asmReg hrd) op false (lt_of_asmUnsigned hx)
  | nativeSigned op d v =>
    simp only [hl, Option.bind_eq_some_iff, Option.map_eq_some_iff] at h
    obtain ⟨rd, hrd, x, hx, rfl⟩ := h
    exact nativeInstr_wellFormed (lt_nreg_of_asmReg hrd) op true (lt_of_asmSigned hx)
  | unaryOpnd op d v =>
    simp only [hl, Option.bind_eq_some_iff, Option.map_eq_some_iff] at h
    obtain ⟨rd, hrd, x, hx, rfl⟩ := h
    exact unaryOpndInstr_wellFormed (lt_nreg_of_asmReg hrd) op (lt_of_asmUnsigned hx)
  | unary op d =>
    simp only [hl, Option.map_eq_some_iff] at h
    obtain ⟨rd, hrd, rfl⟩ := h
    exact unaryInstr_wellFormed (lt_nreg_of_asmReg hrd) op
  | setc d k =>
    simp only [hl, Option.map_eq_some_iff] at h
    obtain ⟨rd, hrd, rfl⟩ := h
    exact setc_wellFormed (lt_nreg_of_asmReg hrd) k
  | nop | clrst =>
    simp only [hl, Option.some.injEq] at h
    obtain rfl := h
    exact wellFormed_iff.2 ⟨rfl, Nat.two_pow_pos _⟩
  | li | clr | inc | dec | tst => simp [hl] at h

/-! ### The pseudo-instructions (R93) -/

/-- An expansion is a form of R92, which expands to itself. -/
theorem expand_expand (l : AsmLine) : l.expand.expand = l.expand := by
  cases l with
  | li d v =>
    rw [AsmLine.expand]
    split <;> rfl
  | _ => rfl

/-- A pseudo-instruction assembles as the line it expands to. -/
theorem assemble_expand (p : Params) (l : AsmLine) : assemble p l.expand = assemble p l := by
  rw [assemble, AsmLine.instr?, expand_expand]
  rfl

/-- The two's complement of `-v` in `W` bits. -/
theorem asmSigned_neg {p : Params} (hp : p.Ok) {v : Nat} (hpos : 0 < v) (hv : v ≤ 2 ^ (p.w - 1)) :
    asmSigned p (-v) = some (2 ^ p.w - v) := by
  have hw : 2 ^ p.w = 2 ^ (p.w - 1) * 2 := by
    rw [← Nat.pow_succ, Nat.succ_eq_add_one, Nat.sub_add_cancel (Nat.one_le_of_lt (two_le_w hp))]
  have hw' : (2 : Int) ^ p.w = 2 ^ (p.w - 1) * 2 := by exact_mod_cast hw
  have hv' : (v : Int) ≤ 2 ^ (p.w - 1) := by exact_mod_cast hv
  have hmod : -(v : Int) % 2 ^ p.w = (2 ^ p.w - v : Nat) := by
    rw [← Int.add_emod_right, Int.emod_eq_of_lt (by omega) (by omega), Nat.cast_sub (by omega)]
    push_cast
    ring
  rw [asmSigned, hmod, if_pos ⟨by omega, by omega⟩, Int.toNat_natCast]

section
variable {p : Params} {d : Nat} (hp : p.Ok) (hd : d < p.nreg)
include hp hd

theorem assemble_setc (k : NamedConst) : assemble p (.setc d k) = some (encode (.setc (BitVec.ofNat 4 d) k)) := by
  simp [assemble, AsmLine.instr?, AsmLine.expand, asmReg_of_lt hp hd]

theorem assemble_native (op : BinOp) {v : Nat} (hv : v < 2 ^ p.w) :
    assemble p (.native op d v) = some (encode (op.nativeInstr (BitVec.ofNat 4 d) false v)) := by
  have hx : asmUnsigned p v = some v := if_pos ⟨Int.natCast_nonneg v, by exact_mod_cast hv⟩
  simp [assemble, AsmLine.instr?, AsmLine.expand, asmReg_of_lt hp hd, hx]

theorem assemble_nativeSigned_neg (op : BinOp) {v : Nat} (hpos : 0 < v) (hv : v ≤ 2 ^ (p.w - 1)) :
    assemble p (.nativeSigned op d (-v)) = some (encode (op.nativeInstr (BitVec.ofNat 4 d) true (2 ^ p.w - v))) := by
  simp [assemble, AsmLine.instr?, AsmLine.expand, asmReg_of_lt hp hd, asmSigned_neg hp hpos hv]

end

/-- Settles O60: a line assembles to the encoding of a well-formed instruction, and each pseudo-instruction assembles as the
line of R92 it expands to. -/
theorem assemblerEmitsOnlyLegalCommands : Obligations.AssemblerEmitsOnlyLegalCommands := by
  unfold Obligations.AssemblerEmitsOnlyLegalCommands
  refine ⟨fun p l c hp h => ?legal, fun p d hp hd => ?pseudo⟩
  case legal =>
    obtain ⟨i, hi, rfl⟩ := Option.map_eq_some_iff.1 h
    obtain ⟨hregs, hopnd⟩ := wellFormed_iff.1 (wellFormed_of_instr? hi)
    exact ⟨i, hi, decode_encode hregs, (encode_opnd i).trans_lt hopnd⟩
  case pseudo =>
    have hone : 1 < 2 ^ p.w := Nat.one_lt_two_pow (Nat.ne_zero_of_lt (two_le_w hp))
    refine ⟨?clr, ?inc, ?dec, ?tst, fun v hv => ?li, fun v hpos hv => ?liNeg⟩
    case clr => exact (assemble_expand p (.clr d)).symm.trans (assemble_setc hp hd .zero)
    case inc => exact (assemble_expand p (.inc d)).symm.trans (assemble_native hp hd .add hone)
    case dec => exact (assemble_expand p (.dec d)).symm.trans (assemble_native hp hd .sub hone)
    case tst => exact (assemble_expand p (.tst d)).symm.trans (assemble_native hp hd .cmp (Nat.two_pow_pos _))
    case li =>
      have hexpand : (AsmLine.li d v).expand = .native .mov d v := by
        rw [AsmLine.expand, if_neg (Int.natCast_nonneg v).not_gt]
      rw [← assemble_expand, hexpand]
      exact assemble_native hp hd .mov hv
    case liNeg =>
      have hexpand : (AsmLine.li d (-v)).expand = .nativeSigned .mov d (-v) := by
        rw [AsmLine.expand, if_pos (by omega)]
      rw [← assemble_expand, hexpand]
      exact assemble_nativeSigned_neg hp hd .mov hpos hv

end Sys2Proof.Machine
end

section
/-!
PROOFS. The invariant of CORE's states (R37, R42, R44) and the reset (R52, R280): the reset state has it, every effect of a
command and a reset keep it, and with it a step always answers a next state.
-/

namespace Sys2Proof.Machine

/-! ### The reset state (R52) -/

theorem Status.clear_cmpLegal : Status.clear.cmpLegal = true := rfl

theorem resetWith_params (p : Params) : (State.resetWith p).params = p := by
  simp [State.params, State.resetWith]

/-- A register with length 0 is normalized, whatever its limbs of `LIMB_W` bits are. -/
theorem resetWith_inv {p : Params} (hp : p.Ok) : (State.resetWith p).Inv := by
  refine ⟨?params, ?regs, Nat.two_pow_pos _, Status.clear_cmpLegal⟩
  case params => rwa [resetWith_params]
  case regs =>
    rw [resetWith_params]
    intro r hr
    obtain rfl := List.eq_of_mem_replicate hr
    refine ⟨List.length_replicate, fun l hl => ?_, .inl rfl⟩
    obtain rfl := List.eq_of_mem_replicate hl
    exact p.base_pos

theorem reference_ok : Params.reference.Ok := by decide

/-- Settles O15: the reference configuration is a legal one. -/
theorem resetStateMeetsInvariant : Obligations.ResetStateMeetsInvariant := by
  unfold Obligations.ResetStateMeetsInvariant
  exact ⟨resetWith_inv reference_ok, fun _ => resetWith_inv⟩

/-- Settles O13: each field of the reset state as it stands. -/
theorem resetStateValues : Obligations.ResetStateValues := by
  unfold Obligations.ResetStateValues
  exact ⟨rfl, by decide, by decide, rfl, Status.clear_word, rfl, rfl⟩

/-! ### A reset event (R280) -/

theorem applyReset_len_eq_zero (s : State) : ∀ r ∈ s.applyReset.regs, r.len = 0 := by
  intro r hr
  obtain ⟨i, _, rfl⟩ := List.mem_mapIdx.1 hr
  exact enc_len ..

theorem applyReset_inv {s : State} (hp : s.params.Ok) : s.applyReset.Inv := by
  refine ⟨by rwa [State.applyReset_params], fun r hr => ?_, Nat.two_pow_pos _, Status.clear_cmpLegal⟩
  obtain ⟨i, _, rfl⟩ := List.mem_mapIdx.1 hr
  rw [State.applyReset_params]
  exact enc_normalized hp _ trivial

/-- The command in progress is not looked at. -/
theorem step_of_reset {s : State} (hr : s.reachableRegs = true) (c : Option Command) (rest : List HostInput) :
    step { s with host := .reset c :: rest } = .next (State.applyReset { s with host := rest }) :=
  State.ifReachable_of_true hr _

/-- NaN reads back under any parameters, legal or not. -/
theorem enc_nan_value? (p : Params) (j : Nat → Nat) : (NReg.enc p j .nan).value? p = some .nan := by
  simp [NReg.value?, NReg.legal, NReg.value, NReg.category, Val.encLen]

theorem applyReset_reads_nan {s : State} {r : RegIdx} (hr : r.toNat < s.regs.length) :
    s.applyReset.regVal? r = some .nan := by
  simp [State.regVal?, hr, enc_nan_value?]

/-- Settles O14: the reset event writes every piece of state, and takes nothing from the command in progress. -/
theorem resetEventRestoresResetValues : Obligations.ResetEventRestoresResetValues := by
  unfold Obligations.ResetEventRestoresResetValues
  intro s rest hr
  refine ⟨State.applyReset { s with host := rest }, fun c => step_of_reset hr c rest, ?_⟩
  exact ⟨State.applyReset_params _, fun r hlt => applyReset_reads_nan hlt, applyReset_len_eq_zero _, rfl, Status.clear_word,
    rfl, rfl⟩

/-! ### Every step keeps the invariant -/

theorem setCmp_cmpLegal (st : Status) (o : CmpOutcome) : (st.setCmp o).cmpLegal = true := by
  cases o <;> rfl

/-- A register write of a value in range keeps every register normalized. -/
theorem State.Inv.writeReg {s : State} (h : s.Inv) (rd : RegIdx) {v : Val} (hv : v.InRange s.params) :
    (s.writeReg rd v).Inv := by
  obtain ⟨hp, hregs, hres, hcmp⟩ := h
  have hparams : (s.writeReg rd v).params = s.params := s.writeReg_params rd v
  refine ⟨hparams ▸ hp, fun r hr => ?_, hparams ▸ hres, hcmp⟩
  rw [hparams]
  rcases List.mem_or_eq_of_mem_set hr with hmem | rfl
  · exact hregs r hmem
  · exact enc_normalized hp _ hv

/-- The invariant after a write of `STATUS` that leaves `STATUS.CMP` legal. -/
theorem State.Inv.withStatus {s : State} (h : s.Inv) {st : Status} (hst : st.cmpLegal = true) :
    State.Inv { s with status := st } := by
  obtain ⟨hp, hregs, hres, -⟩ := h
  exact ⟨hp, hregs, hres, hst⟩

theorem State.Inv.writeRes {s : State} (h : s.Inv) (v : Nat) : (s.writeRes v).Inv := by
  obtain ⟨hp, hregs, -, hcmp⟩ := h
  exact ⟨hp, hregs, Nat.mod_lt _ (Nat.two_pow_pos _), hcmp⟩

/-- The invariant does not look at `ci`. -/
theorem State.Inv.retire {s : State} (h : s.Inv) : s.retire.Inv := h

/-- The invariant does not look at the host's list. -/
theorem State.Inv.withHost {s : State} (h : s.Inv) (rest : List HostInput) : State.Inv { s with host := rest } := h

/-- Whatever a command does keeps the invariant: it writes a register with a value in range, or cuts to `W` bits, or
writes a legal `STATUS.CMP`. -/
theorem Effect.inv {s t : State} (h : Effect s t) (hs : s.Inv) : t.Inv := by
  obtain ⟨-, -, -, hcmp⟩ := id hs
  cases h with
  | illegal h => exact h ▸ (hs.withStatus (st := { s.status with ill := true }) hcmp).retire
  | reg rd v _ hv h => exact h ▸ (hs.writeReg rd hv).retire
  | res v h => exact h ▸ (hs.writeRes v).retire
  | cmp o h => exact h ▸ (hs.withStatus (setCmp_cmpLegal _ o)).retire
  | clear h => exact h ▸ (hs.withStatus Status.clear_cmpLegal).retire
  | none h => exact h ▸ hs.retire

/-- What a step that answers a next state did: it idled, reset, or had one of the effects of a command. -/
theorem step_next_cases {s t : State} (h : step s = .next t) :
    t = s ∨ (∃ rest, t = State.applyReset { s with host := rest }) ∨ ∃ rest, Effect { s with host := rest } t := by
  rcases step_cases s with ⟨-, hstep⟩ | ⟨-, ⟨-, hstep⟩ | ⟨_, rest, -, hstep⟩ | ⟨_, rest, _, hs, -⟩ | ⟨_, rest, _, hs, -⟩⟩
  · cases hstep.symm.trans h
  · cases hstep.symm.trans h
    exact .inl rfl
  · cases hstep.symm.trans h
    exact .inr (.inl ⟨rest, rfl⟩)
  · exact .inr (.inr ⟨rest, step_effect hs h⟩)
  · exact .inr (.inr ⟨rest, step_effect hs h⟩)

/-- Settles O16: idling keeps the state, and a reset and every effect of a command keep the invariant. -/
theorem everyStepKeepsTheInvariant : Obligations.EveryStepKeepsTheInvariant := by
  unfold Obligations.EveryStepKeepsTheInvariant
  intro s t hs h
  rcases step_next_cases h with rfl | ⟨rest, rfl⟩ | ⟨rest, heffect⟩
  · exact hs
  · obtain ⟨hp, -⟩ := hs
    exact applyReset_inv hp
  · exact heffect.inv (hs.withHost rest)

/-! ### The parameters (R7, R8, R10) -/

theorem Effect.params {s t : State} (h : Effect s t) : t.params = s.params := by
  cases h with
  | reg rd v _ _ h => exact h ▸ s.writeReg_params rd v
  | illegal h | res _ h | cmp _ h | clear h | none h => rw [h]; rfl

theorem step_params {s t : State} (h : step s = .next t) : t.params = s.params := by
  rcases step_next_cases h with rfl | ⟨rest, rfl⟩ | ⟨rest, heffect⟩
  · rfl
  · exact State.applyReset_params _
  · exact heffect.params

/-- Settles O22: the three are the parameters, which every step keeps. -/
theorem parametersNeverChange : Obligations.ParametersNeverChange := by
  unfold Obligations.ParametersNeverChange
  intro s t h
  have hp := step_params h
  exact ⟨congrArg Params.limbW hp, congrArg Params.cap hp, congrArg Params.nreg hp⟩

/-! ### A step is total on states with the invariant (R64, R290) -/

theorem step_exists_next_of_reachableRegs {s : State} (hr : s.reachableRegs = true) : ∃ t, step s = .next t := by
  rcases step_cases s with ⟨hr', -⟩ | ⟨-, ⟨-, hstep⟩ | ⟨_, _, -, hstep⟩ | ⟨_, _, _, -, -, hstep⟩ | ⟨_, _, _, hs, -⟩⟩
  · cases hr.symm.trans hr'
  · exact ⟨_, hstep⟩
  · exact ⟨_, hstep⟩
  · exact ⟨_, hstep⟩
  · exact step_exists_next hr hs

/-- Settles O17: a state with the invariant has no unreachable register, the one thing a step refuses. -/
theorem stepIsTotal : Obligations.StepIsTotal := by
  unfold Obligations.StepIsTotal
  exact fun _ hs => step_exists_next_of_reachableRegs hs.reachableRegs

/-- A command that decodes is executed (R290). -/
theorem step_of_decode {s : State} {c : Command} {rest : List HostInput} {i : Instr} (hr : s.reachableRegs = true)
    (hs : s.host = .issue c :: rest) (hi : decode s.nreg (s.accepted c) = .ok i) :
    step s = exec i { s with host := rest } := by
  simp only [step, State.ifReachable_of_true hr, hs, hi]

/-- Settles O7: the port cuts `OPND`, and a step on a command is the execution of what `decode` answers. -/
theorem stepRunsTheDecodedCommand : Obligations.StepRunsTheDecodedCommand := by
  unfold Obligations.StepRunsTheDecodedCommand
  intro s c rest hs
  refine ⟨fun i hr hi => step_of_decode hr hs hi, fun e hr he => step_of_rejects hr hs ⟨e, he⟩, fun t h => ?counted,
    fun hinv => step_exists_next hinv.reachableRegs hs⟩
  case counted =>
    have heffect := step_effect hs h
    exact ⟨heffect.ci, heffect.host⟩

/-! ### The word of `STATUS` (R44) -/

/-- The five live bits are concatenated below 27 zeros, each as a word of one bit. -/
theorem Status.getLsbD_word (st : Status) (k : Nat) : st.word.getLsbD k =
    if k = 0 then st.lt else if k = 1 then st.eq else if k = 2 then st.gt else if k = 3 then st.un
      else if k = 4 then st.ill else false := by
  simp only [Status.word, BitVec.getLsbD_append, BitVec.getLsbD_ofBool]
  rcases k with _ | _ | _ | _ | _ | k <;> simp

/-- Settles O24: the layout of the word, at each of the five positions and past them. -/
theorem statusWordLayout : Obligations.StatusWordLayout := by
  unfold Obligations.StatusWordLayout
  intro st
  refine ⟨st.getLsbD_word 0, st.getLsbD_word 1, st.getLsbD_word 2, st.getLsbD_word 3, st.getLsbD_word 4, fun k hk => ?_⟩
  rw [st.getLsbD_word, if_neg, if_neg, if_neg, if_neg, if_neg] <;> omega

end Sys2Proof.Machine
end

section
/-!
PROOFS. Registers that a command cannot use: a field that names no register makes the command illegal (R82), and a
register in an unreachable encoding makes a step refused, and a command that reads it (R40).
-/

namespace Sys2Proof.Machine

/-! ### A field that names no register (R82) -/

section
variable {s : State} {rd rs : RegIdx}

theorem State.withReg_of_absent (h : s.regs.length ≤ rd.toNat) (k : Val → Out) : s.withReg rd k = .next s.raiseIllegal :=
  State.withDest_of_le h _

/-- Both fields are looked at before any operand is read (R264). -/
theorem State.withRegs_of_absent (h : s.regs.length ≤ rd.toNat ∨ s.regs.length ≤ rs.toNat) (k : Val → Val → Out) :
    s.withRegs rd rs k = .next s.raiseIllegal := by
  rw [State.withRegs]
  rcases Nat.lt_or_ge rd.toNat s.regs.length with hrd | hrd
  · rw [State.withDest_of_lt hrd, State.withDest_of_le (h.resolve_left hrd.not_ge)]
  · exact State.withDest_of_le hrd _

/-- MOV looks at its receiver first, and at its source when it reads it. -/
theorem execMov_of_absent (h : s.regs.length ≤ rd.toNat ∨ s.regs.length ≤ rs.toNat) :
    execMov rd rs s = .next s.raiseIllegal := by
  rw [execMov]
  rcases Nat.lt_or_ge rd.toNat s.regs.length with hrd | hrd
  · rw [State.withDest_of_lt hrd, State.withReg_of_absent (h.resolve_left hrd.not_ge)]
  · exact State.withDest_of_le hrd _

end

/-- A command looks at every register field it uses before it does anything. -/
theorem exec_of_absent {s : State} {i : Instr} (h : ∃ r ∈ i.regFields, s.regs.length ≤ r.toNat) :
    exec i s = .next s.raiseIllegal := by
  cases i with
  | nop | clrst => simp [Instr.regFields] at h
  | add rd rs | sub rd rs | mul rd rs | div rd rs | mod rd rs | and rd rs | or rd rs | xor rd rs | cmp rd rs =>
    exact State.withRegs_of_absent (by simpa [Instr.regFields] using h) _
  | mov rd rs => exact execMov_of_absent (by simpa [Instr.regFields] using h)
  | addN rd sg v | subN rd sg v | mulN rd sg v | divN rd sg v | modN rd sg v | andN rd sg v | orN rd sg v | xorN rd sg v
  | cmpN rd sg v | not rd | shl rd v | shr rd v | cls rd | rdlimb rd v | rdlen rd =>
    exact State.withReg_of_absent (by simpa [Instr.regFields] using h) _
  | movN rd sg v | setc rd k => exact State.withDest_of_le (by simpa [Instr.regFields] using h) _

/-- Settles O9: the event of R261 writes `STATUS.ILL` and `ci` alone, and the reference configuration has 16 registers. -/
theorem absentRegisterIsIllegal : Obligations.AbsentRegisterIsIllegal := by
  unfold Obligations.AbsentRegisterIsIllegal
  refine ⟨fun s i h => exec_of_absent h, fun r => ?_⟩
  have hregs : State.reset.regs.length = 16 := List.length_replicate
  exact hregs ▸ r.isLt

/-! ### A register in an unreachable encoding (R40) -/

/-- The field combinations that R40 names: a length past Infinity's, or a used top limb 0. -/
def NReg.Unreachable (cap : Nat) (n : NReg) : Prop :=
  cap + 1 < n.len ∨ (2 ≤ n.len ∧ n.len ≤ cap ∧ n.limb.getD (n.len - 1) 0 = 0)

theorem NReg.Unreachable.legal_eq_false {p : Params} {n : NReg} (h : n.Unreachable p.cap) : n.legal p = false := by
  rw [← Bool.not_eq_true]
  intro hl
  simp only [NReg.legal, Bool.and_eq_true, Bool.or_eq_true, beq_iff_eq, bne_iff_ne, decide_eq_true_eq] at hl
  obtain ⟨-, (hnan | hinf) | ⟨⟨⟨hpos, hcap⟩, -⟩, htop⟩⟩ := hl
  all_goals
    rcases h with hlong | ⟨h2, hle, hzero⟩
    all_goals omega

theorem not_reachableRegs_of_unreachable {s : State} {n : NReg} (hn : n ∈ s.regs) (h : n.Unreachable s.cap) :
    s.reachableRegs = false := by
  rw [← Bool.not_eq_true, State.reachableRegs_iff]
  intro hall
  have hfalse : n.legal s.params = false := h.legal_eq_false
  exact Bool.false_ne_true (hfalse.symm.trans (hall n hn))

/-- A command reads nothing from a register in an unreachable encoding. -/
theorem regVal?_eq_none_of_unreachable {s : State} {r : RegIdx} {n : NReg} (hr : s.regs[r.toNat]? = some n)
    (h : n.Unreachable s.cap) : s.regVal? r = none := by
  have hfalse : n.legal s.params = false := h.legal_eq_false
  rw [State.regVal?_of_getElem? hr, NReg.value?, if_neg (by simp [hfalse])]

/-- Both registers exist, and one of them cannot be read. -/
theorem State.withRegs_of_none {s : State} {rd rs : RegIdx} (hrd : rd.toNat < s.regs.length)
    (hrs : rs.toNat < s.regs.length) (h : s.regVal? rd = none ∨ s.regVal? rs = none) (k : Val → Val → Out) :
    s.withRegs rd rs k = .refused .unreachableRegister := by
  rw [State.withRegs, State.withDest_of_lt hrd, State.withDest_of_lt hrs]
  cases hx : s.regVal? rd with
  | none => exact State.withReg_of_none hrd hx _
  | some x =>
    have hy : s.regVal? rs = none := h.resolve_left (by simp [hx])
    rw [State.withReg_of_some hx, State.withReg_of_none hrs hy]

theorem exec_of_unreadable {s : State} {i : Instr} (hi : i.regsExist s.params = true)
    (h : ∃ r ∈ readRegs i, s.regVal? r = none) : exec i s = .refused .unreachableRegister := by
  have hlt {r : RegIdx} (hr : r ∈ i.regFields) : r.toNat < s.regs.length := regField_lt_of_regsExist hi hr
  cases i with
  | nop | clrst | movN rd sg v | setc rd k => simp [readRegs] at h
  | add rd rs | sub rd rs | mul rd rs | div rd rs | mod rd rs | and rd rs | or rd rs | xor rd rs | cmp rd rs =>
    have hrd : rd.toNat < s.regs.length := hlt (by simp [Instr.regFields])
    have hrs : rs.toNat < s.regs.length := hlt (by simp [Instr.regFields])
    exact State.withRegs_of_none hrd hrs (by simpa [readRegs] using h) _
  | mov rd rs =>
    have hrd : rd.toNat < s.regs.length := hlt (by simp [Instr.regFields])
    have hrs : rs.toNat < s.regs.length := hlt (by simp [Instr.regFields])
    exact (State.withDest_of_lt hrd _).trans (State.withReg_of_none hrs (by simpa [readRegs] using h) _)
  | addN rd sg v | subN rd sg v | mulN rd sg v | divN rd sg v | modN rd sg v | andN rd sg v | orN rd sg v | xorN rd sg v
  | cmpN rd sg v | not rd | shl rd v | shr rd v | cls rd | rdlimb rd v | rdlen rd =>
    have hrd : rd.toNat < s.regs.length := hlt (by simp [Instr.regFields])
    exact State.withReg_of_none hrd (by simpa [readRegs] using h) _

/-- Settles O10: such a register is not legal, which is what a step asks of every register and a read of its own. -/
theorem unreachableRegisterIsRefused : Obligations.UnreachableRegisterIsRefused := by
  unfold Obligations.UnreachableRegisterIsRefused
  refine ⟨fun s n hn h => ?step, fun s i r n hi hr hn h => ?exec, fun s h => h.reachableRegs, fun s hr n hn h => ?none⟩
  case step => exact State.ifReachable_of_false (not_reachableRegs_of_unreachable hn h) _
  case exec => exact exec_of_unreadable hi ⟨r, hr, regVal?_eq_none_of_unreachable hn h⟩
  case none => exact Bool.false_ne_true ((not_reachableRegs_of_unreachable hn h).symm.trans hr)

end Sys2Proof.Machine
end

section
/-!
PROOFS. Laws between commands (41_add_sub.md, 42_mul_div.md, 44_shift.md): SUB undoes ADD, the quotient and the remainder
rebuild the dividend, and SHR undoes SHL, each where nothing saturates.
-/

namespace Sys2Proof.Machine

/-- A command that wrote another register leaves what this one reads as. -/
theorem OnlyReg.regVal?_other {rd r : RegIdx} {s t : State} (h : OnlyReg rd s t) (hr : r ≠ rd) :
    t.regVal? r = s.regVal? r := by
  obtain ⟨hp, hregs, -⟩ := h
  rw [State.regVal?, State.regVal?, hp, hregs r.toNat fun heq => hr (regIdx_ext heq)]

theorem OnlyReg.params {rd : RegIdx} {s t : State} (h : OnlyReg rd s t) : t.params = s.params := h.1

theorem saturate_of_lt {p : Params} {x : Nat} (hx : x < p.base ^ p.cap) : saturate p x = .fin x :=
  if_pos ((p.le_maxMag_iff x).2 hx)

/-! ### ADD and SUB -/

/-- Settles O47: the sum does not saturate, `Nb` is another register and stays, and the difference is what `Na` was. -/
theorem addThenSubRestores : Obligations.AddThenSubRestores := by
  unfold Obligations.AddThenSubRestores
  intro s ra rb a b hp hne ha hb hsum
  obtain ⟨t, hadd, hta, honly⟩ :=
    State.binaryReg_completes (f := addVal) hp ha hb (addVal_inRange s.params (.fin a) (.fin b))
  have hta : t.regVal? ra = some (.fin (a + b)) := hta.trans (congrArg some (saturate_of_lt hsum))
  have htb : t.regVal? rb = some (.fin b) := (honly.regVal?_other hne.symm).trans hb
  have htp : t.params.Ok := honly.params ▸ hp
  obtain ⟨u, hsub, hua, -⟩ :=
    State.binaryReg_completes (f := fun _ => subVal) htp hta htb (subVal_inRange _ (State.regVal?_inRange hta))
  have hback : subVal (.fin (a + b)) (.fin b) = .fin a := by simp [subVal]
  exact ⟨t, u, hadd, hsub, hua.trans (congrArg some hback)⟩

/-! ### DIV and MOD -/

/-- Settles O48: neither the product `q * b` nor the sum is past the dividend, so nothing saturates. -/
theorem quotientAndRemainderRebuildDividend : Obligations.QuotientAndRemainderRebuildDividend := by
  unfold Obligations.QuotientAndRemainderRebuildDividend
  intro p a b ha hb
  have hdiv : divVal (.fin a) (.fin b) = .fin (a / b) := by rw [divVal_eq_divCell, divCell, if_neg hb.ne']
  have hmod : modVal (.fin a) (.fin b) = .fin (a % b) := by rw [modVal_eq_modCell, modCell, if_neg hb.ne']
  have hmul : mulVal p (.fin (a / b)) (.fin b) = .fin (a / b * b) :=
    saturate_of_lt ((Nat.div_mul_le_self a b).trans_lt ha)
  have hsum : a / b * b + a % b = a := Nat.div_add_mod' a b
  refine ⟨a / b, a % b, hdiv, hmod, hsum.symm, Nat.mod_lt a hb, ?_⟩
  rw [hmul, addVal, hsum, saturate_of_lt ha]

/-! ### SHL and SHR -/

/-- Settles O49: a product that does not saturate is divided by the power it was multiplied by, and Infinity stays. -/
theorem shiftRoundTripOrSaturation : Obligations.ShiftRoundTripOrSaturation := by
  unfold Obligations.ShiftRoundTripOrSaturation
  intro s rd a d hp ha _
  obtain ⟨t, hshl, honly, ht⟩ := State.unary_completes (f := shlVal d) hp ha (shlVal_inRange d s.params (.fin a))
  rw [shlVal_fin, finCell] at ht
  have htp : t.params.Ok := honly.params ▸ hp
  obtain ⟨u, hshr, -, hu⟩ := State.unary_completes (f := shrVal d) htp ht (shrVal_inRange d (State.regVal?_inRange ht))
  refine ⟨t, u, hshl, hshr, ?_⟩
  split_ifs at ht hu with hfits
  · have hback : a * 2 ^ d / 2 ^ d = a := Nat.mul_div_cancel a (Nat.two_pow_pos d)
    rw [shrVal_fin (State.regVal?_inRange ht), hback] at hu
    exact .inl ⟨a * 2 ^ d, ht, hu⟩
  · exact .inr ⟨ht, hu⟩

end Sys2Proof.Machine
end

section
/-!
PROOFS. Canonical encodings (R37, R38) and the normalization unit (R111): a register that holds a magnitude in normalized
form is, on its length and its used limbs, the encoding of the magnitude, and normalization keeps the magnitude of a raw
vector.
-/

namespace Sys2Proof.Machine

/-! ### Limb vectors (R33) -/

theorem ofLimbs_append (b : Nat) (xs ys : List Nat) :
    ofLimbs b (xs ++ ys) = ofLimbs b xs + b ^ xs.length * ofLimbs b ys := by
  induction xs with
  | nil => simp [ofLimbs]
  | cons x xs ih => rw [List.cons_append, ofLimbs, ofLimbs, ih, List.length_cons, Nat.pow_succ']; ring

theorem ofLimbs_eq_zero (b : Nat) {t : List Nat} (h : ∀ l ∈ t, l = 0) : ofLimbs b t = 0 := by
  rw [List.eq_replicate_of_mem h]
  induction t.length with
  | zero => rfl
  | succ n ih => rw [List.replicate_succ, ofLimbs, ih, Nat.mul_zero]

/-- Limbs that are 0 from position `n` on add nothing. -/
theorem ofLimbs_take_of_zero_above (b : Nat) {t : List Nat} {n : Nat} (h : ∀ i, n ≤ i → t.getD i 0 = 0) :
    ofLimbs b (t.take n) = ofLimbs b t := by
  have hdrop : ofLimbs b (t.drop n) = 0 := by
    refine ofLimbs_eq_zero b fun l hl => ?_
    obtain ⟨i, hi, rfl⟩ := List.mem_iff_getElem.1 hl
    rw [List.length_drop] at hi
    rw [List.getElem_drop, ← List.getD_eq_getElem t 0]
    exact h (n + i) (Nat.le_add_right n i)
  calc ofLimbs b (t.take n) = ofLimbs b (t.take n) + b ^ (t.take n).length * ofLimbs b (t.drop n) := by
        rw [hdrop, Nat.mul_zero, Nat.add_zero]
    _ = ofLimbs b t := by rw [← ofLimbs_append, List.take_append_drop]

/-! ### The loop of `normalize` (R111) -/

section
variable (t : List Nat)

theorem normalizedLen_le (n : Nat) : normalizedLen t n ≤ n := by
  fun_induction normalizedLen t n <;> omega

theorem one_le_normalizedLen {n : Nat} (hn : 1 ≤ n) : 1 ≤ normalizedLen t n := by
  fun_induction normalizedLen t n with
  | case1 => exact hn
  | case2 => exact le_rfl
  | case3 n _ ih => exact ih n.succ_pos
  | case4 n _ => omega

/-- The limbs dropped are 0. -/
theorem getD_of_normalizedLen_le {n i : Nat} (hlo : normalizedLen t n ≤ i) (hhi : i < n) : t.getD i 0 = 0 := by
  fun_induction normalizedLen t n with
  | case1 | case2 | case4 => omega
  | case3 n htop ih =>
    rcases Nat.lt_succ_iff_lt_or_eq.1 hhi with hlt | rfl
    · exact ih hlo hlt
    · exact htop

/-- The loop stops at a top limb that is not 0, or at length 1. -/
theorem getD_normalizedLen_pred_ne_zero {n : Nat} (hn : 1 ≤ n) (h : normalizedLen t n ≠ 1) :
    t.getD (normalizedLen t n - 1) 0 ≠ 0 := by
  fun_induction normalizedLen t n with
  | case1 => omega
  | case2 => exact absurd rfl h
  | case3 n _ ih => exact ih n.succ_pos h
  | case4 n htop => exact htop

end

theorem normalize_magnitude (p : Params) (t : List Nat) : (normalize t.length t).magnitude p = ofLimbs p.base t := by
  refine ofLimbs_take_of_zero_above p.base fun i hi => ?_
  rcases Nat.lt_or_ge i t.length with hlt | hge
  · exact getD_of_normalizedLen_le t hi hlt
  · exact List.getD_eq_default _ _ hge

/-- A raw vector of limbs, normalized, holds its magnitude in the form of R37. -/
theorem normalize_holdsFin {p : Params} {t : List Nat} (hpos : 1 ≤ t.length) (hcap : t.length ≤ p.cap)
    (ht : ∀ l ∈ t, l < p.base) : (normalize t.length t).HoldsFin p (ofLimbs p.base t) where
  len_pos := one_le_normalizedLen t hpos
  len_le_cap := (normalizedLen_le t _).trans hcap
  used_lt l hl := ht l (List.mem_of_mem_take hl)
  top_ne_zero := getD_normalizedLen_pred_ne_zero t hpos
  magnitude := normalize_magnitude p t

/-! ### One normalized register for each magnitude (R38) -/

theorem enc_holdsFin {p : Params} (hp : p.Ok) (j : Nat → Nat) {m : Nat} (hm : m < p.base ^ p.cap) :
    (NReg.enc p j (.fin m)).HoldsFin p m :=
  NReg.holdsFin_of_value? (enc_value? hp j ((p.le_maxMag_iff m).2 hm))

/-- Two registers that hold one magnitude have the same length and read the same limbs. -/
theorem NReg.HoldsFin.unique {p : Params} {q r : NReg} {m : Nat} (hp : p.Ok) (hq : q.HoldsFin p m) (hr : r.HoldsFin p m) :
    q.len = r.len ∧ ∀ i, q.limbAt i = r.limbAt i :=
  ⟨(hq.len_eq hp).trans (hr.len_eq hp).symm, fun i => (hq.limbAt_eq i).trans (hr.limbAt_eq i).symm⟩

theorem NReg.HoldsFin.lt_base_pow_cap {p : Params} {r : NReg} {m : Nat} (h : r.HoldsFin p m) : m < p.base ^ p.cap :=
  h.lt_base_pow_len.trans_le (Nat.pow_le_pow_right p.base_pos h.len_le_cap)

theorem NReg.HoldsFin.one_le_cap {p : Params} {r : NReg} {m : Nat} (h : r.HoldsFin p m) : 1 ≤ p.cap :=
  h.len_pos.trans h.len_le_cap

/-- Settles O50: a normalized register reads as its value, and holds a finite one as its encoding does. -/
theorem normalizedEncodingIsUnique : Obligations.NormalizedEncodingIsUnique := by
  unfold Obligations.NormalizedEncodingIsUnique
  intro p r junk hp hr
  have hread : r.value? p = some (r.value p) := if_pos (legal_of_normalized hp hr)
  refine ⟨(enc_len p junk _).trans (NReg.len_eq_encLen hp hread).symm, fun m hm => ?_⟩
  rw [hm] at hread ⊢
  have hfin : r.HoldsFin p m := NReg.holdsFin_of_value? hread
  exact ((enc_holdsFin hp junk hfin.lt_base_pow_cap).unique hp hfin).2

/-- Settles O51: the normalized vector and the encoding hold one magnitude. -/
theorem normalizeGivesCanonicalEncoding : Obligations.NormalizeGivesCanonicalEncoding := by
  unfold Obligations.NormalizeGivesCanonicalEncoding
  intro p t junk hp hpos hcap ht
  have hfin := normalize_holdsFin hpos hcap ht
  exact hfin.unique hp (enc_holdsFin hp junk hfin.lt_base_pow_cap)

end Sys2Proof.Machine
end

section
/-!
PROOFS. What a limb-level unit stores (R111), and the ripple adder (R140), the ripple subtractor (R143) and the comparator
(R230) against the integer operations. Each loop has worked on the limbs below a position; the digits of a magnitude `m` from
position `i` over `n` limbs are `m / base^i % base^n`.
-/

namespace Sys2Proof.Machine

/-! ### The value a unit stores (R111) -/

/-- A register whose length is neither NaN's nor Infinity's reads as its magnitude (R32, R36). -/
theorem NReg.value_of_len {p : Params} {r : NReg} (hpos : 1 ≤ r.len) (hcap : r.len ≤ p.cap) :
    r.value p = .fin (r.magnitude p) := by
  rw [NReg.value, NReg.category, if_neg (by omega), if_neg (by omega)]
  split_ifs <;> rfl

/-- A raw vector stores its magnitude. -/
theorem UnitResult.value_raw {p : Params} {k : Nat} {t : List Nat} (hlen : t.length = k) (hpos : 1 ≤ k) (hcap : k ≤ p.cap) :
    (UnitResult.raw k t).value p = .fin (ofLimbs p.base t) := by
  subst hlen
  rw [UnitResult.value, NReg.value_of_len (one_le_normalizedLen t hpos) ((normalizedLen_le t _).trans hcap),
    normalize_magnitude]

@[simp] theorem limbVector_length (n : Nat) (f : Nat → Nat) : (limbVector n f).length = n := by
  rw [limbVector, List.length_map, List.length_range]

/-- The limb vector of the digits of `m` stores `m`, where `m` fits. -/
theorem UnitResult.value_raw_digits {p : Params} {k m : Nat} {f : Nat → Nat} (hpos : 1 ≤ k) (hcap : k ≤ p.cap)
    (hf : ∀ i < k, f i = m / p.base ^ i % p.base) (hm : m < p.base ^ k) :
    (UnitResult.raw k (limbVector k f)).value p = .fin m := by
  have hdigits : limbVector k f = limbVector k fun i => m / p.base ^ i % p.base :=
    List.map_congr_left fun i hi => hf i (List.mem_range.1 hi)
  rw [UnitResult.value_raw (limbVector_length k f) hpos hcap, hdigits, limbVector, ofLimbs_digits, Nat.mod_eq_of_lt hm]

/-! ### The digits of a magnitude from a position on -/

/-- The lowest of `n + 1` digits from position `i`, and the `n` above it. -/
theorem digits_succ (b m i n : Nat) : m / b ^ i % b ^ (n + 1) = m / b ^ i % b + b * (m / b ^ (i + 1) % b ^ n) := by
  rw [Nat.pow_succ', Nat.mod_mul, Nat.div_div_eq_div_mul, ← Nat.pow_succ]

theorem digits_of_lt {b m n : Nat} (h : m < b ^ n) : m / b ^ 0 % b ^ n = m := by
  rw [Nat.pow_zero, Nat.div_one, Nat.mod_eq_of_lt h]

section
variable {p : Params} {x y : NReg} {a b : Nat}

/-! ### The ripple adder (R140) -/

theorem addRipple_length (n i c : Nat) : (addRipple p x y n i c).1.length = n := by
  induction n generalizing i c with
  | zero => rfl
  | succ n ih => exact congrArg (· + 1) (ih ..)

theorem addRipple_lt (n i c : Nat) : ∀ l ∈ (addRipple p x y n i c).1, l < p.base := by
  induction n generalizing i c with
  | zero => exact fun _ hl => absurd hl List.not_mem_nil
  | succ n ih => exact List.forall_mem_cons.2 ⟨Nat.mod_lt _ p.base_pos, ih (i + 1) _⟩

/-- The limbs and the carry out are the sum of the digits and the carry in. -/
theorem addRipple_sum (hx : x.HoldsFin p a) (hy : y.HoldsFin p b) (n i c : Nat) :
    ofLimbs p.base (addRipple p x y n i c).1 + (addRipple p x y n i c).2 * p.base ^ n =
      a / p.base ^ i % p.base ^ n + b / p.base ^ i % p.base ^ n + c := by
  induction n generalizing i c with
  | zero => simp [addRipple, ofLimbs, Nat.mod_one]
  | succ n ih =>
    have hs : x.limbAt i + y.limbAt i + c = a / p.base ^ i % p.base + b / p.base ^ i % p.base + c := by
      rw [hx.limbAt_eq, hy.limbAt_eq]
    simp only [addRipple, addLimb, ofLimbs, digits_succ]
    generalize x.limbAt i + y.limbAt i + c = s at hs
    have hrest := ih (i + 1) (s / p.base)
    have hcarry := Nat.mod_add_div s p.base
    generalize addRipple p x y n (i + 1) (s / p.base) = r at hrest
    calc s % p.base + p.base * ofLimbs p.base r.1 + r.2 * p.base ^ (n + 1)
        = s % p.base + p.base * (ofLimbs p.base r.1 + r.2 * p.base ^ n) := by ring
      _ = (s % p.base + p.base * (s / p.base)) +
            p.base * (a / p.base ^ (i + 1) % p.base ^ n + b / p.base ^ (i + 1) % p.base ^ n) := by rw [hrest]; ring
      _ = _ := by rw [hcarry, hs]; ring

/-! ### The ripple subtractor (R143) -/

/-- One limb of the difference: with a borrow in of at most 1, the limb and the borrow out make up for the limb taken. -/
theorem subLimb_spec (hx : x.HoldsFin p a) (hy : y.HoldsFin p b) (i : Nat) {bw : Nat} (hbw : bw ≤ 1) :
    (subLimb p x y i bw).1 + y.limbAt i + bw = x.limbAt i + p.base * (subLimb p x y i bw).2 ∧
      (subLimb p x y i bw).1 < p.base ∧ (subLimb p x y i bw).2 ≤ 1 := by
  have hxi : x.limbAt i < p.base := hx.limbAt_eq i ▸ Nat.mod_lt _ p.base_pos
  have hyi : y.limbAt i < p.base := hy.limbAt_eq i ▸ Nat.mod_lt _ p.base_pos
  rw [subLimb]
  split_ifs with h
  · dsimp only
    omega
  · dsimp only
    omega

theorem subRipple_length (n i bw : Nat) : (subRipple p x y n i bw).1.length = n := by
  induction n generalizing i bw with
  | zero => rfl
  | succ n ih => exact congrArg (· + 1) (ih ..)

/-- The limbs and what was borrowed make up for the digits taken, limbs stay limbs and a borrow is at most 1. -/
theorem subRipple_spec (hx : x.HoldsFin p a) (hy : y.HoldsFin p b) (n i : Nat) {bw : Nat} (hbw : bw ≤ 1) :
    ofLimbs p.base (subRipple p x y n i bw).1 + b / p.base ^ i % p.base ^ n + bw =
        a / p.base ^ i % p.base ^ n + (subRipple p x y n i bw).2 * p.base ^ n ∧
      (∀ l ∈ (subRipple p x y n i bw).1, l < p.base) ∧ (subRipple p x y n i bw).2 ≤ 1 := by
  induction n generalizing i bw with
  | zero => simp [subRipple, ofLimbs, Nat.mod_one, hbw]
  | succ n ih =>
    obtain ⟨hlimb, hlt, hout⟩ := subLimb_spec hx hy i hbw
    simp only [subRipple, ofLimbs, digits_succ, List.forall_mem_cons, ← hx.limbAt_eq, ← hy.limbAt_eq]
    generalize subLimb p x y i bw = d at hlimb hlt hout
    obtain ⟨hrest, hrestlt, hrestout⟩ := ih (i + 1) hout
    refine ⟨?_, ⟨hlt, hrestlt⟩, hrestout⟩
    generalize subRipple p x y n (i + 1) d.2 = r at hrest
    calc d.1 + p.base * ofLimbs p.base r.1 + (y.limbAt i + p.base * (b / p.base ^ (i + 1) % p.base ^ n)) + bw
        = (d.1 + y.limbAt i + bw) + p.base * (ofLimbs p.base r.1 + b / p.base ^ (i + 1) % p.base ^ n) := by ring
      _ = x.limbAt i + p.base * (ofLimbs p.base r.1 + b / p.base ^ (i + 1) % p.base ^ n + d.2) := by rw [hlimb]; ring
      _ = x.limbAt i + p.base * (a / p.base ^ (i + 1) % p.base ^ n + r.2 * p.base ^ n) := by rw [hrest]
      _ = _ := by ring

/-! ### The comparator (R230) -/

/-- The comparison of two numbers as R231 has it of magnitudes. -/
def natOutcome (a b : Nat) : CmpOutcome := if a < b then .lt else if b < a then .gt else .eq

theorem natOutcome_of_lt (h : a < b) : natOutcome a b = .lt := if_pos h

theorem natOutcome_of_gt (h : b < a) : natOutcome a b = .gt := by rw [natOutcome, if_neg h.not_gt, if_pos h]

/-- Numbers that differ in the high part compare as their high parts do. -/
theorem natOutcome_high {c d e f m : Nat} (hc : c < m) (hd : d < m) :
    natOutcome (c + m * e) (d + m * f) = if e = f then natOutcome c d else if f < e then .gt else .lt := by
  rcases Nat.lt_trichotomy e f with h | rfl | h
  · have hmul : m * (e + 1) ≤ m * f := Nat.mul_le_mul_left m h
    rw [if_neg h.ne, if_neg h.not_gt, natOutcome_of_lt (by rw [Nat.mul_succ] at hmul; omega)]
  · simp only [natOutcome, Nat.add_lt_add_iff_right, if_true]
  · have hmul : m * (f + 1) ≤ m * e := Nat.mul_le_mul_left m h
    rw [if_neg h.ne', if_pos h, natOutcome_of_gt (by rw [Nat.mul_succ] at hmul; omega)]

/-- The limbs below `n`, from the top down, compare as the numbers they make up. -/
theorem cmpLimbs_eq (hx : x.HoldsFin p a) (hy : y.HoldsFin p b) (n : Nat) :
    cmpLimbs x y n = natOutcome (a % p.base ^ n) (b % p.base ^ n) := by
  induction n with
  | zero => simp [cmpLimbs, natOutcome, Nat.mod_one]
  | succ n ih =>
    have hpos := p.base_pow_pos n
    rw [cmpLimbs, ih, Nat.mod_pow_succ, Nat.mod_pow_succ, natOutcome_high (Nat.mod_lt a hpos) (Nat.mod_lt b hpos),
      hx.limbAt_eq, hy.limbAt_eq]

/-- A longer register holds a greater magnitude: its top limb is not 0. -/
theorem NReg.HoldsFin.lt_of_len_lt (hx : x.HoldsFin p a) (hy : y.HoldsFin p b) (h : x.len < y.len) : a < b :=
  calc a < p.base ^ x.len := hx.lt_base_pow_len
    _ ≤ p.base ^ (y.len - 1) := Nat.pow_le_pow_right p.base_pos (by omega)
    _ ≤ b := hy.base_pow_le (by have := hx.len_pos; omega)

theorem comparator_eq (hx : x.HoldsFin p a) (hy : y.HoldsFin p b) : comparator x y = natOutcome a b := by
  rw [comparator]
  split_ifs with hne hlt
  · exact (natOutcome_of_gt (hy.lt_of_len_lt hx hlt)).symm
  · exact (natOutcome_of_lt (hx.lt_of_len_lt hy (by omega))).symm
  · have hlen : x.len = y.len := not_not.1 hne
    rw [cmpLimbs_eq hx hy, Nat.mod_eq_of_lt hx.lt_base_pow_len, Nat.mod_eq_of_lt (hlen ▸ hy.lt_base_pow_len)]

end

/-! ### The statements -/

/-- Settles O52: over all `CAP` limbs the carry out is 1 exactly when the sum is past `MAX`. -/
theorem rippleAdderGivesSaturatedSum : Obligations.RippleAdderGivesSaturatedSum := by
  unfold Obligations.RippleAdderGivesSaturatedSum
  intro p x y a b _ hx hy
  have hx := NReg.holdsFin_of_value? hx
  have hy := NReg.holdsFin_of_value? hy
  have hsum := addRipple_sum hx hy p.cap 0 0
  have hlen : (addRipple p x y p.cap 0 0).1.length = p.cap := addRipple_length ..
  have hlt := ofLimbs_lt _ _ (addRipple_lt (p := p) (x := x) (y := y) p.cap 0 0)
  rw [digits_of_lt hx.lt_base_pow_cap, digits_of_lt hy.lt_base_pow_cap, Nat.add_zero] at hsum
  rw [hlen] at hlt
  rw [adder, finCell]
  generalize addRipple p x y p.cap 0 0 = r at hsum hlen hlt
  by_cases hc : r.2 = 1
  · have hpast : ¬ a + b < p.base ^ p.cap := by
      rw [hc] at hsum
      omega
    simp only [hc, if_pos, if_neg hpast]
    rfl
  · have hcarry : r.2 < 2 := by
      by_contra hge
      have hmul := Nat.mul_le_mul_right (p.base ^ p.cap) (Nat.le_of_not_lt hge)
      have ha := hx.lt_base_pow_cap
      have hb := hy.lt_base_pow_cap
      omega
    have hzero : r.2 = 0 := by omega
    rw [hzero, Nat.zero_mul, Nat.add_zero] at hsum
    simp only [hc, if_false]
    rw [UnitResult.value_raw hlen hx.one_le_cap le_rfl, hsum, if_pos (hsum ▸ hlt)]
/-- Settles O53: over all `CAP` limbs the borrow out is 1 exactly when the subtrahend is the greater. -/
theorem rippleSubtractorGivesDifference : Obligations.RippleSubtractorGivesDifference := by
  unfold Obligations.RippleSubtractorGivesDifference
  intro p x y a b _ hx hy
  have hx := NReg.holdsFin_of_value? hx
  have hy := NReg.holdsFin_of_value? hy
  obtain ⟨hdiff, hlimbs, hbw⟩ := subRipple_spec hx hy p.cap 0 (Nat.zero_le 1)
  have hlen : (subRipple p x y p.cap 0 0).1.length = p.cap := subRipple_length ..
  have hlt := ofLimbs_lt _ _ hlimbs
  rw [digits_of_lt hx.lt_base_pow_cap, digits_of_lt hy.lt_base_pow_cap, Nat.add_zero] at hdiff
  rw [hlen] at hlt
  rw [subtractor]
  generalize subRipple p x y p.cap 0 0 = r at hdiff hlen hlt hbw
  by_cases hb : r.2 = 1
  · rw [hb, Nat.one_mul] at hdiff
    simp only [hb, if_true]
    rw [if_neg (by omega)]
    rfl
  · have hzero : r.2 = 0 := by omega
    rw [hzero, Nat.zero_mul, Nat.add_zero] at hdiff
    simp only [hb, if_false]
    rw [UnitResult.value_raw hlen hx.one_le_cap le_rfl, if_pos (by omega), Nat.eq_sub_of_add_eq hdiff]

/-- Settles O59: the longer register is the greater, and of two of one length the highest limb that differs decides. -/
theorem limbComparatorComparesMagnitudes : Obligations.LimbComparatorComparesMagnitudes := by
  unfold Obligations.LimbComparatorComparesMagnitudes
  exact fun p x y a b _ hx hy => comparator_eq (NReg.holdsFin_of_value? hx) (NReg.holdsFin_of_value? hy)

end Sys2Proof.Machine
end

section
/-!
PROOFS. The bitwise unit and the complement (R190, R198) and the barrel shifter (R212): bit `j` of limb `i` is bit
`LIMB_W * i + j` of the magnitude, so each unit is compared with the operation on the magnitude bit by bit.
-/

namespace Sys2Proof.Machine

/-! ### The bits of a limb -/

theorem digit_testBit (p : Params) (m i j : Nat) :
    (m / p.base ^ i % p.base).testBit j = (decide (j < p.limbW) && m.testBit (p.limbW * i + j)) := by
  rw [Params.base_pow, Params.base, Nat.testBit_mod_two_pow, Nat.testBit_div_two_pow, Nat.add_comm]

section
variable {p : Params} {x y : NReg} {a b : Nat}

theorem NReg.HoldsFin.limbAt_testBit (hx : x.HoldsFin p a) (i j : Nat) :
    (x.limbAt i).testBit j = (decide (j < p.limbW) && a.testBit (p.limbW * i + j)) := by
  rw [hx.limbAt_eq, digit_testBit]

theorem lt_base_pow_cap_iff : a < p.base ^ p.cap ↔ a < 2 ^ p.bits := by rw [Params.base_pow_cap]

/-- A number that fits the limbs has no bit above them. -/
theorem NReg.HoldsFin.testBit_of_bits_le (hx : x.HoldsFin p a) {k : Nat} (hk : p.bits ≤ k) : a.testBit k = false :=
  Nat.testBit_lt_two_pow ((lt_base_pow_cap_iff.1 hx.lt_base_pow_cap).trans_le (Nat.pow_le_pow_right two_pos hk))

/-! ### The bitwise unit (R190) -/

/-- `op` acts on each pair of bits by `f`, which makes no bit out of two zeros. -/
structure IsBitwise (op : Nat → Nat → Nat) (f : Bool → Bool → Bool) : Prop where
  testBit : ∀ a b k, (op a b).testBit k = f (a.testBit k) (b.testBit k)
  zero : f false false = false

theorem isBitwise_land : IsBitwise Nat.land and := ⟨Nat.testBit_and, rfl⟩
theorem isBitwise_lor : IsBitwise Nat.lor or := ⟨Nat.testBit_or, rfl⟩
theorem isBitwise_xor : IsBitwise Nat.xor bne := ⟨Nat.testBit_xor, rfl⟩

theorem bitwiseUnit_value {op : Nat → Nat → Nat} {f : Bool → Bool → Bool} (hop : IsBitwise op f)
    (hx : x.HoldsFin p a) (hy : y.HoldsFin p b) : (bitwiseUnit p op x y).value p = .fin (op a b) := by
  refine UnitResult.value_raw_digits hx.one_le_cap le_rfl (fun i _ => ?limb) (lt_base_pow_cap_iff.2 ?fits)
  case limb =>
    refine Nat.eq_of_testBit_eq fun j => ?_
    rw [digit_testBit, hop.testBit, hop.testBit, hx.limbAt_testBit, hy.limbAt_testBit]
    by_cases hj : j < p.limbW <;> simp [hj, hop.zero]
  case fits =>
    refine Nat.lt_pow_two_of_testBit _ fun k hk => ?_
    rw [hop.testBit, hx.testBit_of_bits_le hk, hy.testBit_of_bits_le hk, hop.zero]

/-! ### The complement (R198) -/

/-- Every limb of `MAX` is all ones. -/
theorem digit_maxMag_testBit {i j : Nat} (hi : i < p.cap) (hj : j < p.limbW) :
    p.maxMag.testBit (p.limbW * i + j) = true := by
  have hlt : p.limbW * i + j < p.bits :=
    calc p.limbW * i + j < p.limbW * (i + 1) := by rw [Nat.mul_succ]; omega
      _ ≤ p.limbW * p.cap := Nat.mul_le_mul_left _ hi
      _ = p.bits := Nat.mul_comm ..
  rw [Params.maxMag, Params.base_pow_cap, Nat.testBit_two_pow_sub_one, decide_eq_true hlt]

theorem complementUnit_value (hx : x.HoldsFin p a) : (complementUnit p x).value p = .fin (p.maxMag - a) := by
  have hle : a ≤ p.maxMag := (p.le_maxMag_iff a).2 hx.lt_base_pow_cap
  refine UnitResult.value_raw_digits hx.one_le_cap le_rfl (fun i hi => ?limb) ((p.le_maxMag_iff _).1 (Nat.sub_le ..))
  case limb =>
    have hlimb : x.limbAt i < 2 ^ p.limbW := hx.limbAt_eq i ▸ Nat.mod_lt _ p.base_pos
    refine Nat.eq_of_testBit_eq fun j => ?_
    rw [digit_testBit, maxMag_sub_eq_xor hle, Params.base, two_pow_sub_one_sub_eq_xor hlimb, Nat.testBit_xor,
      Nat.testBit_xor, Nat.testBit_two_pow_sub_one, hx.limbAt_testBit]
    by_cases hj : j < p.limbW
    · simp [hj, digit_maxMag_testBit hi hj]
    · simp [hj]

/-! ### The barrel shifter (R212) -/

/-- Limb `i` of the left shift by `q` limbs and `r` bits: its bits from `r` up are the lowest of limb `i - q`, and those
below `r` are the highest of the limb below that. -/
theorem shlLimb_eq (hx : x.HoldsFin p a) (q i : Nat) {r : Nat} (hr : r < p.limbW) :
    shlLimb p x q r i = a * 2 ^ (p.limbW * q + r) / p.base ^ i % p.base := by
  refine Nat.eq_of_testBit_eq fun j => ?_
  rw [digit_testBit, Nat.testBit_mul_two_pow, shlLimb, Params.base, Nat.testBit_mod_two_pow, Nat.testBit_or]
  by_cases hj : j < p.limbW
  swap
  · simp [hj]
  rw [decide_eq_true hj, Bool.true_and, Bool.true_and]
  rcases Nat.lt_or_ge i q with hi | hi
  · have hmul : p.limbW * i + p.limbW ≤ p.limbW * q := Nat.mul_le_mul_left p.limbW hi
    rw [if_neg hi.not_ge, if_neg (show ¬ q + 1 ≤ i by omega), ite_self, Nat.zero_testBit, Bool.or_self,
      decide_eq_false (by omega), Bool.false_and]
  obtain ⟨k, rfl⟩ := Nat.exists_eq_add_of_le hi
  rw [if_pos hi, Nat.add_sub_cancel_left, Nat.mul_add, Nat.testBit_shiftLeft, hx.limbAt_testBit]
  rcases Nat.lt_or_ge j r with hjr | hjr
  · rw [decide_eq_false (not_le.2 hjr), Bool.false_and, Bool.false_or, if_neg (by omega)]
    cases k with
    | zero => rw [if_neg (by omega), Nat.zero_testBit, decide_eq_false (by omega), Bool.false_and]
    | succ k =>
      rw [if_pos (by omega), Nat.add_sub_cancel, Nat.testBit_shiftRight, hx.limbAt_testBit, decide_eq_true (by omega),
        Bool.true_and, Nat.mul_succ, decide_eq_true (by omega), Bool.true_and]
      congr 1
      omega
  · have hlow : (if r = 0 then 0 else if q + 1 ≤ q + k then x.limbAt (k - 1) >>> (p.limbW - r) else 0).testBit j =
        false := by
      split_ifs
      · exact Nat.zero_testBit j
      · rw [Nat.testBit_shiftRight, hx.limbAt_testBit, decide_eq_false (by omega), Bool.false_and]
      · exact Nat.zero_testBit j
    rw [hlow, Bool.or_false, decide_eq_true hjr, Bool.true_and, decide_eq_true (by omega), Bool.true_and,
      decide_eq_true (by omega), Bool.true_and]
    congr 1
    omega

/-- Limb `i` of the right shift by `q` limbs and `r` bits: its bits below `LIMB_W - r` are the highest of limb `i + q`, and
those from there up are the lowest of the limb above that. -/
theorem shrLimb_eq (hx : x.HoldsFin p a) (q i : Nat) {r : Nat} (hr : r < p.limbW) :
    shrLimb p x q r i = a / 2 ^ (p.limbW * q + r) / p.base ^ i % p.base := by
  refine Nat.eq_of_testBit_eq fun j => ?_
  rw [digit_testBit, Nat.testBit_div_two_pow, shrLimb, Params.base, Nat.testBit_mod_two_pow, Nat.testBit_or,
    Nat.testBit_shiftRight, hx.limbAt_testBit]
  by_cases hj : j < p.limbW
  swap
  · simp [hj]
  rw [decide_eq_true hj, Bool.true_and, Bool.true_and]
  rcases Nat.lt_or_ge (r + j) p.limbW with hjr | hjr
  · have hhigh : (if r = 0 then 0 else x.limbAt (i + q + 1) <<< (p.limbW - r)).testBit j = false := by
      split_ifs
      · exact Nat.zero_testBit j
      · rw [Nat.testBit_shiftLeft, decide_eq_false (by omega), Bool.false_and]
    rw [hhigh, Bool.or_false, decide_eq_true hjr, Bool.true_and, Nat.mul_add]
    congr 1
    omega
  · rw [decide_eq_false (not_lt.2 hjr), Bool.false_and, Bool.false_or, if_neg (by omega), Nat.testBit_shiftLeft,
      hx.limbAt_testBit, decide_eq_true (by omega), Bool.true_and, decide_eq_true (by omega), Bool.true_and, Nat.mul_succ,
      Nat.mul_add]
    congr 1
    omega

/-- The unit's test for a bit shifted out (R212), before any limb is shifted. -/
theorem shiftOut_iff {bits a d : Nat} : (a ≠ 0 ∧ (bits ≤ d ∨ 2 ^ (bits - d) ≤ a)) ↔ 2 ^ bits ≤ a * 2 ^ d := by
  rcases Nat.eq_zero_or_pos a with rfl | ha
  · simp
  rw [and_iff_right ha.ne']
  rcases Nat.lt_or_ge d bits with hd | hd
  · rw [or_iff_right hd.not_ge, ← Nat.mul_le_mul_right_iff (Nat.two_pow_pos d), ← Nat.pow_add, Nat.sub_add_cancel hd.le]
  · have hle : 2 ^ bits ≤ a * 2 ^ d := (Nat.pow_le_pow_right two_pos hd).trans (Nat.le_mul_of_pos_left _ ha)
    exact iff_of_true (.inl hd) hle

/-- A distance is its whole limbs and the bits left over (R212). -/
theorem shiftLeftUnit_value (hw : 0 < p.limbW) (hx : x.HoldsFin p a) (d : Nat) :
    (shiftLeftUnit p x a d).value p = finCell p (a * 2 ^ d) := by
  have hd : p.limbW * (d / p.limbW) + d % p.limbW = d := Nat.div_add_mod d p.limbW
  have hr : d % p.limbW < p.limbW := Nat.mod_lt d hw
  rw [shiftLeftUnit, finCell]
  split_ifs with hout hfits hfits
  · exact absurd (lt_base_pow_cap_iff.1 hfits) (shiftOut_iff.1 hout).not_gt
  · rfl
  · refine UnitResult.value_raw_digits hx.one_le_cap le_rfl (fun i _ => ?limb) hfits
    case limb => rw [shlLimb_eq hx _ i hr, hd]
  · exact absurd (shiftOut_iff.2 (not_lt.1 fun h => hfits (lt_base_pow_cap_iff.2 h))) hout

theorem shiftRightUnit_value (hw : 0 < p.limbW) (hx : x.HoldsFin p a) (d : Nat) :
    (shiftRightUnit p x d).value p = .fin (a / 2 ^ d) := by
  have hd : p.limbW * (d / p.limbW) + d % p.limbW = d := Nat.div_add_mod d p.limbW
  have hr : d % p.limbW < p.limbW := Nat.mod_lt d hw
  refine UnitResult.value_raw_digits hx.one_le_cap le_rfl (fun i _ => ?limb) ((Nat.div_le_self ..).trans_lt hx.lt_base_pow_cap)
  case limb => rw [shrLimb_eq hx _ i hr, hd]

end

/-! ### The statements -/

/-- Settles O57: each unit gives every limb of the result on the magnitudes. -/
theorem bitwiseUnitActsOnMagnitudes : Obligations.BitwiseUnitActsOnMagnitudes := by
  unfold Obligations.BitwiseUnitActsOnMagnitudes
  intro p x y a b _ hx hy
  have hx := NReg.holdsFin_of_value? hx
  have hy := NReg.holdsFin_of_value? hy
  exact ⟨bitwiseUnit_value isBitwise_land hx hy, bitwiseUnit_value isBitwise_lor hx hy,
    bitwiseUnit_value isBitwise_xor hx hy, complementUnit_value hx⟩

/-- Settles O58: each shifter gives every limb of the shifted magnitude, and the left one tests for a bit shifted out. -/
theorem barrelShifterGivesShifts : Obligations.BarrelShifterGivesShifts := by
  unfold Obligations.BarrelShifterGivesShifts
  intro p x a d hp hx
  obtain ⟨hw, -⟩ := hp
  have hx := NReg.holdsFin_of_value? hx
  exact ⟨shiftLeftUnit_value hw hx d, shiftRightUnit_value hw hx d⟩

end Sys2Proof.Machine
end

section
/-!
PROOFS. The schoolbook multiplier (R160): a row adds one limb of the first operand times the second operand at the limb's
position, and a limb at a position past the capacity is not 0 exactly when the product is past `MAX`.
-/

namespace Sys2Proof.Machine

/-! ### Writing one limb of a vector -/

theorem ofLimbs_set (b v : Nat) {t : List Nat} {k : Nat} (hk : k < t.length) :
    ofLimbs b (t.set k v) + b ^ k * t.getD k 0 = ofLimbs b t + b ^ k * v := by
  induction t generalizing k with
  | nil => exact absurd hk (Nat.not_lt_zero k)
  | cons l ls ih =>
    cases k with
    | zero => simp [ofLimbs]; ring
    | succ k =>
      have hrest := ih (Nat.lt_of_succ_lt_succ hk)
      simp only [List.set_cons_succ, List.getD_cons_succ, ofLimbs, Nat.pow_succ']
      linear_combination b * hrest

theorem getD_set_ne (t : List Nat) (v : Nat) {k j : Nat} (h : k ≠ j) : (t.set k v).getD j 0 = t.getD j 0 := by
  rw [List.getD, List.getD, List.getElem?_set_ne h]

theorem forall_mem_set_lt {b v k : Nat} {t : List Nat} (ht : ∀ l ∈ t, l < b) (hv : v < b) : ∀ l ∈ t.set k v, l < b := by
  intro l hl
  rcases List.mem_or_eq_of_mem_set hl with h | rfl
  · exact ht l h
  · exact hv

theorem getD_lt_of_forall_mem {b : Nat} {t : List Nat} (hb : 0 < b) (ht : ∀ l ∈ t, l < b) (k : Nat) : t.getD k 0 < b := by
  rcases Nat.lt_or_ge k t.length with h | h
  · rw [List.getD_eq_getElem _ _ h]
    exact ht _ (List.getElem_mem h)
  · rwa [List.getD_eq_default _ _ h]

/-- The double-width accumulator does not overflow: its high limb is a limb (R160). -/
theorem mulAcc_div_lt {b x y t c : Nat} (hx : x < b) (hy : y < b) (ht : t < b) (hc : c < b) : (x * y + t + c) / b < b := by
  obtain ⟨m, rfl⟩ : ∃ m, b = m + 1 := ⟨b - 1, by omega⟩
  have hmul : x * y ≤ m * m := Nat.mul_le_mul (Nat.le_of_lt_succ hx) (Nat.le_of_lt_succ hy)
  refine Nat.div_lt_of_lt_mul ?_
  calc x * y + t + c < m * m + m + m + 1 := by omega
    _ = (m + 1) * (m + 1) := by ring

/-! ### One row -/

section
variable {p : Params} {x y : NReg} {a b : Nat}

theorem mulRow_length (xi i n j c : Nat) (t : List Nat) : (mulRow p xi y i n j c t).length = t.length := by
  induction n generalizing j c t with
  | zero => exact List.length_set
  | succ n ih => rw [mulRow, ih, List.length_set]

/-- A row writes no position past the one its last carry goes to. -/
theorem mulRow_getD_above (xi i n j c : Nat) (t : List Nat) {k : Nat} (hk : i + j + n < k) :
    (mulRow p xi y i n j c t).getD k 0 = t.getD k 0 := by
  induction n generalizing j c t with
  | zero => exact getD_set_ne t c (by omega)
  | succ n ih => rw [mulRow, ih _ _ _ (by omega), getD_set_ne _ _ (by omega)]

theorem mulRow_lt (hy : y.HoldsFin p b) {xi : Nat} (hxi : xi < p.base) (i n j : Nat) {c : Nat} (hc : c < p.base)
    {t : List Nat} (ht : ∀ l ∈ t, l < p.base) : ∀ l ∈ mulRow p xi y i n j c t, l < p.base := by
  induction n generalizing j c t with
  | zero => exact forall_mem_set_lt ht hc
  | succ n ih =>
    have hyj : y.limbAt j < p.base := hy.limbAt_eq j ▸ Nat.mod_lt _ p.base_pos
    have htk := getD_lt_of_forall_mem p.base_pos ht (i + j)
    exact ih (j + 1) (mulAcc_div_lt hxi hyj htk hc) (forall_mem_set_lt ht (Nat.mod_lt _ p.base_pos))

/-- From position `j` on, a row adds the limb times the digits of the second operand that are left, and the carry in. -/
theorem mulRow_sum (hy : y.HoldsFin p b) (xi i n j c : Nat) {t : List Nat} (hlen : i + j + n < t.length)
    (hzero : t.getD (i + j + n) 0 = 0) :
    ofLimbs p.base (mulRow p xi y i n j c t) =
      ofLimbs p.base t + p.base ^ (i + j) * (xi * (b / p.base ^ j % p.base ^ n) + c) := by
  induction n generalizing j c t with
  | zero =>
    have hset := ofLimbs_set p.base c hlen
    rw [hzero, Nat.mul_zero, Nat.add_zero] at hset
    rw [Nat.pow_zero, Nat.mod_one, Nat.mul_zero, Nat.zero_add]
    exact hset
  | succ n ih =>
    have hset := ofLimbs_set p.base ((xi * y.limbAt j + t.getD (i + j) 0 + c) % p.base)
      (show i + j < t.length by omega)
    rw [mulRow, digits_succ, ← hy.limbAt_eq, ih _ _ (by rw [List.length_set]; omega)
      (by rw [getD_set_ne _ _ (by omega)]; exact Nat.add_right_comm (i + j) 1 n ▸ hzero)]
    generalize hacc : xi * y.limbAt j + t.getD (i + j) 0 + c = acc at hset
    have hmod := Nat.mod_add_div acc p.base
    refine Nat.add_right_cancel (m := p.base ^ (i + j) * t.getD (i + j) 0) ?_
    rw [← Nat.add_assoc i j 1]
    linear_combination hset + p.base ^ (i + j) * hmod + p.base ^ (i + j) * hacc.symm

/-! ### All rows -/

theorem mulRows_lt (hx : x.HoldsFin p a) (hy : y.HoldsFin p b) (n i : Nat) {t : List Nat} (ht : ∀ l ∈ t, l < p.base) :
    ∀ l ∈ mulRows p x y n i t, l < p.base := by
  induction n generalizing i t with
  | zero => exact ht
  | succ n ih =>
    have hxi : x.limbAt i < p.base := hx.limbAt_eq i ▸ Nat.mod_lt _ p.base_pos
    exact ih (i + 1) (mulRow_lt hy hxi i y.len 0 p.base_pos ht)

/-- From row `i` on, the rows add the digits of the first operand that are left times the second operand. -/
theorem mulRows_sum (hx : x.HoldsFin p a) (hy : y.HoldsFin p b) (n i : Nat) {t : List Nat}
    (hlen : i + n + y.len ≤ t.length) (hzero : ∀ k, i + y.len ≤ k → t.getD k 0 = 0) :
    ofLimbs p.base (mulRows p x y n i t) =
      ofLimbs p.base t + p.base ^ i * (a / p.base ^ i % p.base ^ n * b) := by
  induction n generalizing i t with
  | zero => rw [mulRows, Nat.pow_zero, Nat.mod_one, Nat.zero_mul, Nat.mul_zero, Nat.add_zero]
  | succ n ih =>
    have hrow := mulRow_sum hy (x.limbAt i) i y.len 0 0 (t := t) (by omega) (hzero _ le_rfl)
    rw [digits_of_lt hy.lt_base_pow_len] at hrow
    rw [mulRows, ih (i + 1) (by rw [mulRow_length]; omega)
      (fun k hk => (mulRow_getD_above _ i y.len 0 0 t (by omega)).trans (hzero k (by omega))), hrow, digits_succ,
      ← hx.limbAt_eq, Nat.pow_succ]
    ring

/-! ### Overflow -/

/-- A limb at position `n` or above is not 0 exactly when the number is `b^n` or more. -/
theorem drop_any_ne_zero_iff {b : Nat} (hb : 0 < b) {t : List Nat} (ht : ∀ l ∈ t, l < b) (n : Nat) :
    (t.drop n).any (fun l => l != 0) = true ↔ b ^ n ≤ ofLimbs b t := by
  rw [List.any_eq_true]
  constructor
  · rintro ⟨l, hl, hne⟩
    obtain ⟨k, hk, rfl⟩ := List.mem_iff_getElem.1 hl
    have hdigit := ofLimbs_digit ht (n + k)
    by_contra hlt
    have hpow : ofLimbs b t < b ^ (n + k) :=
      (Nat.lt_of_not_le hlt).trans_le (Nat.pow_le_pow_right hb (Nat.le_add_right n k))
    rw [Nat.div_eq_of_lt hpow, Nat.zero_mod] at hdigit
    rw [List.length_drop] at hk
    rw [List.getElem_drop, ← List.getD_eq_getElem t 0, ← hdigit] at hne
    exact absurd hne (by decide)
  · intro hle
    by_contra hnone
    have hzero : ∀ k, n ≤ k → t.getD k 0 = 0 := by
      intro k hk
      by_contra hne
      have hlt : k < t.length := by
        by_contra hge
        exact hne (List.getD_eq_default _ _ (Nat.le_of_not_lt hge))
      have hmem : t.getD k 0 ∈ t.drop n := by
        rw [List.getD_eq_getElem _ _ hlt]
        exact List.mem_drop_iff_getElem.2 ⟨k - n, by omega, by simp [Nat.add_sub_cancel' hk]⟩
      exact hnone ⟨_, hmem, bne_iff_ne.2 hne⟩
    have hlt := ofLimbs_lt b (t.take n) fun l hl => ht l (List.mem_of_mem_take hl)
    rw [ofLimbs_take_of_zero_above b hzero] at hlt
    exact (hlt.trans_le (Nat.pow_le_pow_right hb (List.length_take_le n t))).not_ge hle

/-- The vector of all rows holds the product. -/
theorem mulRows_product (hx : x.HoldsFin p a) (hy : y.HoldsFin p b) :
    ofLimbs p.base (mulRows p x y x.len 0 (List.replicate (x.len + y.len) 0)) = a * b := by
  have hzero (k : Nat) : (List.replicate (x.len + y.len) 0).getD k 0 = 0 :=
    List.getElem?_getD_replicate_default_eq ..
  rw [mulRows_sum hx hy x.len 0 (by rw [List.length_replicate, Nat.zero_add]) fun k _ => hzero k,
    ofLimbs_eq_zero _ fun l hl => List.eq_of_mem_replicate hl, digits_of_lt hx.lt_base_pow_len]
  ring

end

/-- Settles O54: the limbs are the digits of the product, so one past the capacity is not 0 exactly past `MAX`. -/
theorem schoolbookMultiplierGivesProduct : Obligations.SchoolbookMultiplierGivesProduct := by
  unfold Obligations.SchoolbookMultiplierGivesProduct
  intro p x y a b _ hx hy
  have hx := NReg.holdsFin_of_value? hx
  have hy := NReg.holdsFin_of_value? hy
  have hsum := mulRows_product hx hy
  have hlimbs : ∀ l ∈ mulRows p x y x.len 0 (List.replicate (x.len + y.len) 0), l < p.base :=
    mulRows_lt hx hy x.len 0 fun l hl => List.eq_of_mem_replicate hl ▸ p.base_pos
  have hover := drop_any_ne_zero_iff p.base_pos hlimbs p.cap
  rw [hsum] at hover
  simp only [multiplier, hover, finCell]
  split_ifs with hle hlt hlt
  · omega
  · rfl
  · refine UnitResult.value_raw_digits hx.one_le_cap le_rfl (fun i _ => ?limb) hlt
    case limb => rw [← ofLimbs_digit hlimbs, hsum]
  · omega

end Sys2Proof.Machine
end

section
/-!
PROOFS. The dividers (R163, R164): division digit by digit, from the top digit down, is one loop, which the single-limb
divider runs as it stands and the long-division engine runs on scaled operands, with an estimate that its two corrections
make exact.
-/

namespace Sys2Proof.Machine

/-! ### Division digit by digit -/

/-- Divide the number with the digits `u` below position `n` by `d`, in base `b`, with remainder `rem` so far: the quotient
digits and the last remainder. -/
def divDigits (b d : Nat) (u : Nat → Nat) : Nat → Nat → List Nat × Nat
  | 0, rem => ([], rem)
  | i + 1, rem =>
    let cur := rem * b + u i
    let (q, r) := divDigits b d u i (cur % d)
    (q ++ [cur / d], r)

section
variable {b d m : Nat}

theorem divDigits_length (u : Nat → Nat) (n rem : Nat) : (divDigits b d u n rem).1.length = n := by
  induction n generalizing rem with
  | zero => rfl
  | succ n ih => rw [divDigits, List.length_append, ih]; rfl

theorem divDigits_rem_lt (u : Nat → Nat) (n : Nat) {rem : Nat} (h : rem < d) : (divDigits b d u n rem).2 < d := by
  induction n generalizing rem with
  | zero => exact h
  | succ n ih => exact ih (Nat.mod_lt _ (Nat.zero_lt_of_lt h))

/-- What is divided is the remainder so far before the digits that are left. -/
theorem divDigits_sum {u : Nat → Nat} (hu : ∀ i, u i = m / b ^ i % b) (n rem : Nat) :
    ofLimbs b (divDigits b d u n rem).1 * d + (divDigits b d u n rem).2 = rem * b ^ n + m % b ^ n := by
  induction n generalizing rem with
  | zero => simp [divDigits, ofLimbs, Nat.mod_one]
  | succ n ih =>
    have hcur := Nat.mod_add_div (rem * b + u n) d
    have hrest := ih ((rem * b + u n) % d)
    simp only [divDigits, ofLimbs_append, divDigits_length, ofLimbs, Nat.mul_zero, Nat.add_zero, Nat.mod_pow_succ, ← hu]
    linear_combination hrest + b ^ n * hcur

/-- With no remainder before the digits of `m`, the loop gives the quotient and the remainder of `m`. -/
theorem divDigits_eq {u : Nat → Nat} (hu : ∀ i, u i = m / b ^ i % b) {n : Nat} (hm : m < b ^ n) (hd : 0 < d) :
    ofLimbs b (divDigits b d u n 0).1 = m / d ∧ (divDigits b d u n 0).2 = m % d := by
  have hsum := divDigits_sum (d := d) hu n 0
  have hlt := divDigits_rem_lt (b := b) u n hd
  rw [Nat.zero_mul, Nat.zero_add, Nat.mod_eq_of_lt hm] at hsum
  exact ((Nat.div_mod_unique hd).2 ⟨by linarith, hlt⟩).imp Eq.symm Eq.symm

end

/-! ### The single-limb divider (R164) -/

theorem divLimbs_eq_divDigits (p : Params) (x : NReg) (d n rem : Nat) :
    divLimbs p x d n rem = divDigits p.base d x.limbAt n rem := by
  induction n generalizing rem with
  | zero => rfl
  | succ n ih => rw [divLimbs, divDigits, ih]

/-- Settles O55: the divider's loop is the division of the limbs, which are the digits of the magnitude. -/
theorem singleLimbDividerGivesQuotientAndRemainder : Obligations.SingleLimbDividerGivesQuotientAndRemainder := by
  unfold Obligations.SingleLimbDividerGivesQuotientAndRemainder
  intro p x a d _ hx hd _
  have hx := NReg.holdsFin_of_value? hx
  obtain ⟨hquot, hrem⟩ := divDigits_eq hx.limbAt_eq hx.lt_base_pow_len hd
  rw [limbQuotient, limbRemainder, divLimbs_eq_divDigits]
  exact ⟨(UnitResult.value_raw (divDigits_length ..) hx.len_pos hx.len_le_cap).trans (congrArg Val.fin hquot), hrem⟩

/-! ### One quotient limb of the long-division engine (R163) -/

section
variable {p : Params} {n v rem : Nat}

/-- Trial subtractions bring an estimate that is at most `k` too large down to the quotient. -/
theorem correctDown_eq (hv : 0 < v) {k q : Nat} (hlo : rem / v ≤ q) (hhi : q ≤ rem / v + k) :
    correctDown v rem k q = rem / v := by
  induction k generalizing q with
  | zero => exact le_antisymm hhi hlo
  | succ k ih =>
    rw [correctDown]
    split_ifs with hlarge
    · have hlt : rem / v < q := (Nat.div_lt_iff_lt_mul hv).2 hlarge
      exact ih (Nat.le_sub_one_of_lt hlt) (Nat.sub_le_of_le_add hhi)
    · have hle : q ≤ rem / v := (Nat.le_div_iff_mul_le hv).2 (Nat.le_of_not_lt hlarge)
      exact le_antisymm hle hlo

/-- Dropping the low part of the divisor and of the remainder does not make the estimate too small. -/
theorem div_le_estimate {low : Nat} (hv : low ≤ v) (hlow : 0 < low) : rem / v ≤ rem / low / (v / low) := by
  rw [Nat.div_div_eq_div_mul]
  exact Nat.div_le_div_left (Nat.mul_div_le v low) (Nat.mul_pos hlow (Nat.div_pos hv hlow))

/-- An estimate from the high parts is at most 2 too large, if it is a limb and the divisor's high part is at least half the
base (Knuth, Algorithm D). -/
theorem estimate_le {b e low : Nat} (hlow : 0 < low) (htop : b ≤ 2 * (v / low)) (heb : e < b)
    (he : e ≤ rem / low / (v / low)) : e ≤ rem / v + 2 := by
  have htop_pos : 0 < v / low := by omega
  have hv : 0 < v := Nat.pos_of_ne_zero fun h => by simp [h] at htop_pos
  by_contra hlarge
  have hthree : 3 ≤ e := (Nat.le_add_left 2 _).trans_lt (Nat.lt_of_not_le hlarge)
  obtain ⟨f, rfl⟩ := Nat.exists_eq_add_of_le' hthree
  have hrem : rem < (f + 1) * v := (Nat.div_lt_iff_lt_mul hv).1 (by omega)
  have hest : (f + 3) * (low * (v / low)) ≤ rem := by
    rw [Nat.div_div_eq_div_mul] at he
    exact (Nat.le_div_iff_mul_le (Nat.mul_pos hlow htop_pos)).1 he
  have hsplit : v < low * (v / low + 1) := Nat.lt_mul_div_succ v hlow
  generalize v / low = h at *
  have hcmp : low * ((f + 3) * h) < low * ((f + 1) * (h + 1)) :=
    calc low * ((f + 3) * h) = (f + 3) * (low * h) := by ring
      _ < (f + 1) * v := hest.trans_lt hrem
      _ ≤ (f + 1) * (low * (h + 1)) := Nat.mul_le_mul_left _ hsplit.le
      _ = low * ((f + 1) * (h + 1)) := by ring
  have hcmp := Nat.lt_of_mul_lt_mul_left hcmp
  have : (f + 3) * h = (f + 1) * h + 2 * h := by ring
  have : (f + 1) * (h + 1) = (f + 1) * h + (f + 1) := by ring
  omega

/-- For a divisor whose top limb is at least half the base, and a running remainder whose quotient is a limb, the corrected
estimate is that quotient. -/
theorem quotientLimb_eq (hv : p.base ^ (n - 1) ≤ v) (htop : p.base ≤ 2 * (v / p.base ^ (n - 1)))
    (hrem : rem < v * p.base) : quotientLimb p n v rem = rem / v := by
  have hlow := p.base_pow_pos (n - 1)
  have hlimb : rem / v < p.base := Nat.div_lt_of_lt_mul hrem
  refine correctDown_eq (hlow.trans_le hv) (le_min (by omega) (div_le_estimate hv hlow)) ?_
  exact estimate_le hlow htop ((min_le_left _ _).trans_lt (by have := p.base_pos; omega)) (min_le_right _ _)

/-- With such a divisor the engine's loop is division digit by digit. -/
theorem longDivLimbs_eq_divDigits (hv : p.base ^ (n - 1) ≤ v) (htop : p.base ≤ 2 * (v / p.base ^ (n - 1))) {u : Nat → Nat}
    (hu : ∀ i, u i < p.base) (m : Nat) (hrem : rem < v) :
    longDivLimbs p n v u m rem = divDigits p.base v u m rem := by
  induction m generalizing rem with
  | zero => rfl
  | succ m ih =>
    have hcur : rem * p.base + u m < v * p.base :=
      calc rem * p.base + u m < (rem + 1) * p.base := by rw [Nat.succ_mul]; exact Nat.add_lt_add_left (hu m) _
        _ ≤ v * p.base := Nat.mul_le_mul_right _ hrem
    have hsub : rem * p.base + u m - (rem * p.base + u m) / v * v = (rem * p.base + u m) % v := by
      rw [Nat.mod_eq_sub_div_mul]
    rw [longDivLimbs, divDigits]
    simp only [quotientLimb_eq hv htop hcur, hsub]
    rw [ih (Nat.mod_lt _ (Nat.zero_lt_of_lt hrem))]

end

/-! ### Scaling (R163) -/

section
variable {p : Params} {x y : NReg} {a b : Nat}

/-- The distance that brings the divisor's top limb up to the top of its width. -/
def scaleBits (p : Params) (y : NReg) : Nat := p.limbW - bitlen (y.limbAt (y.len - 1))

theorem NReg.HoldsFin.topLimb_eq (hy : y.HoldsFin p b) : y.limbAt (y.len - 1) = b / p.base ^ (y.len - 1) := by
  have hlen := hy.len_pos
  rw [hy.limbAt_eq]
  refine Nat.mod_eq_of_lt ((Nat.div_lt_iff_lt_mul (p.base_pow_pos _)).2 ?_)
  rw [← Nat.pow_succ', Nat.succ_eq_add_one, Nat.sub_add_cancel hlen]
  exact hy.lt_base_pow_len

/-- The top limb of a divisor that is not Zero is not 0. -/
theorem NReg.HoldsFin.base_pow_pred_le (hy : y.HoldsFin p b) (hb : 0 < b) : p.base ^ (y.len - 1) ≤ b := by
  by_cases hlen : y.len = 1
  · rwa [hlen]
  · exact hy.base_pow_le hlen

/-- After scaling the top limb fills its width: its highest bit is set, and no bit is lost. -/
theorem scaled_topLimb (hy : y.HoldsFin p b) (hb : 0 < b) :
    scaleBits p y < p.limbW ∧ 2 ^ p.limbW ≤ 2 * (y.limbAt (y.len - 1) * 2 ^ scaleBits p y) ∧
      (y.limbAt (y.len - 1) + 1) * 2 ^ scaleBits p y ≤ 2 ^ p.limbW := by
  have hpos : 0 < y.limbAt (y.len - 1) := by
    rw [hy.topLimb_eq]
    exact Nat.div_pos (hy.base_pow_pred_le hb) (p.base_pow_pos _)
  have hlimb : y.limbAt (y.len - 1) < 2 ^ p.limbW := hy.limbAt_eq _ ▸ Nat.mod_lt _ p.base_pos
  rw [scaleBits, bitlen_eq_size]
  generalize y.limbAt (y.len - 1) = h at hpos hlimb
  obtain ⟨k, hk⟩ : ∃ k, Nat.size h = k + 1 := Nat.exists_eq_add_of_le' (Nat.size_pos.2 hpos)
  have hlo : 2 ^ k ≤ h := Nat.lt_size.1 (hk ▸ k.lt_succ_self)
  have hhi : h < 2 ^ (k + 1) := hk ▸ Nat.lt_size_self h
  have hle : k + 1 ≤ p.limbW := hk ▸ Nat.size_le.2 hlimb
  have hsplit : 2 ^ p.limbW = 2 ^ (k + 1) * 2 ^ (p.limbW - (k + 1)) := by rw [← Nat.pow_add, Nat.add_sub_cancel' hle]
  rw [hk, hsplit]
  refine ⟨by omega, ?_, Nat.mul_le_mul_right _ hhi⟩
  rw [← Nat.mul_assoc, Nat.pow_succ']
  exact Nat.mul_le_mul_right _ (Nat.mul_le_mul_left 2 hlo)

/-- Scaling loses no bit of the divisor, and its top limb is at least half the base. -/
theorem scaled_divisor (hy : y.HoldsFin p b) (hb : 0 < b) :
    b * 2 ^ scaleBits p y < p.base ^ y.len ∧ p.base ^ (y.len - 1) ≤ b * 2 ^ scaleBits p y ∧
      p.base ≤ 2 * (b * 2 ^ scaleBits p y / p.base ^ (y.len - 1)) := by
  obtain ⟨-, hhalf, hfits⟩ := scaled_topLimb hy hb
  rw [hy.topLimb_eq] at hhalf hfits
  have hlow := p.base_pow_pos (y.len - 1)
  have hle := hy.base_pow_pred_le hb
  refine ⟨?fits, hle.trans (Nat.le_mul_of_pos_right b (Nat.two_pow_pos _)), ?half⟩
  case fits =>
    calc b * 2 ^ scaleBits p y < p.base ^ (y.len - 1) * (b / p.base ^ (y.len - 1) + 1) * 2 ^ scaleBits p y :=
          Nat.mul_lt_mul_of_pos_right (Nat.lt_mul_div_succ b hlow) (Nat.two_pow_pos _)
      _ ≤ p.base ^ (y.len - 1) * p.base := by rw [Nat.mul_assoc]; exact Nat.mul_le_mul_left _ hfits
      _ = p.base ^ y.len := by rw [← Nat.pow_succ, Nat.succ_eq_add_one, Nat.sub_add_cancel hy.len_pos]
  case half =>
    refine hhalf.trans (Nat.mul_le_mul_left 2 ((Nat.le_div_iff_mul_le hlow).2 ?_))
    rw [Nat.mul_right_comm]
    exact Nat.mul_le_mul_right _ (Nat.div_mul_le_self b _)

/-- The limbs of a scaled operand are the digits of its scaled magnitude. -/
theorem scaled_limb (hx : x.HoldsFin p a) (hs : scaleBits p y < p.limbW) (i : Nat) :
    shlLimb p x 0 (scaleBits p y) i = a * 2 ^ scaleBits p y / p.base ^ i % p.base := by
  rw [shlLimb_eq hx 0 i hs, Nat.mul_zero, Nat.zero_add]

/-- The scaled divisor, as the engine puts it together. -/
def scaledDivisor (p : Params) (y : NReg) : Nat := ofLimbs p.base (limbVector y.len (shlLimb p y 0 (scaleBits p y)))

theorem scaledDivisor_eq (hy : y.HoldsFin p b) (hb : 0 < b) : scaledDivisor p y = b * 2 ^ scaleBits p y := by
  obtain ⟨hs, -⟩ := scaled_topLimb hy hb
  obtain ⟨hfits, -⟩ := scaled_divisor hy hb
  rw [scaledDivisor, funext (scaled_limb hy hs), limbVector, ofLimbs_digits, Nat.mod_eq_of_lt hfits]

/-- The engine's loop on the scaled operands. -/
def scaledDivision (p : Params) (x y : NReg) : List Nat × Nat :=
  longDivLimbs p y.len (scaledDivisor p y) (shlLimb p x 0 (scaleBits p y)) (x.len + 1) 0

theorem longDivider_eq (p : Params) (x y : NReg) : longDivider p x y =
    (.raw x.len ((scaledDivision p x y).1.take x.len),
      .raw y.len (limbVector y.len fun i => (scaledDivision p x y).2 / 2 ^ scaleBits p y / p.base ^ i % p.base)) := rfl

/-- Scaling both operands leaves the quotient and scales the remainder. -/
theorem scaledDivision_spec (hx : x.HoldsFin p a) (hy : y.HoldsFin p b) (hb : 0 < b) :
    (scaledDivision p x y).1.length = x.len + 1 ∧ ofLimbs p.base (scaledDivision p x y).1 = a / b ∧
      (scaledDivision p x y).2 = a % b * 2 ^ scaleBits p y := by
  obtain ⟨hs, -⟩ := scaled_topLimb hy hb
  obtain ⟨-, hv, htop⟩ := scaled_divisor hy hb
  have hscale : 0 < 2 ^ scaleBits p y := Nat.two_pow_pos _
  have hpos : 0 < b * 2 ^ scaleBits p y := Nat.mul_pos hb hscale
  have hlimb := scaled_limb (y := y) hx hs
  have hdividend : a * 2 ^ scaleBits p y < p.base ^ (x.len + 1) :=
    calc a * 2 ^ scaleBits p y < p.base ^ x.len * 2 ^ scaleBits p y := Nat.mul_lt_mul_of_pos_right hx.lt_base_pow_len hscale
      _ ≤ p.base ^ x.len * p.base := Nat.mul_le_mul_left _ (Nat.pow_le_pow_right two_pos hs.le)
      _ = p.base ^ (x.len + 1) := (Nat.pow_succ ..).symm
  obtain ⟨hquot, hrem⟩ := divDigits_eq hlimb hdividend hpos
  rw [scaledDivision, scaledDivisor_eq hy hb,
    longDivLimbs_eq_divDigits hv htop (fun i => hlimb i ▸ Nat.mod_lt _ p.base_pos) _ hpos]
  refine ⟨divDigits_length .., ?_, ?_⟩
  · rw [hquot, Nat.mul_div_mul_right _ _ hscale]
  · rw [hrem, Nat.mul_mod_mul_right]

end

/-- A vector whose number is below `b^n` has it in its lowest `n` limbs. -/
theorem ofLimbs_take_of_lt {b n : Nat} {t : List Nat} (hn : n ≤ t.length) (h : ofLimbs b t < b ^ n) :
    ofLimbs b (t.take n) = ofLimbs b t := by
  have hsplit := ofLimbs_append b (t.take n) (t.drop n)
  rw [List.take_append_drop, List.length_take_of_le hn] at hsplit
  have hdrop : ofLimbs b (t.drop n) = 0 := by
    by_contra hne
    have hmul := Nat.le_mul_of_pos_right (b ^ n) (Nat.pos_of_ne_zero hne)
    omega
  rw [hsplit, hdrop, Nat.mul_zero, Nat.add_zero]

/-- Settles O56: the quotient fits the dividend's limbs, and the unscaled remainder the divisor's. -/
theorem longDivisionGivesQuotientAndRemainder : Obligations.LongDivisionGivesQuotientAndRemainder := by
  unfold Obligations.LongDivisionGivesQuotientAndRemainder
  intro p x y a b _ hx hy hb
  have hx := NReg.holdsFin_of_value? hx
  have hy := NReg.holdsFin_of_value? hy
  obtain ⟨hlen, hquot, hrem⟩ := scaledDivision_spec hx hy hb
  rw [longDivider_eq]
  constructor
  · have hfits : ofLimbs p.base (scaledDivision p x y).1 < p.base ^ x.len :=
      hquot ▸ (Nat.div_le_self a b).trans_lt hx.lt_base_pow_len
    rw [UnitResult.value_raw (List.length_take_of_le (by omega)) hx.len_pos hx.len_le_cap,
      ofLimbs_take_of_lt (by omega) hfits, hquot]
  · refine UnitResult.value_raw_digits hy.len_pos hy.len_le_cap (fun i _ => ?limb)
      ((Nat.mod_lt a hb).trans hy.lt_base_pow_len)
    case limb => rw [hrem, Nat.mul_div_cancel _ (Nat.two_pow_pos _)]

end Sys2Proof.Machine
end
